-- ==== Sys2Proof/Word.lean ====
section
/-! DEFINITION. The widths of the core (00_scope.md R7): bytes, 32-bit words, 64-byte blocks, 32-byte digests.
Everything is unsigned and nothing is signed (R9); `+` on words is `BitVec` addition, which wraps (40_datapath.md R71). -/

namespace Sys2Proof

/-- A byte of the stream, of the working buffer or of the digest (R7). -/
abbrev Byte := BitVec 8

/-- SHA-256's "native arithmetic unit": 32 bits, modulo 2^32 (R7, R13). -/
abbrev Word := BitVec 32

/-- A 64-byte chunk, "the unit of compression" (R7, R13); index 0 is the earliest byte (R39). -/
abbrev Block := Vector Byte 64

/-- The 64-word message schedule (R7, R30). -/
abbrev Schedule := Vector Word 64

/-- The 8-word hash state (R7, R16). -/
abbrev HashState := Vector Word 8

/-- The 32 bytes of the digest port (R7, R66). -/
abbrev Digest := Vector Byte 32

end Sys2Proof
end

