-- ==== Sys2Proof/Syntax.lean ====
section
/-! DEFINITION. The commands of the core (30_encoding.md R59), the one command format `CMD` (R56), the reasons a word
is no command (R60), and the lines of a command program (R67, R68). -/

namespace Sys2Proof

/-- The ten commands of the opcode map (R59). No command has an operand, register field or immediate (R57). -/
inductive Instr where
  /-- `INIT` (R120): start a computation. -/
  | init
  /-- `RDBLK` (R85): read the next block. -/
  | rdblk
  /-- `EXPAND` (R100): expand the block into the message schedule. -/
  | expand
  /-- `CINIT` (R106): load the working variables. -/
  | cinit
  /-- `ROUND` (R108): one compression round. -/
  | round
  /-- `FOLD` (R111): accumulate into the hash state. -/
  | fold
  /-- `COMPRESS` (R113): CINIT, 64 ROUNDs, FOLD. -/
  | compress
  /-- `STEP` (R122): one iteration of the driver loop. -/
  | step
  /-- `RUN` (R124): the driver loop to its end. -/
  | run
  /-- `DIGEST` (R126): output the digest. -/
  | digest
deriving DecidableEq, Repr

/-- The two fields of a command word, format `CMD` (R56). -/
structure Cmd where
  /-- bits [7:0], the operation -/
  op : BitVec 8
  /-- bits [31:8], reserved, must be 0 -/
  rsv : BitVec 24
deriving DecidableEq, Repr

/-- Why a 32-bit word is no command (R60). Each of them is the fault `ILLEGAL_COMMAND` on the core. -/
inductive DecodeError where
  /-- `RSV` is not 0. -/
  | reservedBits
  /-- `RSV` is 0 and `OP` is 0x00, "chosen illegal so that an all-zero bus word is caught". -/
  | opcodeZero
  /-- `RSV` is 0 and `OP` is in 0x0B..0xFF. -/
  | opcodeReserved
deriving DecidableEq, Repr

/-- One line of a command program, comment removed (R67, R68). -/
inductive AsmLine where
  /-- a blank line: ignored -/
  | blank
  /-- a mnemonic of R59 -/
  | instr (i : Instr)
  /-- the pseudo-instruction `ROUNDS n` -/
  | rounds (n : Nat)
  /-- the pseudo-instruction `BLOCK` -/
  | block
deriving DecidableEq, Repr

end Sys2Proof
end

