-- ==== Sys2Proof/WellFormed.lean ====
section
/-! DEFINITION. What is well formed. An `Instr` has no field, so every `Instr` is well formed (R57); what can be ill
formed is a command word's two fields (R58, R60) and an assembler line (R68). -/

namespace Sys2Proof

/-- `OP` is one of the ten values of the opcode map (R59). -/
def Cmd.opcodeAssigned (c : Cmd) : Bool := decide (1 ≤ c.op.toNat ∧ c.op.toNat ≤ 10)

/-- `RSV` is 0 (R56). -/
def Cmd.reservedClear (c : Cmd) : Bool := decide (c.rsv = 0)

/-- A word is a legal command "if and only if `RSV = 0` and `OP` is one of the ten values" (R58). -/
def Cmd.wellFormed (c : Cmd) : Bool := c.reservedClear && c.opcodeAssigned

/-- "`ROUNDS n` with n outside 1..64 is refused by the assembler" (R68). Every other line form is well formed. -/
def AsmLine.wellFormed : AsmLine → Bool
  | .blank => true
  | .instr _ => true
  | .rounds n => decide (1 ≤ n ∧ n ≤ 64)
  | .block => true

end Sys2Proof
end

