-- ==== Sys2Proof/Decode.lean ====
section
/-! DEFINITION. Decoding a command word, total on all 2^32 words (30_encoding.md R58), and after it the encoder, both
written from the opcode map of R59. -/

namespace Sys2Proof

/-- The fields of a word (R56): `OP` is bits [7:0], `RSV` bits [31:8]. -/
def Cmd.ofWord (w : Word) : Cmd := { op := w.extractLsb' 0 8, rsv := w.extractLsb' 8 24 }

/-- The word of two fields (R56). -/
def Cmd.toWord (c : Cmd) : Word := c.rsv ++ c.op

/-- The opcode map (R59). The values it leaves out are reserved (R60). -/
def opcodeInstr (op : BitVec 8) : Option Instr :=
  match op.toNat with
  | 0x01 => some .init
  | 0x02 => some .rdblk
  | 0x03 => some .expand
  | 0x04 => some .cinit
  | 0x05 => some .round
  | 0x06 => some .fold
  | 0x07 => some .compress
  | 0x08 => some .step
  | 0x09 => some .run
  | 0x0A => some .digest
  | _ => none

/-- Decoding is total: a word is one of the ten commands, or it is rejected by the name of what is wrong (R58, R60). -/
def decode (w : Word) : Except DecodeError Instr :=
  let c := Cmd.ofWord w
  if c.rsv = 0 then
    match opcodeInstr c.op with
    | some i => .ok i
    | none => if c.op = 0 then .error .opcodeZero else .error .opcodeReserved
  else .error .reservedBits

/-- The `OP` value of each command (R59). -/
def Instr.opcode : Instr → BitVec 8
  | .init => 0x01
  | .rdblk => 0x02
  | .expand => 0x03
  | .cinit => 0x04
  | .round => 0x05
  | .fold => 0x06
  | .compress => 0x07
  | .step => 0x08
  | .run => 0x09
  | .digest => 0x0A

/-- The one word of a command: its `OP`, with `RSV` 0 (R56, R59). -/
def encode (i : Instr) : Word := Cmd.toWord { op := i.opcode, rsv := 0 }

/-- The instruction the decoder reads from an instruction whose bits are `w`, `nbits` of them given and every bit above
them 0. A command is one 32-bit word (R61), so a longer one is no command. -/
def decodeTableWord (nbits w : Nat) : Option Instr :=
  if nbits ≤ 32 then
    match decode (BitVec.ofNat 32 (w % 2 ^ nbits)) with
    | .ok i => some i
    | .error _ => none
  else none

end Sys2Proof
end

