-- ==== Sys2Proof/Config.lean ====
section
/-! DEFINITION. What an implementation fixes, and the free values. Each constant here has no body, so no proof can see
which value it has. The ROM contents, which the spec gives, are in Machine/Rom.lean. -/

namespace Sys2Proof

/-- What an `Interrupted` answer does (60_exceptions.md R142; OPEN in 92_eei_decisions.md D9). -/
inductive InterruptPolicy where
  /-- the request is issued again and nothing else changes -/
  | retry
  /-- the fault `IO_INTERRUPTED` is raised -/
  | abort
deriving DecidableEq, Repr, Inhabited

/-- `INTERRUPT_POLICY` of the instance, "fixed before reset is released" (R142, R160). The spec leaves it open, so the
model does too: a statement holds for both values. Log 3. -/
opaque Config.interruptPolicy : InterruptPolicy

/-- Which of the values that a field of the status word held during a command the n-th status read shows, where it held
several (R51, R167, I12): `Config.heldPick n field`, taken modulo their number. Log 8. -/
opaque Config.heldPick : Nat → Nat → Nat

end Sys2Proof
end

