-- ==== Sys2Proof/Machine/State.lean ====
section
/-! DEFINITION. The state of one core instance (10_state.md R15, R33), the two outer agents' scripts, the outcomes that
are no states of the core (60_exceptions.md R156), and the state after hardware reset (10_state.md R35). All of it is
plain data.

`⊥` ("no value", R11) is the spec's own value of a storage element, and its reset value for `H`, `a`..`h`, `W`, `buf` and
`bitlen` (R35). It is `none`. The rules write each of these elements whole, so each carries one `⊥` for all of it. Log 1. -/

namespace Sys2Proof.Machine

/-- The pad-state (R20), encoded by 30_encoding.md R63. -/
inductive PadState where
  /-- "no padding byte emitted yet" -/
  | notPadded
  /-- "the 0x80 padding byte has been emitted" -/
  | terminatorPlaced
  /-- "the 8-byte big-endian bit-length has been emitted" -/
  | lengthWritten
deriving DecidableEq, Repr

/-- The driver state (R22), encoded by 30_encoding.md R62. -/
inductive Driver where
  /-- after hardware reset, before the first INIT -/
  | uninit
  /-- a computation is under way -/
  | running
  /-- the terminal block has been folded; `H` is the digest -/
  | done
  /-- after a fatal fault -/
  | failed
deriving DecidableEq, Repr

/-- The phase of the current block (R24), encoded by 30_encoding.md R62. -/
inductive Phase where
  /-- no block is held -/
  | idle
  /-- `buf` holds a block EXPAND has not yet consumed -/
  | block
  /-- `W` holds the schedule; the working variables are not yet loaded -/
  | sched
  /-- the working variables are loaded; `rnd` rounds are done -/
  | rounds
deriving DecidableEq, Repr

/-- The fault cause (R27); codes in 30_encoding.md R64. The codes 9..15 are never written and have no name here. -/
inductive Cause where
  /-- `NONE` (0) -/
  | none
  /-- `ILLEGAL_COMMAND` (1) -/
  | illegalCommand
  /-- `NOT_INITIALIZED` (2) -/
  | notInitialized
  /-- `SEQUENCE` (3) -/
  | sequence
  /-- `READ_AFTER_TERMINAL` (4) -/
  | readAfterTerminal
  /-- `DIGEST_NOT_READY` (5) -/
  | digestNotReady
  /-- `IO_ERROR` (6) -/
  | ioError
  /-- `IO_INTERRUPTED` (7) -/
  | ioInterrupted
  /-- `SOURCE_CONTRACT` (8) -/
  | sourceContract
deriving DecidableEq, Repr

/-- The eight working variables (R17). -/
structure Vars where
  a : Word
  b : Word
  c : Word
  d : Word
  e : Word
  f : Word
  g : Word
  h : Word
deriving DecidableEq, Repr

/-- The command that waits inside `SourceRead` (R33, R26). Log 6. -/
inductive Waiter where
  /-- RDBLK itself -/
  | rdblk
  /-- the RDBLK of a STEP -/
  | step
  /-- the RDBLK of a RUN; `folded`: this RUN has already processed a block -/
  | run (folded : Bool)
deriving DecidableEq, Repr

/-- One answer of the byte source, as the port carries it (30_encoding.md R65). -/
structure Answer where
  /-- `KIND`: 0 `Data`, 1 `Interrupted`, 2 `Error`, 3 reserved -/
  kind : BitVec 2
  /-- `COUNT`: the bytes delivered, used only for `Data` -/
  count : BitVec 7
  /-- `LANE[0..63]`: lanes from `COUNT` upward are ignored -/
  lane : Block
deriving DecidableEq, Repr

/-- What the byte source does next (60_exceptions.md R141, R154). Log 4. -/
inductive SourceEvent where
  /-- it answers the outstanding request -/
  | answer (a : Answer)
  /-- it takes its time: the request stays unanswered for one more step -/
  | delay
  /-- it answers a request made before the last hardware reset: discarded (70 R159). Log 10. -/
  | late (a : Answer)
deriving DecidableEq, Repr

/-- What the host drives onto the command port: so many bits. Only 32 bits are a command word (R56, R156).
Log 9. -/
structure PortInput where
  width : Nat
  bits : BitVec width
deriving DecidableEq, Repr

/-- A move of the host (60_exceptions.md R154). -/
inductive HostMove where
  /-- put an input on the command port, once the port is free (70 R166) -/
  | issue (p : PortInput)
  /-- read the status word (R32) -/
  | readStatus
  /-- assert hardware reset before the core's next action (70 R157, R159) -/
  | reset
  /-- assert hardware reset in the middle of the core's next action (70 R159), at this moment of it: each read request the
  action issues, each answer it takes and each digest it writes is one moment. Log 6. -/
  | resetDuring (moment : Nat)
  /-- read the status word while the core's next action is under way: a command it takes, or one that goes on after its
  wait (70 R167). Log 8. -/
  | readDuring
  /-- let the core and the byte source go on for one step: the host may make its moves at any time (R154). Log 7. -/
  | pause
deriving DecidableEq, Repr

/-- What the ports have shown to the outside: the three things the host can observe (R32). -/
inductive PortEvent where
  /-- the core issued `ReadReq(64)` (R65) -/
  | readRequest
  /-- DIGEST wrote these bytes to the digest port (R66) -/
  | digest (d : Digest)
  /-- the host read this status word (R62) -/
  | status (w : Word)
deriving DecidableEq, Repr

end Sys2Proof.Machine

namespace Sys2Proof.Machine

/-- The state of one core instance. The first eleven fields are R15's table, the twelfth R33's hidden state. -/
structure State where
  /-- `H[0..7]` (R16) -/
  hash : Option HashState
  /-- `a`..`h` (R17) -/
  vars : Option Vars
  /-- `W[0..63]` (R30) -/
  sched : Option Schedule
  /-- `buf[0..63]` (R29) -/
  buf : Option Block
  /-- `bitlen` (R19) -/
  bitlen : Option (BitVec 64)
  /-- `pad` (R20) -/
  pad : PadState
  /-- `drv` (R22) -/
  drv : Driver
  /-- `phase` (R24) -/
  phase : Phase
  /-- `rnd` (R25): 0..64; the values 65..127 of its 7 bits are never held (log 13) -/
  rnd : Fin 65
  /-- `busy` (R26) -/
  busy : Bool
  /-- `cause` (R27) -/
  cause : Cause
  /-- the outstanding read request and the command that waits for its answer (R33); `none`: no request is outstanding -/
  waiting : Option Waiter
  /-- `INTERRUPT_POLICY` of this instance (60 R142): configuration, which no step changes. Log 3. -/
  policy : InterruptPolicy
  /-- the host's input held on the command port, not yet accepted (70 R166) -/
  port : Option PortInput
  /-- the host's moves to come, the next one first. Log 4. -/
  host : List HostMove
  /-- the byte source's answers to come, the next one first. Log 4. -/
  source : List SourceEvent
  /-- what the ports have shown, newest first (R32). Log 16. -/
  trace : List PortEvent
  /-- the model's own record: the raw bytes the byte source delivered since the last INIT (R34 item 6). No rule reads
  it. Log 16. -/
  received : List Byte
  /-- the model's own counter of free values drawn (log 8) -/
  draws : Nat
deriving DecidableEq, Repr

/-- The storage elements that can hold `⊥` (R11). -/
inductive Element where
  | hash
  | vars
  | sched
  | buf
  | bitlen
deriving DecidableEq, Repr

/-- What stops the model with no state of the core (R156). -/
inductive Fault where
  /-- `UnwrittenRead` (R11): raised by any command's operation that reads an element holding `⊥`. Safe: the spec itself
  orders it, and the checks of R136 make it unreachable. Log 2. -/
  | unwrittenRead (e : Element)
deriving DecidableEq, Repr

/-- What the model refuses (R156). -/
inductive Refusal where
  /-- an instruction that has no meaning yet, by its mnemonic. Raised by no arm: every command has its meaning. Safe. -/
  | notModelled (mnemonic : String)
  /-- "A model refuses any command-port input that is not a 32-bit word" (R156): raised when the core takes such an input
  from the port. Safe. Log 9. -/
  | notACommandWord
deriving DecidableEq, Repr

/-- The state after hardware reset (R35, 70 R158). The core waits for a command: no move of the host and no answer is
placed. Logs 1, 3, 4, 5, 8, 16 name every value here that R35 does not give. -/
def State.reset : State where
  hash := none
  vars := none
  sched := none
  buf := none
  bitlen := none
  pad := .notPadded
  drv := .uninit
  phase := .idle
  rnd := 0
  busy := false
  cause := .none
  waiting := none
  policy := Config.interruptPolicy
  port := none
  host := []
  source := []
  trace := []
  received := []
  draws := 0

end Sys2Proof.Machine
end

