-- ==== Sys2Proof/Machine/Flags.lean ====
section
/-! DEFINITION. The core has no condition codes (10_state.md R28). Its flags are the sequencer's and the reader's tags,
encoded in the status word (30_encoding.md R62, R63, R64), which the host reads at any time without side effect (R32). -/

namespace Sys2Proof.Machine

/-- `DRV` (R62). -/
def Driver.code : Driver → BitVec 2
  | .uninit => 0
  | .running => 1
  | .done => 2
  | .failed => 3

/-- `PAD` (R63); 3 is never held. -/
def PadState.code : PadState → BitVec 2
  | .notPadded => 0
  | .terminatorPlaced => 1
  | .lengthWritten => 2

/-- `PHASE` (R62). -/
def Phase.code : Phase → BitVec 2
  | .idle => 0
  | .block => 1
  | .sched => 2
  | .rounds => 3

/-- `CAUSE` (R64); 9..15 are never written. -/
def Cause.code : Cause → BitVec 4
  | .none => 0
  | .illegalCommand => 1
  | .notInitialized => 2
  | .sequence => 3
  | .readAfterTerminal => 4
  | .digestNotReady => 5
  | .ioError => 6
  | .ioInterrupted => 7
  | .sourceContract => 8

/-- The status word's layout (R62): `DRV` [1:0], `PAD` [3:2], `PHASE` [5:4], `RND` [12:6], `BUSY` [13], zero [15:14],
`CAUSE` [19:16], zero [31:20]. -/
def packStatus (drv pad phase : BitVec 2) (rnd : BitVec 7) (busy : Bool) (cause : BitVec 4) : Word :=
  0#12 ++ cause ++ 0#2 ++ BitVec.ofBool busy ++ rnd ++ phase ++ pad ++ drv

/-- The status word of the state as it stands (R62). -/
def State.statusWord (s : State) : Word :=
  packStatus s.drv.code s.pad.code s.phase.code (BitVec.ofNat 7 s.rnd.val) s.busy s.cause.code

/-- One of the values a field held, chosen by the n-th status read; fields are numbered. -/
def pickHeld {α : Type} (n field : Nat) (first : α) (others : List α) : α :=
  (first :: others).getD (Config.heldPick n field % (others.length + 1)) first

/-- The round counts a command holds that compresses a block. -/
def allRounds : List (Fin 65) := List.finRange 65

/-- What a status read shows (R51, R167, I12). With `busy = 0`, the status word. While a command waits, each field shows
a value it held during the command. Up to its first block a command has held one value per field, and they still stand.
A RUN that has folded a block has held every `PHASE` and every `RND`: which is shown is a free value of Config, drawn by
the counter `draws`; `DRV`, `PAD`, `BUSY` and `CAUSE` have not changed since it was accepted. Log 8. -/
def State.shownStatus (s : State) : Word :=
  match s.waiting with
  | some (.run true) =>
    packStatus s.drv.code s.pad.code (pickHeld s.draws 2 0 [1, 2, 3])
      (BitVec.ofNat 7 (pickHeld s.draws 3 (0 : Fin 65) allRounds).val) s.busy s.cause.code
  | _ => s.statusWord

/-- The values `PAD` holds while RDBLK pads from `p` to `q`: "both of these within one RDBLK" (R21). -/
def padsBetween (p q : PadState) : List PadState :=
  if p = .notPadded ∧ q = .lengthWritten then [.terminatorPlaced, q] else [q]

/-- The values `PHASE` holds after `p` in an action that leaves `q`; one that compresses a block passes through the
phases of R24. -/
def phasesBetween (compressed : Bool) (p q : Phase) : List Phase :=
  if compressed then (if p = .sched then [.rounds, .idle] else [.block, .sched, .rounds, .idle]) else [q]

/-- What the n-th status read shows that falls within an action of the core from `s` to `t` (R51, R167): `BUSY` is 1, and
each other field shows a value it held. `compressed`: the action compressed a block. Log 8. -/
def statusDuring (n : Nat) (compressed : Bool) (s t : State) : Word :=
  packStatus (pickHeld n 0 s.drv [t.drv]).code (pickHeld n 1 s.pad (padsBetween s.pad t.pad)).code
    (pickHeld n 2 s.phase (phasesBetween compressed s.phase t.phase)).code
    (BitVec.ofNat 7 (pickHeld n 3 s.rnd (if compressed then allRounds else [t.rnd])).val) true
    (pickHeld n 4 s.cause [t.cause]).code

end Sys2Proof.Machine
end

