-- ==== Sys2Proof/Machine/Datapath.lean ====
section
/-! DEFINITION. The pure word functions of the datapath (40_datapath.md R71..R84). Each reads its operands and nothing
else (R84). Word addition is `BitVec` addition: modulo 2^32, with no flag and no fault (R71). -/

namespace Sys2Proof.Machine

/-- Right rotation by `n`, 1 ≤ n ≤ 31 (R73): `(x >> n) or (x << (32 − n))`. -/
def rotr (n : Nat) (x : Word) : Word := (x >>> n) ||| (x <<< (32 - n))

/-- Logical right shift (R74). -/
def shr (n : Nat) (x : Word) : Word := x >>> n

/-- Ch, the choice function (R75). -/
def ch (x y z : Word) : Word := (x &&& y) ^^^ (~~~x &&& z)

/-- Maj, the majority function (R76). -/
def maj (x y z : Word) : Word := (x &&& y) ^^^ (x &&& z) ^^^ (y &&& z)

/-- Σ0 (R77). -/
def bigSigma0 (x : Word) : Word := rotr 2 x ^^^ rotr 13 x ^^^ rotr 22 x

/-- Σ1 (R78). -/
def bigSigma1 (x : Word) : Word := rotr 6 x ^^^ rotr 11 x ^^^ rotr 25 x

/-- σ0 (R79). -/
def smallSigma0 (x : Word) : Word := rotr 7 x ^^^ rotr 18 x ^^^ shr 3 x

/-- σ1 (R80). -/
def smallSigma1 (x : Word) : Word := rotr 17 x ^^^ rotr 19 x ^^^ shr 10 x

/-- Four bytes as a word, the first the most significant (R83, 00_scope.md R10). -/
def be32 (b0 b1 b2 b3 : Byte) : Word := b0 ++ b1 ++ b2 ++ b3

/-- Byte `k` of a 64-bit value, byte 0 the most significant (R83): `(v >> (56 − 8k)) and 0xFF`. -/
def be64Byte (v : BitVec 64) (k : Nat) : Byte := v.extractLsb' (56 - 8 * k) 8

/-- Byte `k` of a word, byte 0 the most significant: bits `[31−8k : 24−8k]` (20_memory.md R42). -/
def be32Byte (v : Word) (k : Nat) : Byte := v.extractLsb' (24 - 8 * k) 8

/-- The bit-length counter after `n` more raw bytes: `(bitlen + 8·n) mod 2^64` (R72). -/
def addBits (bitlen : BitVec 64) (n : Nat) : BitVec 64 := bitlen + BitVec.ofNat 64 (8 * n)

end Sys2Proof.Machine
end

