-- ==== Sys2Proof/Machine/Operands.lean ====
section
/-! DEFINITION. What a command's inputs are. No command word has an operand (30_encoding.md R57): the inputs are the
core's own state, read through the two mixed-width views of 20_memory.md R44, and the byte source's answer (R65). -/

namespace Sys2Proof.Machine

/-- `word(j)` of a block, big-endian (20_memory.md R40). -/
def blockWord (buf : Block) (j : Fin 16) : Word :=
  be32 buf[4 * j.val] buf[4 * j.val + 1] buf[4 * j.val + 2] buf[4 * j.val + 3]

/-- `buf[56..63] <- be64(bitlen)` (20_memory.md R41, 41 R86); the bytes below 56 stay. -/
def putLength (bitlen : BitVec 64) (buf : Block) : Block :=
  Vector.ofFn fun i => if 56 ≤ i.val then be64Byte bitlen (i.val - 56) else buf[i]

/-- The 32 bytes of the hash state, each word big-endian (20_memory.md R42): `D[4i+k] = H[i][31−8k : 24−8k]`. -/
def digestBytes (hash : HashState) : Digest :=
  Vector.ofFn fun j => be32Byte hash[j.val / 4] (j.val % 4)

/-- What an answer says, once its `KIND` and `COUNT` are read (30_encoding.md R65). -/
inductive Reply where
  /-- `Data(n, bytes)` with 0 ≤ n ≤ 64 -/
  | data (n : Fin 65) (lane : Block)
  /-- `Interrupted` -/
  | interrupted
  /-- `Error` -/
  | error
  /-- it breaks the contract: `KIND = 3`, or `Data` with `COUNT > 64` -/
  | broken
deriving DecidableEq, Repr

/-- Reading an answer (R65). -/
def Answer.reply (a : Answer) : Reply :=
  match a.kind.toNat with
  | 0 => if h : a.count.toNat < 65 then .data ⟨a.count.toNat, h⟩ a.lane else .broken
  | 1 => .interrupted
  | 2 => .error
  | _ => .broken

/-- The raw bytes of a `Data` answer, the earliest first (20_memory.md R39). -/
def rawBytes (n : Fin 65) (lane : Block) : List Byte := lane.toList.take n.val

/-- The command word on the port, where the host drove 32 bits (R56, 60_exceptions.md R156). -/
def PortInput.word? (p : PortInput) : Option Word :=
  if p.width = 32 then some (p.bits.setWidth 32) else none

end Sys2Proof.Machine
end

