-- ==== Sys2Proof/Machine/Ops.lean ====
section
/-! DEFINITION. The operations all commands share: entering a fault and the ways out of one (60_exceptions.md R137, R140),
accepting a command (R136), ending it, and chaining the operations of a composite command (R137, R147). -/

namespace Sys2Proof.Machine

/-! ## Fault entry and the ways out -/

/-- `raise Fault(code)` (R137): `drv <- Failed`, `cause <- code`, `busy <- 0`, and nothing else. There is no vector, no
handler and no saved state (R138, R140). -/
def raiseFault (c : Cause) (s : State) : State := { s with drv := .failed, cause := c, busy := false }

/-- The state INIT leaves (10_state.md R36, 44 R120): one of the two ways out of `Failed` (R140). `received` is the
model's own record and starts again with the computation. -/
def startComputation (s : State) : State :=
  { s with
    hash := some IV, bitlen := some 0, pad := .notPadded, phase := .idle, rnd := 0, cause := .none
    buf := none, sched := none, vars := none, drv := .running, received := [] }

/-- Hardware reset (70 R157, R158, R159), in any state: every piece of the core's state takes its reset value, the
command under way and its request are abandoned without a fault. The instance's configuration, the host's word on the
port, the outer agents' scripts and what the ports have shown stay. Log 11. -/
def hardReset (s : State) : State :=
  { State.reset with
    policy := s.policy, port := s.port, host := s.host, source := s.source, trace := s.trace, draws := s.draws }

/-! ## Ending a command, and composite commands -/

/-- A command completes: `busy <- 0` (R136). -/
def complete (s : State) : State := { s with busy := false }

/-- What one operation of a command leaves. -/
inductive Flow where
  /-- the operation completed; the next one goes on -/
  | ok (s : State)
  /-- the command ends here, in this state: a fault was raised, or the core waits in `SourceRead` -/
  | stop (s : State)
  /-- the operation read `⊥` (R11) -/
  | unwritten (e : Element)
deriving DecidableEq, Repr

/-- One operation after another: the second starts only where the first completed (R137). -/
def Flow.bind (r : Flow) (k : State → Flow) : Flow :=
  match r with
  | .ok s => k s
  | .stop s => .stop s
  | .unwritten e => .unwritten e

/-- The outcome of a whole command. -/
def Flow.outcome : Flow → Host.Outcome State Fault Refusal
  | .ok s => .next (complete s)
  | .stop s => .next s
  | .unwritten e => .fault (.unwrittenRead e)

/-! ## Acceptance -/

/-- What the core does with a command it takes from the port (R136). -/
inductive Acceptance where
  /-- the operation is performed -/
  | perform
  /-- nothing happens: the refusal of `Failed` (R139), or the loop guard of STEP and RUN in `Done` (R122, R124) -/
  | skip
  /-- a legality fault, before any write -/
  | raise (c : Cause)
deriving DecidableEq, Repr

/-- A phase check of R136: `require` it, or raise `SEQUENCE`. -/
def require (ok : Bool) : Acceptance := if ok then .perform else .raise .sequence

/-- The checks for `drv = Running` (R136, table form). -/
def acceptRunning (i : Instr) (s : State) : Acceptance :=
  match i with
  | .init => .perform
  | .rdblk => require (s.phase == .idle)
  | .expand => require (s.phase == .block)
  | .cinit => require (s.phase == .sched)
  | .round => require (s.phase == .rounds && decide (s.rnd.val ≤ 63))
  | .fold => require (s.phase == .rounds && decide (s.rnd.val = 64))
  | .compress => require (s.phase == .sched)
  | .step => require (s.phase == .idle)
  | .run => require (s.phase == .idle)
  | .digest => .raise .digestNotReady

/-- The checks for `drv = Done` (R136). -/
def acceptDone (i : Instr) : Acceptance :=
  match i with
  | .init => .perform
  | .rdblk => .raise .readAfterTerminal
  | .expand => .raise .sequence
  | .cinit => .raise .sequence
  | .round => .raise .sequence
  | .fold => .raise .sequence
  | .compress => .raise .sequence
  | .step => .skip
  | .run => .skip
  | .digest => .perform

/-- Acceptance of a legal command (R136), in the order of R146. An illegal word never gets here (Machine/Command.lean). -/
def acceptance (i : Instr) (s : State) : Acceptance :=
  match s.drv with
  | .failed => if i = .init then .perform else .skip
  | .uninit => if i = .init then .perform else .raise .notInitialized
  | .done => acceptDone i
  | .running => acceptRunning i s

/-- A command taken from the port (R136): `busy <- 1`, the checks, then the operation, the skip or the fault. -/
def commanded (i : Instr) (op : State → Flow) (s : State) : Host.Outcome State Fault Refusal :=
  match acceptance i s with
  | .perform => (op { s with busy := true }).outcome
  | .skip => .next (complete s)
  | .raise c => .next (raiseFault c s)

/-! ## The ports -/

/-- The port shows an event (R32). -/
def note (e : PortEvent) (s : State) : State := { s with trace := e :: s.trace }

/-- `k` read requests were issued, one after the other (R87). -/
def noteRequests (k : Nat) (s : State) : State := { s with trace := List.replicate k .readRequest ++ s.trace }

/-- The host reads the status word: no side effect on the core (R32, R62). The draw counter moves on so that the free
values of two reads are independent (log 8). -/
def readStatus (s : State) : State :=
  { s with trace := .status s.shownStatus :: s.trace, draws := s.draws + 1 }

end Sys2Proof.Machine
end

