-- ==== Sys2Proof/Machine/Compressor.lean ====
section
/-! DEFINITION. The compression engine: CINIT, ROUND, FOLD, COMPRESS (43_compressor.md R105..R113). -/

namespace Sys2Proof.Machine

/-- The working variables from the hash state (R106). -/
def varsOf (hash : HashState) : Vars :=
  { a := hash[0], b := hash[1], c := hash[2], d := hash[3], e := hash[4], f := hash[5], g := hash[6], h := hash[7] }

/-- T1 with the round's constant and schedule word (R105). -/
def temp1 (v : Vars) (k w : Word) : Word := v.h + bigSigma1 v.e + ch v.e v.f v.g + k + w

/-- T2 (R105). -/
def temp2 (v : Vars) : Word := bigSigma0 v.a + maj v.a v.b v.c

/-- One round: all eight variables at once from the old ones (R107). -/
def roundVars (k w : Word) (v : Vars) : Vars :=
  let t1 := temp1 v k w
  let t2 := temp2 v
  { a := t1 + t2, b := v.a, c := v.b, d := v.c, e := v.d + t1, f := v.e, g := v.f, h := v.g }

/-- The fold: each working variable added to its hash word, modulo 2^32 (R111). -/
def foldHash (hash : HashState) (v : Vars) : HashState :=
  #v[hash[0] + v.a, hash[1] + v.b, hash[2] + v.c, hash[3] + v.d,
     hash[4] + v.e, hash[5] + v.f, hash[6] + v.g, hash[7] + v.h]

/-- CINIT's operation (R106). -/
def loadVars (s : State) : Flow :=
  match s.hash with
  | none => .unwritten .hash
  | some hash => .ok { s with vars := some (varsOf hash), rnd := 0, phase := .rounds }

/-- ROUND's operation (R108), with `t = rnd`. With `rnd = 64` there is no round left: "A 65th ROUND, with `rnd = 64`,
raises `SEQUENCE`"; the acceptance check has already raised it there, and COMPRESS never gets there (log 12). -/
def roundStep (s : State) : Flow :=
  if ht : s.rnd.val < 64 then
    match s.vars, s.sched with
    | none, _ => .unwritten .vars
    | some _, none => .unwritten .sched
    | some v, some w =>
      .ok { s with vars := some (roundVars K[s.rnd.val] w[s.rnd.val] v), rnd := ⟨s.rnd.val + 1, by omega⟩ }
  else .stop (raiseFault .sequence s)

/-- FOLD's operation (R111): the only mutation of `H` beside INIT. `W` and `a`..`h` hold `⊥` after it (R112), and the
driver is done where the block was the terminal one. -/
def foldBlock (s : State) : Flow :=
  match s.hash, s.vars with
  | none, _ => .unwritten .hash
  | some _, none => .unwritten .vars
  | some hash, some v =>
    .ok { s with
      hash := some (foldHash hash v), phase := .idle, rnd := 0, sched := none, vars := none
      drv := if s.pad = .lengthWritten then .done else s.drv }

/-- `n` rounds one after the other (R113). -/
def roundSteps : Nat → State → Flow
  | 0, s => .ok s
  | n + 1, s => (roundStep s).bind (roundSteps n)

/-- COMPRESS's operation (R113): CINIT, 64 times ROUND, FOLD. -/
def compressBlock (s : State) : Flow := ((loadVars s).bind (roundSteps 64)).bind foldBlock

/-- CINIT (R106). -/
def execCinit (s : State) : Host.Outcome State Fault Refusal := commanded .cinit loadVars s

/-- ROUND (R108). -/
def execRound (s : State) : Host.Outcome State Fault Refusal := commanded .round roundStep s

/-- FOLD (R111). -/
def execFold (s : State) : Host.Outcome State Fault Refusal := commanded .fold foldBlock s

/-- COMPRESS (R113). -/
def execCompress (s : State) : Host.Outcome State Fault Refusal := commanded .compress compressBlock s

end Sys2Proof.Machine
end

