-- ==== Sys2Proof/Machine/Reader.lean ====
section
/-! DEFINITION. The block reader and its padding state machine: RDBLK (41_block_reader.md R85..R95). -/

namespace Sys2Proof.Machine

/-! ## The block of one chunk -/

/-- The final raw chunk of `n` bytes: the raw bytes, the terminator right after the last of them, zeros to the end
(R90). -/
def terminated (n : Nat) (lane : Block) : Block :=
  Vector.ofFn fun i => if i.val < n then lane[i] else if i.val = n then 0x80 else 0x00

/-- `buf` after a chunk of `n` bytes, `bitlen` already counting it: the 64 raw bytes unchanged (R89), or the terminated
chunk, with the length over its last 8 bytes where at least 8 follow the terminator (R91, R92). -/
def chunkBlock (n : Fin 65) (lane : Block) (bitlen : BitVec 64) : Block :=
  if n.val = 64 then lane
  else if n.val ≤ 55 then putLength bitlen (terminated n.val lane)
  else terminated n.val lane

/-- `pad` after a chunk of `n` bytes (R89, R91, R92). -/
def chunkPad (n : Fin 65) : PadState :=
  if n.val = 64 then .notPadded
  else if n.val ≤ 55 then .lengthWritten
  else .terminatorPlaced

/-- The length-only block (R93). -/
def lengthBlock (bitlen : BitVec 64) : Block := putLength bitlen (Vector.replicate 64 0x00)

/-- An accepted `Data(n, …)` answer: the count, the block, the pad-state, `phase <- BLOCK` (R86, R88, R95). -/
def storeChunk (n : Fin 65) (lane : Block) (s : State) : Flow :=
  match s.bitlen with
  | none => .unwritten .bitlen
  | some bitlen =>
    let bitlen' := addBits bitlen n.val
    .ok { s with
      buf := some (chunkBlock n lane bitlen'), bitlen := some bitlen', pad := chunkPad n, phase := .block
      received := s.received ++ rawBytes n lane }

/-! ## Reading the byte source -/

/-- How `AcceptedRead` ends (R87). -/
inductive ReadEnd where
  /-- a `Data` answer with n ≤ 64 -/
  | data (n : Fin 65) (lane : Block)
  /-- an answer that raises a fault -/
  | raise (c : Cause)
  /-- no answer yet: the core waits -/
  | wait
deriving DecidableEq, Repr

/-- What `AcceptedRead` made of the byte source's script. -/
structure ReadResult where
  /-- how it ended -/
  ending : ReadEnd
  /-- the answers still to come -/
  rest : List SourceEvent
  /-- how many times the request was issued again -/
  retries : Nat
deriving DecidableEq, Repr

/-- One more retry came before the rest. -/
def ReadResult.retried (r : ReadResult) : ReadResult := { r with retries := r.retries + 1 }

/-- `AcceptedRead()` with its request outstanding (R87): an `Interrupted` answer issues the request again under `Retry`
and changes nothing else; a late answer to a request made before a reset is discarded (70 R159). -/
def acceptedRead (policy : InterruptPolicy) : List SourceEvent → ReadResult
  | [] => { ending := .wait, rest := [], retries := 0 }
  | .delay :: rest => { ending := .wait, rest := rest, retries := 0 }
  | .late _ :: rest => acceptedRead policy rest
  | .answer a :: rest =>
    match a.reply with
    | .data n lane => { ending := .data n lane, rest := rest, retries := 0 }
    | .broken => { ending := .raise .sourceContract, rest := rest, retries := 0 }
    | .error => { ending := .raise .ioError, rest := rest, retries := 0 }
    | .interrupted =>
      match policy with
      | .retry => (acceptedRead policy rest).retried
      | .abort => { ending := .raise .ioInterrupted, rest := rest, retries := 0 }

/-- The outstanding request meets the byte source: the chunk is stored, or the fault of the answer is raised with `buf`,
`bitlen`, `pad` and `phase` as they were (R87), or the core goes on waiting with `busy = 1` (10_state.md R26, R33). -/
def receive (who : Waiter) (s : State) : Flow :=
  let r := acceptedRead s.policy s.source
  let s' := noteRequests r.retries { s with source := r.rest }
  match r.ending with
  | .data n lane => storeChunk n lane { s' with waiting := none }
  | .raise c => .stop (raiseFault c { s' with waiting := none })
  | .wait => .stop { s' with waiting := some who }

/-- RDBLK's algorithm (R86) on behalf of a command. With the terminator placed no request is made (R93). The third case
"cannot reach here"; it is what the algorithm's text does there (log 12). -/
def readBlock (who : Waiter) (s : State) : Flow :=
  match s.pad with
  | .notPadded => receive who (note .readRequest s)
  | .terminatorPlaced =>
    match s.bitlen with
    | none => .unwritten .bitlen
    | some bitlen => .ok { s with buf := some (lengthBlock bitlen), pad := .lengthWritten, phase := .block }
  | .lengthWritten => .ok { s with phase := .block }

/-- RDBLK (R85). -/
def execRdblk (s : State) : Host.Outcome State Fault Refusal := commanded .rdblk (readBlock .rdblk) s

end Sys2Proof.Machine
end

