-- ==== Sys2Proof/Machine/Scheduler.lean ====
section
/-! DEFINITION. The message scheduler: EXPAND (42_scheduler.md R100..R103). -/

namespace Sys2Proof.Machine

/-- `W[0..15]`, the block's words (R101); the places above are written by `expandSchedule`. -/
def firstWords (buf : Block) : Schedule :=
  Vector.ofFn fun t => if h : t.val < 16 then blockWord buf ⟨t.val, h⟩ else 0

/-- `W[16..63]` in increasing order, each from words already written (R102). Step `t` writes `W[t+16]`. -/
def expandSchedule (buf : Block) : Schedule :=
  Nat.fold 48
    (fun t _ w => w.set (t + 16) (smallSigma1 w[t + 14] + w[t + 9] + smallSigma0 w[t + 1] + w[t]))
    (firstWords buf)

/-- EXPAND's operation (R100): `W` from `buf`, `phase <- SCHED` (R103). -/
def expandBlock (s : State) : Flow :=
  match s.buf with
  | none => .unwritten .buf
  | some buf => .ok { s with sched := some (expandSchedule buf), phase := .sched }

/-- EXPAND (R100). -/
def execExpand (s : State) : Host.Outcome State Fault Refusal := commanded .expand expandBlock s

end Sys2Proof.Machine
end

