-- ==== Sys2Proof/Machine/Driver.lean ====
section
/-! DEFINITION. The driver sequencer: INIT, STEP, RUN, DIGEST (44_driver.md R120..R126), and how a command that waits in
`SourceRead` goes on when the answer comes (10_state.md R26, R33). -/

namespace Sys2Proof.Machine

/-- What follows RDBLK in one driver iteration: EXPAND, COMPRESS (R122). -/
def processBlock (s : State) : Flow := (expandBlock s).bind compressBlock

/-- One driver iteration in `Running` (R122): RDBLK, EXPAND, COMPRESS. -/
def driverStep (who : Waiter) (s : State) : Flow := (readBlock who s).bind processBlock

/-- `while drv == Running: STEP` (R124), for at most `n` STEPs. `folded`: this RUN has processed a block. -/
def runLoop : Nat → Bool → State → Flow
  | 0, _, s => .ok s
  | n + 1, folded, s =>
    if s.drv = .running then (driverStep (.run folded) s).bind (runLoop n true) else .ok s

/-- More STEPs than RUN can take from here: every STEP but the last two takes at least one entry of the byte source's
script (log 15). -/
def runBound (s : State) : Nat := s.source.length + 2

/-- RUN's loop from here to its end, a fault or a wait. -/
def runToEnd (folded : Bool) (s : State) : Flow := runLoop (runBound s) folded s

/-- INIT's operation (R120). -/
def initBlock (s : State) : Flow := .ok (startComputation s)

/-- DIGEST's operation (R126): it writes the digest port and nothing else. -/
def digestWrite (s : State) : Flow :=
  match s.hash with
  | none => .unwritten .hash
  | some hash => .ok (note (.digest (digestBytes hash)) s)

/-- A waiting command goes on (R87, R122, R124): its request meets the byte source again, and on an accepted answer the
rest of the command follows. -/
def resume (who : Waiter) (s : State) : Flow :=
  match who with
  | .rdblk => receive .rdblk s
  | .step => (receive .step s).bind processBlock
  | .run folded => ((receive (.run folded) s).bind processBlock).bind (runToEnd true)

/-- INIT (R120). -/
def execInit (s : State) : Host.Outcome State Fault Refusal := commanded .init initBlock s

/-- STEP (R122). In `Done` the acceptance skips it: "the loop guard is false". -/
def execStep (s : State) : Host.Outcome State Fault Refusal := commanded .step (driverStep .step) s

/-- RUN (R124). -/
def execRun (s : State) : Host.Outcome State Fault Refusal := commanded .run (runToEnd false) s

/-- DIGEST (R126). -/
def execDigest (s : State) : Host.Outcome State Fault Refusal := commanded .digest digestWrite s

end Sys2Proof.Machine
end

