-- ==== Sys2Proof/Machine/Dispatch.lean ====
section
/-! DEFINITION. One arm per command (30_encoding.md R59): each calls its own meaning. -/

namespace Sys2Proof.Machine

def exec (i : Instr) (s : State) : Host.Outcome State Fault Refusal :=
  match i with
  | .init => Sys2Proof.Machine.execInit s
  | .rdblk => Sys2Proof.Machine.execRdblk s
  | .expand => Sys2Proof.Machine.execExpand s
  | .cinit => Sys2Proof.Machine.execCinit s
  | .round => Sys2Proof.Machine.execRound s
  | .fold => Sys2Proof.Machine.execFold s
  | .compress => Sys2Proof.Machine.execCompress s
  | .step => Sys2Proof.Machine.execStep s
  | .run => Sys2Proof.Machine.execRun s
  | .digest => Sys2Proof.Machine.execDigest s

end Sys2Proof.Machine
end

