-- ==== Sys2Proof/Machine/Command.lean ====
section
/-! DEFINITION. One step of the system: the core takes a command from its port, or the host moves, or a waiting command
goes on, or nothing is there to do (60_exceptions.md R136, R150, R154; 70 R166). Step.lean only calls it. -/

namespace Sys2Proof.Machine

/-- A word no command has (30_encoding.md R58, R60): `ILLEGAL_COMMAND`, checked before everything but the refusal of
`Failed` (60 R136, R139, R146). -/
def illegalWord (s : State) : State :=
  if s.drv = .failed then complete s else raiseFault .illegalCommand s

/-- The core accepts an input from the command port (60 R136, R156). -/
def acceptInput (p : PortInput) (s : State) : Host.Outcome State Fault Refusal :=
  match p.word? with
  | none => .refused .notACommandWord
  | some w =>
    match decode w with
    | .ok i => exec i s
    | .error _ => .next (illegalWord s)

/-- What the core does next: with `busy = 0` it takes the held input (60 R136, 70 R166); a command that waits goes on; else
it waits for a command, the same state again (70 R158). -/
def coreTurn (s : State) : Host.Outcome State Fault Refusal :=
  match s.busy, s.port, s.waiting with
  | false, some p, _ => acceptInput p { s with port := none }
  | true, _, some who => (resume who s).outcome
  | _, _, _ => .next s

/-! ## The host in the middle of an action -/

/-- What the host does while the core's next action is under way, and its moves after that. -/
structure During where
  /-- how many status reads -/
  reads : Nat
  /-- the moment of a hardware reset, after the reads -/
  reset : Option Nat
  /-- the moves to come -/
  rest : List HostMove
deriving DecidableEq, Repr

/-- The host's moves that fall within the core's next action. -/
def duringAction : List HostMove → During
  | [] => ⟨0, none, []⟩
  | .readDuring :: rest =>
    { reads := (duringAction rest).reads + 1, reset := (duringAction rest).reset, rest := (duringAction rest).rest }
  | .resetDuring m :: rest => ⟨0, some m, rest⟩
  | .issue p :: rest => ⟨0, none, .issue p :: rest⟩
  | .readStatus :: rest => ⟨0, none, .readStatus :: rest⟩
  | .reset :: rest => ⟨0, none, .reset :: rest⟩
  | .pause :: rest => ⟨0, none, .pause :: rest⟩

/-- Whether a command that led from `s` to `t` compressed a block: COMPRESS in its phase, a STEP that ended without a
fault, a RUN that reached `Done` or took a chunk. -/
def compressedBlock (i : Instr) (s t : State) : Bool :=
  match i with
  | .compress => decide (s.drv = .running ∧ s.phase = .sched)
  | .step => decide (s.drv = .running ∧ t.busy = false ∧ t.drv ≠ .failed)
  | .run => decide (s.drv = .running ∧ (t.drv = .done ∨ t.received.length ≠ s.received.length))
  | .init => false
  | .rdblk => false
  | .expand => false
  | .cinit => false
  | .round => false
  | .fold => false
  | .digest => false

/-- Whether the core's action from `s` to `t` compressed a block, or goes on a RUN that has. -/
def actionCompressed (s t : State) : Bool :=
  match s.busy, s.port, s.waiting with
  | false, some p, _ =>
    match p.word?.map decode with
    | some (.ok i) => compressedBlock i s t
    | some (.error _) => false
    | none => false
  | true, _, some .rdblk => false
  | true, _, some .step => compressedBlock .step s t
  | true, _, some (.run folded) => folded || compressedBlock .run s t
  | _, _, _ => false

/-- The words that `k` status reads show in an action that held values from `s` to `t` (R51, R167), the newest first; each
draws its own free values. Log 8. -/
def wordsDuring (k : Nat) (s t : State) : List Word :=
  (List.range k).reverse.map fun i => statusDuring (t.draws + i) (actionCompressed s t) s t

/-- The port has shown these status words. -/
def showWords (words : List Word) (s : State) : State :=
  { s with trace := words.map .status ++ s.trace, draws := s.draws + words.length }

/-! ## Hardware reset in the middle of an action -/

/-- The script after its first `n` answers. -/
def dropAnswers : List SourceEvent → Nat → List SourceEvent
  | [], _ => []
  | e :: rest, 0 => e :: rest
  | .answer _ :: rest, n + 1 => dropAnswers rest n
  | .delay :: rest, n + 1 => dropAnswers rest (n + 1)
  | .late _ :: rest, n + 1 => dropAnswers rest (n + 1)

/-- How many answers a script holds. -/
def answerCount (l : List SourceEvent) : Nat :=
  l.countP fun
    | .answer _ => true
    | .delay => false
    | .late _ => false

/-- The script up to its first `n` answers. -/
def takeAnswers (l : List SourceEvent) (n : Nat) : List SourceEvent := l.take (l.length - (dropAnswers l n).length)

/-- How many of its requests are outstanding when an action starts from `s` (10 R33). -/
def outstanding (s : State) : Nat := if s.waiting.isSome then 1 else 0

/-- How many answers the action from `s` to `t` has taken at moment `m`. Requests and answers come in turn (10 R33), the
first of them a request, or the answer where the action goes on after a wait. -/
def answersTaken (m : Nat) (s t : State) : Nat :=
  min ((m + outstanding s) / 2) (answerCount s.source - answerCount t.source)

/-- How many requests, or digests, it has shown at moment `m`. -/
def eventsShown (m : Nat) (s : State) : Nat := (m + outstanding s + 1) / 2 - outstanding s

/-- Hardware reset at moment `m` of the action that would lead from `s` to `t` (70 R159): the command is abandoned, the
core takes its reset values, and outside it stands what the action had done by then; what comes after the action's own
end is cut off. Log 6. -/
def abandonAt (m : Nat) (s t : State) : State :=
  hardReset { t with
    source := dropAnswers s.source (answersTaken m s t)
    trace := t.trace.drop (t.trace.length - s.trace.length - eventsShown m s) }

/-- The action's end, or the reset that cut it short. -/
def cutShort (reset : Option Nat) (s t : State) : State :=
  match reset with
  | none => t
  | some m => abandonAt m s t

/-- An abandoned command raises no fault (70 R159): where the action from `s` would end in one, it is still under way. -/
def beforeFault (s t : State) : State :=
  if t.drv = .failed then { t with drv := s.drv, cause := s.cause, busy := true } else t

/-- The last state of the action from `s` to `t` that a status read within it may show (R51). Where a reset cuts it short,
that is the state it reaches with the answers taken by then, right before its next request or answer. Log 6. -/
def lastHeld (reset : Option Nat) (s t : State) : State :=
  match reset with
  | none => t
  | some m =>
    match coreTurn { s with host := [], source := takeAnswers s.source (answersTaken m s t) } with
    | .next u => beforeFault s u
    | .fault _ => s
    | .refused _ => s

/-- The core's action, with the host's status reads and its reset in the middle of it. -/
def interleaved (s : State) : Host.Outcome State Fault Refusal :=
  match coreTurn { s with host := (duringAction s.host).rest } with
  | .next t =>
    let d := duringAction s.host
    .next (showWords (wordsDuring d.reads s (lastHeld d.reset s t)) (cutShort d.reset s t))
  | .fault f => .fault f
  | .refused q => .refused q

/-- The core has something to do: an input to take, or a command that waits to go on. -/
def State.active (s : State) : Bool := if s.busy then s.waiting.isSome else s.port.isSome

/-! ## The step -/

/-- One step (60 R154; 70 R157, R159, R166). A status read and a hardware reset are possible at any time, and a word where
the port is free: the host moves first wherever it can. A pause lets the core act, and so does a host that can do nothing.
In the middle of nothing a read and a reset are plain ones. Log 7. -/
def cycle (s : State) : Host.Outcome State Fault Refusal :=
  match s.host with
  | .reset :: rest => .next (hardReset { s with host := rest })
  | .readStatus :: rest => .next (readStatus { s with host := rest })
  | .issue p :: rest =>
    match s.port with
    | none => .next { s with port := some p, host := rest }
    | some _ => coreTurn s
  | .pause :: rest => coreTurn { s with host := rest }
  | .readDuring :: rest => if s.active then interleaved s else .next (readStatus { s with host := rest })
  | .resetDuring _ :: rest => if s.active then interleaved s else .next (hardReset { s with host := rest })
  | [] => coreTurn s

/-- What the port holds when the host put `nbits` bits of a word there, every bit above them 0; more than 32 bits are no
command word. -/
def portInputOf (nbits w : Nat) : PortInput :=
  if nbits ≤ 32 then { width := 32, bits := BitVec.ofNat 32 (w % 2 ^ nbits) }
  else { width := nbits, bits := BitVec.ofNat nbits w }

end Sys2Proof.Machine
end

