-- ==== Sys2Proof/Machine/Step.lean ====
section
/-! DEFINITION. The step function, and how a command word is placed where the next step takes it. -/

namespace Sys2Proof.Machine

/-- One step of the system (Machine/Command.lean). -/
def step (s : State) : Host.Outcome State Fault Refusal := cycle s

/-- The state with a command word on the command port, where the core takes it in the very next step: the core is not
busy, no command waits, and the host pauses for that step. Log 5 says how words come to the port otherwise. -/
def State.withFetchWord (s : State) (nbits w : Nat) : State :=
  { s with port := some (portInputOf nbits w), host := .pause :: s.host, busy := false, waiting := none }

end Sys2Proof.Machine
end

