-- ==== Sys2Proof/Machine/HostText.lean ====
section
/-! DEFINITION. Text beside the machine: the assembler of command programs (30_encoding.md R67, R68), the listing form
(R69), and the host's rendering of a digest (44_driver.md R127, "outside the core and stated so that the test vectors can
be read"). Text is a list of characters. Log 14. -/

namespace Sys2Proof.Machine

/-- Why the assembler refuses a line (R67, R68). -/
inductive AsmError where
  /-- no mnemonic of R59 and no pseudo-instruction of R68 -/
  | unknownMnemonic
  /-- "No command takes an operand, and a line with an operand is refused" -/
  | operandGiven
  /-- `ROUNDS` without a decimal number -/
  | roundsOperand
  /-- `ROUNDS n` with n outside 1..64 -/
  | roundsRange
deriving DecidableEq, Repr

/-- The mnemonics (R59). -/
def mnemonicInstr (m : List Char) : Option Instr :=
  if m = ['I', 'N', 'I', 'T'] then some .init
  else if m = ['R', 'D', 'B', 'L', 'K'] then some .rdblk
  else if m = ['E', 'X', 'P', 'A', 'N', 'D'] then some .expand
  else if m = ['C', 'I', 'N', 'I', 'T'] then some .cinit
  else if m = ['R', 'O', 'U', 'N', 'D'] then some .round
  else if m = ['F', 'O', 'L', 'D'] then some .fold
  else if m = ['C', 'O', 'M', 'P', 'R', 'E', 'S', 'S'] then some .compress
  else if m = ['S', 'T', 'E', 'P'] then some .step
  else if m = ['R', 'U', 'N'] then some .run
  else if m = ['D', 'I', 'G', 'E', 'S', 'T'] then some .digest
  else none

/-- The mnemonic of a command, upper case (R59). -/
def instrMnemonic : Instr → List Char
  | .init => ['I', 'N', 'I', 'T']
  | .rdblk => ['R', 'D', 'B', 'L', 'K']
  | .expand => ['E', 'X', 'P', 'A', 'N', 'D']
  | .cinit => ['C', 'I', 'N', 'I', 'T']
  | .round => ['R', 'O', 'U', 'N', 'D']
  | .fold => ['F', 'O', 'L', 'D']
  | .compress => ['C', 'O', 'M', 'P', 'R', 'E', 'S', 'S']
  | .step => ['S', 'T', 'E', 'P']
  | .run => ['R', 'U', 'N']
  | .digest => ['D', 'I', 'G', 'E', 'S', 'T']

/-- Upper case of a lower-case letter: mnemonics are "in upper or lower case" (R67). -/
def upper (c : Char) : Char :=
  if 97 ≤ c.toNat ∧ c.toNat ≤ 122 then Char.ofNat (c.toNat - 32) else c

/-- Space, tab or carriage return: it parts words and means nothing else. -/
def isBlank (c : Char) : Bool := c == ' ' || c == '\t' || c == '\r'

/-- The words of a line, read from its right end: the word begun and the words complete. -/
def wordsStep (c : Char) (r : List Char × List (List Char)) : List Char × List (List Char) :=
  if isBlank c then ([], if r.1 = [] then r.2 else r.1 :: r.2) else (c :: r.1, r.2)

/-- The words of a line up to its comment (R67). -/
def lineWords (line : List Char) : List (List Char) :=
  let r := (line.takeWhile (· != ';')).foldr wordsStep ([], [])
  if r.1 = [] then r.2 else r.1 :: r.2

/-- A decimal number. -/
def decimal (ds : List Char) : Option Nat :=
  if ds ≠ [] ∧ ds.all (fun c => decide (48 ≤ c.toNat ∧ c.toNat ≤ 57)) then
    some (ds.foldl (fun n c => 10 * n + (c.toNat - 48)) 0)
  else none

/-- The pseudo-instruction `ROUNDS` (R68). -/
def roundsMnemonic : List Char := ['R', 'O', 'U', 'N', 'D', 'S']

/-- The pseudo-instruction `BLOCK` (R68). -/
def blockMnemonic : List Char := ['B', 'L', 'O', 'C', 'K']

/-- One line of a program (R67, R68). A line that holds only a comment is taken as a blank line: R67 leaves it open, and it
is the model's choice (log 14). -/
def parseLine (line : List Char) : Except AsmError AsmLine :=
  match lineWords line with
  | [] => .ok .blank
  | m :: operands =>
    let m := m.map upper
    if m = roundsMnemonic then
      match operands with
      | [ds] =>
        match decimal ds with
        | some n => if (AsmLine.rounds n).wellFormed then .ok (.rounds n) else .error .roundsRange
        | none => .error .roundsOperand
      | _ => .error .roundsOperand
    else if m = blockMnemonic then (if operands = [] then .ok .block else .error .operandGiven)
    else
      match mnemonicInstr m with
      | some i => if operands = [] then .ok (.instr i) else .error .operandGiven
      | none => .error .unknownMnemonic

/-- The commands of a line (R68). -/
def lineCommands : AsmLine → List Instr
  | .blank => []
  | .instr i => [i]
  | .rounds n => List.replicate n .round
  | .block => [.rdblk, .expand, .compress]

/-- The commands of a program's lines, or why the first bad line is refused. -/
def assembleLines : List (List Char) → Except AsmError (List Instr)
  | [] => .ok []
  | line :: rest =>
    match parseLine line with
    | .error e => .error e
    | .ok l =>
      match assembleLines rest with
      | .error e => .error e
      | .ok is => .ok (lineCommands l ++ is)

/-- The lines of a text, read from its end: the line begun and the lines complete. -/
def linesStep (c : Char) (r : List Char × List (List Char)) : List Char × List (List Char) :=
  if c = '\n' then ([], r.1 :: r.2) else (c :: r.1, r.2)

/-- The words of a program's text, one command word per command, in program order (R67, R69). -/
def assemble (text : List Char) : Except AsmError (List Word) :=
  let r := text.foldr linesStep ([], [])
  match assembleLines (r.1 :: r.2) with
  | .error e => .error e
  | .ok is => .ok (is.map encode)

/-- One hexadecimal digit; letters start at `letterA`. -/
def hexDigit (letterA : Nat) (n : Nat) : Char :=
  if n < 10 then Char.ofNat (48 + n) else Char.ofNat (letterA + (n - 10))

/-- A word in the listing form: `0x` and 8 digits (R69), upper case as the listings of 95_test_vectors.md have them. -/
def listingWord (w : Word) : List Char :=
  '0' :: 'x' :: (List.range 8).map fun k => hexDigit 65 (w.extractLsb' (28 - 4 * k) 4).toNat

/-- The host's rendering of a digest (R127): 64 lower-case hexadecimal characters, each byte's high nibble first, and one
newline. -/
def renderDigest (d : Digest) : List Char :=
  d.toList.flatMap (fun b => [hexDigit 97 (b.toNat / 16), hexDigit 97 (b.toNat % 16)]) ++ ['\n']

end Sys2Proof.Machine
end

