-- ==== Sys2Proof/Safety.lean ====
section
/-! DEFINITION. The terms claims are stated in: the invariant of 10_state.md R34, when a run has ended and with what
result (60_exceptions.md R155), what stream a byte source's script delivers (60 R141), and SHA-256 of a byte string as a
function on bytes (padding by its closed form, not by the reader's states), which the machine's digest is compared with
(44_driver.md R125). -/

namespace Sys2Proof.Machine

/-! ## Readiness and the end of a run -/

/-- The core can accept a command: `busy = 0` and no request is outstanding (R26, R33). -/
def State.Ready (s : State) : Prop := s.busy = false ∧ s.waiting = none

/-- The host can do nothing but wait: it has no move to make, or a word for a port that is not free (70 R166). The core
acts in the next step. -/
def State.HostWaits (s : State) : Prop :=
  s.host = [] ∨ ∃ p rest, s.host = .issue p :: rest ∧ s.port.isSome = true

/-- The whole state but what the outer agents and the ports hold: the core's own state. -/
def State.SameCore (s t : State) : Prop :=
  s.hash = t.hash ∧ s.vars = t.vars ∧ s.sched = t.sched ∧ s.buf = t.buf ∧ s.bitlen = t.bitlen ∧ s.pad = t.pad ∧
  s.drv = t.drv ∧ s.phase = t.phase ∧ s.rnd = t.rnd ∧ s.busy = t.busy ∧ s.cause = t.cause ∧ s.waiting = t.waiting

/-- A run "is one computation, from INIT to the first state with `busy = 0` and `drv ∈ {Done, Failed}`" (60 R155). -/
def State.Ended (s : State) : Prop := s.busy = false ∧ (s.drv = .done ∨ s.drv = .failed)

/-- The result of a run that has ended (60 R155): the digest in `Done`, the cause code in `Failed`. -/
inductive RunResult where
  | digest (d : Digest)
  | failed (c : Cause)
deriving DecidableEq, Repr

/-- What a run that ended in this state has as its result (60 R155); none where it has not ended. -/
def State.result (s : State) : Option RunResult :=
  if s.busy then none
  else match s.drv with
    | .done => s.hash.map fun h => .digest (digestBytes h)
    | .failed => some (.failed s.cause)
    | .uninit => none
    | .running => none

/-- How many read requests the ports have shown (R32). -/
def State.requests (s : State) : Nat := s.trace.count .readRequest

/-- The digest port's content: the newest digest written (30_encoding.md R66). -/
def State.digestPort (s : State) : Option Digest :=
  s.trace.findSome? fun
    | .digest d => some d
    | .readRequest => none
    | .status _ => none

/-- Commands one after the other, each accepted when the one before it has completed (R50), up to the first stop: the
command programs of 44_driver.md R128. -/
def execAll : List Instr → State → Host.Outcome State Fault Refusal
  | [], s => .next s
  | i :: rest, s =>
    match exec i s with
    | .next t => execAll rest t
    | .fault f => .fault f
    | .refused q => .refused q

/-! ## The invariant -/

/-- R34, items 1 to 6 and 8, with the facts about `⊥` that make `UnwrittenRead` unreachable (60 R156): which elements
hold a value in which phase (20_memory.md R55), and what a waiting command means (R26, R33). -/
structure State.Inv (s : State) : Prop where
  /-- item 1 -/
  done_terminal : s.drv = .done → s.pad = .lengthWritten ∧ s.phase = .idle
  /-- item 2 -/
  idle_not_terminal : s.drv = .running → s.phase = .idle → s.pad ≠ .lengthWritten
  /-- item 3 (`rnd ≤ 64` is the field's type) -/
  rnd_in_rounds : s.rnd.val ≠ 0 → s.phase = .rounds
  /-- item 4, with the rest of R35 -/
  uninit_clear : s.drv = .uninit → s.phase = .idle ∧ s.rnd.val = 0 ∧ s.cause = .none ∧ s.pad = .notPadded
  /-- item 5 -/
  cause_iff_failed : s.cause ≠ .none ↔ s.drv = .failed
  /-- item 6: `bitlen = (8 × R) mod 2^64` -/
  bitlen_counts : s.drv = .running ∨ s.drv = .done → s.bitlen = some (BitVec.ofNat 64 (8 * s.received.length))
  /-- INIT wrote `H` (R16) -/
  hash_holds : s.drv = .running ∨ s.drv = .done → s.hash.isSome
  /-- `buf` holds the block EXPAND will read (R24, R95) -/
  buf_holds : s.drv = .running → s.phase = .block → s.buf.isSome
  /-- `W` holds a value from EXPAND until FOLD (20_memory.md R55) -/
  sched_holds : s.drv = .running → (s.phase = .sched ∨ s.phase = .rounds) → s.sched.isSome
  /-- `a`..`h` hold values from CINIT until FOLD (20_memory.md R55) -/
  vars_hold : s.drv = .running → s.phase = .rounds → s.vars.isSome
  /-- item 8: between steps `busy` is 1 only while a command waits in `SourceRead` (R26) -/
  busy_iff_waiting : s.busy = true ↔ s.waiting.isSome
  /-- a waiting command is RDBLK's read with nothing written yet (R33, R86) -/
  waiting_reads : s.waiting.isSome → s.drv = .running ∧ s.phase = .idle ∧ s.pad = .notPadded

/-! ## The byte source's duty -/

/-- A `Data` answer that carries these bytes, 64 at most (30_encoding.md R65). -/
def dataAnswer (bytes : List Byte) : Answer where
  kind := 0
  count := BitVec.ofNat 7 bytes.length
  lane := Vector.ofFn fun i => bytes.getD i.val 0

/-- The answers of a byte source that does its duty for this stream (60 R141): 64 bytes while at least 64 remain, then
the rest, which is fewer than 64. -/
def answersOf (msg : List Byte) : List SourceEvent :=
  (List.range (msg.length / 64 + 1)).map fun i => .answer (dataAnswer ((msg.drop (64 * i)).take 64))

/-- The bytes that one computation takes from a script, up to its short answer, and the script after it: nothing where
the script ends or faults before that. `Interrupted` answers are retried under `Retry` (41 R87). Where `waits` is
false a delay ends it too. -/
def streamOf (waits : Bool) (policy : InterruptPolicy) : List SourceEvent → Option (List Byte × List SourceEvent)
  | [] => none
  | .delay :: rest => if waits then streamOf waits policy rest else none
  | .late _ :: rest => streamOf waits policy rest
  | .answer a :: rest =>
    match a.reply with
    | .data n lane =>
      if n.val = 64 then (streamOf waits policy rest).map fun r => (rawBytes n lane ++ r.1, r.2)
      else some (rawBytes n lane, rest)
    | .interrupted =>
      match policy with
      | .retry => streamOf waits policy rest
      | .abort => none
    | .error => none
    | .broken => none

/-! ## SHA-256 of a byte string -/

/-- The padding of a message of `len` bytes (00_scope.md R13): the terminator, zero bytes, and the 64-bit big-endian bit
length, so that the whole is a multiple of 64 bytes. -/
def padding (len : Nat) : List Byte :=
  0x80 :: (List.replicate ((119 - len % 64) % 64) 0x00 ++
    (List.range 8).map (be64Byte (BitVec.ofNat 64 (8 * len))))

/-- Block `i` of a padded message. -/
def blockAt (padded : List Byte) (i : Nat) : Block := Vector.ofFn fun j => padded.getD (64 * i + j.val) 0

/-- The blocks of a message (41_block_reader.md R96). -/
def paddedBlocks (msg : List Byte) : List Block :=
  let padded := msg ++ padding msg.length
  (List.range (padded.length / 64)).map (blockAt padded)

/-- `n` rounds on a schedule, from round 0 (43_compressor.md R107, R110). -/
def roundsFrom (w : Schedule) (v : Vars) : Nat → Vars
  | 0 => v
  | t + 1 => roundVars (K.getD t 0) (w.getD t 0) (roundsFrom w v t)

/-- The hash state after one block (43_compressor.md R113). -/
def hashSchedule (h : HashState) (w : Schedule) : HashState := foldHash h (roundsFrom w (varsOf h) 64)

/-- The hash state after one block of bytes. -/
def hashBlock (h : HashState) (b : Block) : HashState := hashSchedule h (expandSchedule b)

/-- SHA-256 of a byte string: its padded blocks hashed one after the other from the initial vector. -/
def sha256 (msg : List Byte) : HashState := (paddedBlocks msg).foldl hashBlock IV

end Sys2Proof.Machine
end

