-- ==== Sys2Proof/Certificates/Slice0/Obligations.lean ====
section
/-! DEFINITION. The statements for the provers. Each docstring names the rule of spec/ it formalises, or says what is the
model's own choice and which log entry names it. A command's meaning is `exec`; the core accepts a command only while
`busy = 0` (60 R136), and `s.busy = false` or `s.Ready` says so. Where a statement gives `exec i s = .next { s with … }`,
that equality is also the command's frame: every field not named is unchanged. -/

open Sys2Proof Sys2Proof.Machine

/-! ## Encoding and decoding -/

/-- 30 R56, R59: a word decodes to a command exactly when it is that command's one word; so decoding an encoded command
gives it back, no two commands share a word, and no other word is any command. -/
def Obligations.DecodesToACommandExactlyItsEncoding : Prop :=
  ∀ (w : Word) (i : Instr), decode w = .ok i ↔ w = encode i

/-- 30 R58: decoding is total; a word is a legal command iff `RSV = 0` and `OP` is one of the ten values; the core raises
`ILLEGAL_COMMAND` on any other word it accepts, but in `Failed`, where nothing changes (60 R136). The core acts where the
host waits or pauses (log 7); what the host does in the middle of the action has statements of its own. -/
def Obligations.LegalWordIffReservedZeroAndOpcodeAssigned : Prop :=
  ∀ w : Word,
    ((∃ i, decode w = .ok i) ↔
      w.extractLsb' 8 24 = 0 ∧ 1 ≤ (w.extractLsb' 0 8).toNat ∧ (w.extractLsb' 0 8).toNat ≤ 10) ∧
    ∀ s : State, s.busy = false → s.port = some ⟨32, w⟩ → (¬ ∃ i, decode w = .ok i) →
      let t := if s.drv = .failed then { s with port := none }
        else { s with port := none, drv := .failed, cause := .illegalCommand }
      (s.HostWaits → step s = .next t) ∧ step { s with host := .pause :: s.host } = .next t

/-- 30 R59: the opcode map, word by word, with its reserved rows whole (R60). -/
def Obligations.OpcodeMapReadsTheTenWords : Prop :=
  decode 0x00000001 = .ok .init ∧ decode 0x00000002 = .ok .rdblk ∧ decode 0x00000003 = .ok .expand ∧
  decode 0x00000004 = .ok .cinit ∧ decode 0x00000005 = .ok .round ∧ decode 0x00000006 = .ok .fold ∧
  decode 0x00000007 = .ok .compress ∧ decode 0x00000008 = .ok .step ∧ decode 0x00000009 = .ok .run ∧
  decode 0x0000000A = .ok .digest ∧ decode 0x00000000 = .error .opcodeZero ∧
  (∀ op : BitVec 8, 0x0B ≤ op → decode (0#24 ++ op) = .error .opcodeReserved) ∧
  (∀ (op : BitVec 8) (rsv : BitVec 24), rsv ≠ 0 → decode (rsv ++ op) = .error .reservedBits)

/-- 30 R67, R68, R69: the mnemonics, the two pseudo-instructions and their expansions; every word the assembler gives is a
legal command's; a program that assembles is its lines' commands in order. How the operand of `ROUNDS` is written, a
decimal number that may have leading zeros, is the model's own choice (log 14): that clause takes every text that `decimal`
reads. The listing of a word is `0x` and 8 hexadecimal digits, the most significant first; that they are upper case is the
model's own choice too (log 14). -/
def Obligations.AssembledWordsAreTheLinesCommands : Prop :=
  (∀ m ∈ [("INIT", Instr.init), ("RDBLK", .rdblk), ("EXPAND", .expand), ("CINIT", .cinit), ("ROUND", .round),
      ("FOLD", .fold), ("COMPRESS", .compress), ("STEP", .step), ("RUN", .run), ("DIGEST", .digest)],
    parseLine m.1.toList = .ok (.instr m.2) ∧ parseLine (m.1.toList.map Char.toLower) = .ok (.instr m.2) ∧
    ∀ comment : List Char, parseLine (m.1.toList ++ ';' :: comment) = .ok (.instr m.2)) ∧
  (∀ i, lineCommands (.instr i) = [i]) ∧
  parseLine "BLOCK".toList = .ok .block ∧ lineCommands .block = [.rdblk, .expand, .compress] ∧
  (∀ (digits : List Char) (n : Nat), decimal digits = some n →
    parseLine ("ROUNDS ".toList ++ digits) = if 1 ≤ n ∧ n ≤ 64 then .ok (.rounds n) else .error .roundsRange) ∧
  (∀ n, lineCommands (.rounds n) = List.replicate n .round) ∧
  parseLine [] = .ok .blank ∧ lineCommands .blank = [] ∧
  (∀ w : Word, (listingWord w).length = 10 ∧ (listingWord w).take 2 = ['0', 'x'] ∧
    ∀ k : Nat, k < 8 →
      (listingWord w)[2 + k]? = "0123456789ABCDEF".toList[(w.extractLsb' (28 - 4 * k) 4).toNat]?) ∧
  ∀ (lines : List (List Char)) (program : List Instr), assembleLines lines = .ok program →
    (∃ parsed : List AsmLine, lines.map parseLine = parsed.map .ok ∧ (∀ l ∈ parsed, l.wellFormed = true) ∧
      program = parsed.flatMap lineCommands) ∧
    (program.map encode).map decode = program.map .ok

/-! ## The step -/

/-- 60 R136, 70 R166: with a 32-bit word on the port and `busy = 0`, a step in which the core acts takes the word off the
port and runs the decoded command on the state. The core acts where the host can do nothing, or pauses (log 7). -/
def Obligations.StepRunsTheDecodedCommand : Prop :=
  ∀ (s : State) (w : Word) (i : Instr), s.busy = false → s.port = some ⟨32, w⟩ → decode w = .ok i →
    (s.HostWaits → step s = exec i { s with port := none }) ∧
    step { s with host := .pause :: s.host } = exec i { s with port := none }

/-- 70 R167, 20 R51, 10 R32, 93 I12: status reads in the middle of the core's action, a command it takes or one that goes on
after its wait, have no side effect: the step does what it does without them, and each shows in every field a value that
the field held: before the action, after it, in between where one RDBLK passes `TerminatorPlaced` (`padsBetween`), and in
the phases and rounds of a block where the action compresses one (`phasesBetween`). For every value of the free values of
Config. That `BUSY` is shown as 1, that the reads stand after the action's other events in `trace`, and that the script
says where they fall, are the model's own choices (log 8, unsafe for `BUSY` and that order; log 7). -/
def Obligations.ReadsDuringAnActionHaveNoSideEffect : Prop :=
  ∀ (s t : State) (k : Nat) (rest : List HostMove), s.active = true → 1 ≤ k →
    s.host = List.replicate k .readDuring ++ rest → (∀ r, rest ≠ .readDuring :: r) →
    (∀ m r, rest ≠ .resetDuring m :: r) → step { s with host := .pause :: rest } = .next t →
    (∃ words : List Word, words.length = k ∧
      step s = .next { t with trace := words.map .status ++ t.trace, draws := t.draws + k } ∧
      ∀ w ∈ words, w.getLsbD 13 = true ∧ w.extractLsb' 14 2 = 0 ∧ w.extractLsb' 20 12 = 0 ∧
        w.extractLsb' 0 2 ∈ [s.drv.code, t.drv.code] ∧ w.extractLsb' 16 4 ∈ [s.cause.code, t.cause.code] ∧
        w.extractLsb' 2 2 ∈ (s.pad :: padsBetween s.pad t.pad).map PadState.code ∧
        w.extractLsb' 4 2 ∈
          (s.phase :: phasesBetween (actionCompressed s t) s.phase t.phase).map Phase.code ∧
        (if actionCompressed s t then (w.extractLsb' 6 7).toNat ≤ 64
          else (w.extractLsb' 6 7).toNat ∈ [s.rnd.val, t.rnd.val])) ∧
    ∀ (w : Word) (i : Instr), s.busy = false → s.port = some ⟨32, w⟩ → decode w = .ok i →
      i ∉ [Instr.compress, .step, .run] → actionCompressed s t = false

/-- 20 R51, 70 R167, R159: status reads in the middle of an action that a hardware reset then cuts short. They have no side
effect, and show only values that the abandoned command held: in every field a value between the state before the action and
`lastHeld`, the state it reaches with the answers it had taken at the reset's moment, its own fault not among them. Before
RDBLK, STEP or RUN has taken its first answer that is the status word before the command, with `BUSY` 1. As in
ReadsDuringAnActionHaveNoSideEffect, `BUSY`, the reads' place in `trace` and the script's form are the model's own choices
(logs 6, 7, 8). -/
def Obligations.ReadsBeforeAResetShowTheAbandonedCommand : Prop :=
  ∀ (s t : State) (k m : Nat) (rest : List HostMove), s.active = true → 1 ≤ k →
    s.host = List.replicate k .readDuring ++ .resetDuring m :: rest →
    step { s with host := .pause :: rest } = .next t →
    let e := lastHeld (some m) s t
    (∃ (u : State) (words : List Word), step { s with host := .resetDuring m :: rest } = .next u ∧ words.length = k ∧
      step s = .next { u with trace := words.map .status ++ u.trace, draws := u.draws + k } ∧
      (∀ w ∈ words, w.getLsbD 13 = true ∧ w.extractLsb' 14 2 = 0 ∧ w.extractLsb' 20 12 = 0 ∧
        w.extractLsb' 0 2 ∈ [s.drv.code, e.drv.code] ∧ w.extractLsb' 16 4 ∈ [s.cause.code, e.cause.code] ∧
        w.extractLsb' 2 2 ∈ (s.pad :: padsBetween s.pad e.pad).map PadState.code ∧
        w.extractLsb' 4 2 ∈
          (s.phase :: phasesBetween (actionCompressed s e) s.phase e.phase).map Phase.code ∧
        (if actionCompressed s e then (w.extractLsb' 6 7).toNat ≤ 64
          else (w.extractLsb' 6 7).toNat ∈ [s.rnd.val, e.rnd.val])) ∧
      (∀ (w : Word) (i : Instr), s.busy = false → s.waiting = none → s.port = some ⟨32, w⟩ → decode w = .ok i →
        i ∈ [Instr.rdblk, .step, .run] → s.drv = .running → s.phase = .idle → s.pad = .notPadded → m ≤ 1 →
        ∀ v ∈ words, v = ({ s with busy := true } : State).statusWord)) ∧
    (s.drv ≠ .failed → e.drv ≠ .failed) ∧
    ∀ c, step { s with host := [.pause], source := takeAnswers s.source (answersTaken m s t) } = .next c →
      e.pad = c.pad ∧ e.phase = c.phase ∧ e.rnd = c.rnd ∧ (c.drv ≠ .failed → e.drv = c.drv ∧ e.cause = c.cause)

/-- 70 R159, 60 R155: hardware reset in the middle of the core's action, at any moment of it: the command is abandoned
without completing and without a fault, the core takes its reset values, the status word is 0 and there is no result.
Outside the core stands some part of what the whole action would have shown and taken, none of it at moment 0 of a command
just taken. How the script names the moment, and that the port's next word stays, are the model's own choices (logs 6,
11). -/
def Obligations.ResetInTheMiddleAbandonsTheCommand : Prop :=
  ∀ (s t : State) (m : Nat) (rest : List HostMove), s.active = true → s.host = .resetDuring m :: rest →
    step { s with host := .pause :: rest } = .next t →
    ∃ u, step s = .next u ∧
      u.drv = .uninit ∧ u.pad = .notPadded ∧ u.phase = .idle ∧ u.rnd = 0 ∧ u.busy = false ∧ u.cause = .none ∧
      u.hash = none ∧ u.vars = none ∧ u.sched = none ∧ u.buf = none ∧ u.bitlen = none ∧ u.waiting = none ∧
      u.statusWord = 0 ∧ u.result = none ∧
      u.policy = s.policy ∧ u.port = t.port ∧ u.host = rest ∧
      s.trace <:+ u.trace ∧ u.trace <:+ t.trace ∧ u.source <:+ s.source ∧ t.source <:+ u.source ∧
      (m = 0 → s.waiting = none → u.trace = s.trace ∧ u.source = s.source)

/-- 70 R166: while `busy = 1` the port holds the host's word un-accepted, whatever the step does. Where the step serves a
hardware reset, that the word stays on the port is not R166's but the model's own choice (log 11, unsafe). -/
def Obligations.BusyPortHoldsItsWord : Prop :=
  ∀ (s t : State) (p : PortInput), s.busy = true → s.port = some p → step s = .next t → t.port = some p

/-- 70 R158 (10 R35): what hardware reset leaves, from every state. The ROMs are constants of the model, so nothing can
change them. -/
def Obligations.HardwareResetPutsEveryPieceAtItsValue : Prop :=
  ∀ s : State,
    let t := hardReset s
    t.drv = .uninit ∧ t.pad = .notPadded ∧ t.phase = .idle ∧ t.rnd = 0 ∧ t.busy = false ∧ t.cause = .none ∧
    t.hash = none ∧ t.vars = none ∧ t.sched = none ∧ t.buf = none ∧ t.bitlen = none ∧ t.waiting = none ∧
    t.statusWord = 0x00000000 ∧ (t.port = none → t.host = [] → step t = .next t)

/-- 70 R159, 10 R35: hardware reset in any state, with a command waiting or a word on the port not yet accepted (R159),
puts every piece of the core's state at its reset value; the status word is then 0, the computation has no result, and
with no command the core stays there. That the host's script names the moment, and that the port's word, the scripts and
the trace stay, is the model's own choice (logs 7, 11). -/
def Obligations.HardwareResetGivesTheResetState : Prop :=
  ∀ (s : State) (rest : List HostMove), s.host = .reset :: rest →
    ∃ t, step s = .next t ∧
      t.drv = .uninit ∧ t.pad = .notPadded ∧ t.phase = .idle ∧ t.rnd = 0 ∧ t.busy = false ∧ t.cause = .none ∧
      t.hash = none ∧ t.vars = none ∧ t.sched = none ∧ t.buf = none ∧ t.bitlen = none ∧ t.waiting = none ∧
      t.statusWord = 0 ∧ t.result = none ∧ t.policy = s.policy ∧ t.port = s.port ∧ t.host = rest ∧
      t.source = s.source ∧ t.trace = s.trace ∧
      (t.port = none → t.host = [] → step t = .next t)

/-- 10 R32, 30 R62: a status read, in any state, has no side effect on the core, on the held word or on the byte source;
it shows the status word where no command waits, and `shownStatus` where one does (StatusWhileWaitingShowsHeldValues).
That the host's script names the moment is the model's own choice (log 7). -/
def Obligations.StatusReadHasNoSideEffect : Prop :=
  ∀ (s : State) (rest : List HostMove), s.host = .readStatus :: rest →
    ∃ t : State, step s = .next t ∧ s.SameCore t ∧ t.port = s.port ∧ t.source = s.source ∧
      t.policy = s.policy ∧ t.received = s.received ∧ t.host = rest ∧ t.trace = .status s.shownStatus :: s.trace ∧
      (s.waiting = none → s.shownStatus = s.statusWord)

/-- 30 R62, R63, R64: every field of the status word, at its bits; the reserved bits read 0; after reset the word is 0. -/
def Obligations.StatusWordFieldsStandAtTheirBits : Prop :=
  (∀ s : State,
    s.statusWord.extractLsb' 0 2 = (match s.drv with | .uninit => 0 | .running => 1 | .done => 2 | .failed => 3) ∧
    s.statusWord.extractLsb' 2 2 =
      (match s.pad with | .notPadded => 0 | .terminatorPlaced => 1 | .lengthWritten => 2) ∧
    s.statusWord.extractLsb' 4 2 = (match s.phase with | .idle => 0 | .block => 1 | .sched => 2 | .rounds => 3) ∧
    (s.statusWord.extractLsb' 6 7).toNat = s.rnd.val ∧
    s.statusWord.getLsbD 13 = s.busy ∧
    s.statusWord.extractLsb' 14 2 = 0 ∧
    (s.statusWord.extractLsb' 16 4).toNat =
      (match s.cause with
        | .none => 0 | .illegalCommand => 1 | .notInitialized => 2 | .sequence => 3 | .readAfterTerminal => 4
        | .digestNotReady => 5 | .ioError => 6 | .ioInterrupted => 7 | .sourceContract => 8) ∧
    s.statusWord.extractLsb' 20 12 = 0) ∧
  State.reset.statusWord = 0

/-- 70 R167, 93 I12: what a read shows while a command waits (StatusReadHasNoSideEffect says that a step's read shows
`shownStatus`). `DRV`, `PAD` and `CAUSE` show the one value they held; `PHASE` and `RND` show 0 unless a RUN has folded a
block, and then any value they held (for every value of the free values of Config). That `BUSY` shows 1, and with it the
whole word 0x00002001, is the model's own choice (log 8, unsafe for `BUSY`). -/
def Obligations.StatusWhileWaitingShowsHeldValues : Prop :=
  ∀ s : State, s.Inv → s.waiting.isSome = true →
    s.shownStatus.extractLsb' 0 2 = 1 ∧ s.shownStatus.extractLsb' 2 2 = 0 ∧ s.shownStatus.getLsbD 13 = true ∧
    s.shownStatus.extractLsb' 14 6 = 0 ∧ s.shownStatus.extractLsb' 20 12 = 0 ∧
    (s.shownStatus.extractLsb' 6 7).toNat ≤ 64 ∧
    (s.waiting ≠ some (.run true) → s.shownStatus = 0x00002001)

/-! ## Acceptance and faults -/

/-- 60 R139: in `Failed` every command but INIT is refused, illegal words too: it changes nothing, produces no output and
raises nothing new. -/
def Obligations.FailedRefusesAllButInit : Prop :=
  ∀ s : State, s.busy = false → s.drv = .failed →
    (∀ i : Instr, i ≠ .init → exec i s = .next s) ∧
    (∀ w : Word, s.port = some ⟨32, w⟩ → w ≠ 0x00000001 →
      (s.HostWaits → step s = .next { s with port := none }) ∧
      step { s with host := .pause :: s.host } = .next { s with port := none })

/-- 60 R136, R138: before the first INIT every legal command but INIT raises `NOT_INITIALIZED`, with no other effect. -/
def Obligations.UninitRaisesNotInitialized : Prop :=
  ∀ (s : State) (i : Instr), s.busy = false → s.drv = .uninit → i ≠ .init →
    exec i s = .next { s with drv := .failed, cause := .notInitialized }

/-- 60 R136, R138: the cases of `Done`. STEP and RUN change nothing (44 R122, R124). -/
def Obligations.DoneCommandsSkipOrFault : Prop :=
  ∀ s : State, s.busy = false → s.drv = .done →
    exec .step s = .next s ∧ exec .run s = .next s ∧
    exec .rdblk s = .next { s with drv := .failed, cause := .readAfterTerminal } ∧
    (∀ i ∈ [Instr.expand, .cinit, .round, .fold, .compress],
      exec i s = .next { s with drv := .failed, cause := .sequence })

/-- 60 R136 (its table for `Running`), R138, 70 R162: a command out of phase order raises `SEQUENCE` and DIGEST raises
`DIGEST_NOT_READY`, with no other effect. -/
def Obligations.RunningOutOfOrderRaisesSequence : Prop :=
  ∀ s : State, s.busy = false → s.drv = .running →
    (s.phase ≠ .idle → ∀ i ∈ [Instr.rdblk, .step, .run],
      exec i s = .next { s with drv := .failed, cause := .sequence }) ∧
    (s.phase ≠ .block → exec .expand s = .next { s with drv := .failed, cause := .sequence }) ∧
    (s.phase ≠ .sched → ∀ i ∈ [Instr.cinit, .compress],
      exec i s = .next { s with drv := .failed, cause := .sequence }) ∧
    (s.phase ≠ .rounds ∨ s.rnd.val = 64 → exec .round s = .next { s with drv := .failed, cause := .sequence }) ∧
    (s.phase ≠ .rounds ∨ s.rnd.val < 64 → exec .fold s = .next { s with drv := .failed, cause := .sequence }) ∧
    exec .digest s = .next { s with drv := .failed, cause := .digestNotReady }

/-- 60 R137, R147: a fault of any command but RUN leaves nothing of the command's own in the core's data state, in a
composite command too; it sets `drv`, `cause` and `busy` only. -/
def Obligations.FaultLeavesNoPartialEffect : Prop :=
  ∀ (s t : State) (i : Instr), i ≠ .run → s.busy = false → s.drv ≠ .failed → exec i s = .next t → t.drv = .failed →
    t.cause ≠ .none ∧ t.busy = false ∧ t.hash = s.hash ∧ t.vars = s.vars ∧ t.sched = s.sched ∧ t.buf = s.buf ∧
    t.bitlen = s.bitlen ∧ t.pad = s.pad ∧ t.phase = s.phase ∧ t.rnd = s.rnd ∧ t.received = s.received

/-- 00 R11, 60 R156: an operation that reads `⊥` faults with `UnwrittenRead` and is never a number. Each clause has one
element without a value that the command reads; where the operation reads two that have none at once, it faults with one
of them (which, is log 2's choice). -/
def Obligations.ReadOfNoValueFaults : Prop :=
  ∀ s : State, s.busy = false →
    (s.drv = .running → s.phase = .idle →
      (s.pad = .terminatorPlaced ∨
        s.pad = .notPadded ∧ ∃ a rest n, s.source = .answer a :: rest ∧ a.reply = .data n a.lane) →
      (s.bitlen = none → ∀ i ∈ [Instr.rdblk, .step, .run], exec i s = .fault (.unwrittenRead .bitlen)) ∧
      (s.bitlen.isSome = true → s.hash = none → ∀ i ∈ [Instr.step, .run], exec i s = .fault (.unwrittenRead .hash))) ∧
    (s.drv = .running → s.phase = .block → s.buf = none → exec .expand s = .fault (.unwrittenRead .buf)) ∧
    (s.drv = .running → s.phase = .sched → s.hash = none →
      ∀ i ∈ [Instr.cinit, .compress], exec i s = .fault (.unwrittenRead .hash)) ∧
    (s.drv = .running → s.phase = .sched → s.hash.isSome = true → s.sched = none →
      exec .compress s = .fault (.unwrittenRead .sched)) ∧
    (s.drv = .running → s.phase = .rounds → s.rnd.val < 64 →
      (s.vars = none → s.sched.isSome = true → exec .round s = .fault (.unwrittenRead .vars)) ∧
      (s.vars.isSome = true → s.sched = none → exec .round s = .fault (.unwrittenRead .sched)) ∧
      (s.vars = none → s.sched = none → ∃ e ∈ [Element.vars, .sched], exec .round s = .fault (.unwrittenRead e))) ∧
    (s.drv = .running → s.phase = .rounds → s.rnd.val = 64 →
      (s.vars = none → s.hash.isSome = true → exec .fold s = .fault (.unwrittenRead .vars)) ∧
      (s.vars.isSome = true → s.hash = none → exec .fold s = .fault (.unwrittenRead .hash)) ∧
      (s.vars = none → s.hash = none → ∃ e ∈ [Element.vars, .hash], exec .fold s = .fault (.unwrittenRead e))) ∧
    (s.drv = .done → s.hash = none → exec .digest s = .fault (.unwrittenRead .hash))

/-! ## INIT -/

/-- 10 R36 (44 R120): the state after INIT, from every state; the outer agents and the ports are untouched. Nothing is
said of the model's own record `received` (log 16). -/
def Obligations.InitLeavesTheInitialState : Prop :=
  ∀ s : State, ∃ r : List Byte,
    exec .init s = .next { s with
      drv := .running, pad := .notPadded, phase := .idle, rnd := 0, busy := false, cause := .none
      hash := some #v[0x6a09e667, 0xbb67ae85, 0x3c6ef372, 0xa54ff53a, 0x510e527f, 0x9b05688c, 0x1f83d9ab, 0x5be0cd19]
      bitlen := some 0, buf := none, sched := none, vars := none, received := r }

/-- 44 R121: what an abandoned computation had done does not affect the new one: two states that differ in the core's own
state only (no command waiting in either) are the same after INIT. -/
def Obligations.InitForgetsTheAbandonedComputation : Prop :=
  ∀ s t : State, s.waiting = none → t.waiting = none → s.policy = t.policy → s.port = t.port → s.host = t.host →
    s.source = t.source → s.trace = t.trace → s.draws = t.draws → exec .init s = exec .init t

/-! ## RDBLK -/

/-- 41 R89: a full data block. Here and in the next two, nothing is said of the model's own record `received` (log 16). -/
def Obligations.RdblkStoresAFullDataBlock : Prop :=
  ∀ (s : State) (a : Answer) (rest : List SourceEvent) (l : BitVec 64),
    s.Ready → s.drv = .running → s.phase = .idle → s.pad = .notPadded → s.bitlen = some l →
    s.source = .answer a :: rest → a.kind = 0 → a.count = 64 →
    ∃ r : List Byte, exec .rdblk s = .next { s with
      buf := some a.lane, bitlen := some (l + 512), phase := .block, source := rest
      trace := .readRequest :: s.trace, received := r }

/-- 41 R91 (with R90): a final raw chunk of n ≤ 55 bytes: the raw bytes, the terminator, zeros, the 64-bit big-endian
length that counts this chunk; the block is terminal. -/
def Obligations.RdblkPadsAShortChunkWithItsLength : Prop :=
  ∀ (s : State) (a : Answer) (rest : List SourceEvent) (l : BitVec 64) (n : Nat),
    s.Ready → s.drv = .running → s.phase = .idle → s.pad = .notPadded → s.bitlen = some l →
    s.source = .answer a :: rest → a.kind = 0 → a.count.toNat = n → n ≤ 55 →
    ∃ (b : Block) (r : List Byte),
      exec .rdblk s = .next { s with
        buf := some b, bitlen := some (l + BitVec.ofNat 64 (8 * n)), pad := .lengthWritten, phase := .block
        source := rest, trace := .readRequest :: s.trace, received := r } ∧
      ∀ i : Fin 64, b[i] =
        if i.val < n then a.lane[i]
        else if i.val = n then 0x80
        else if i.val < 56 then 0x00
        else (l + BitVec.ofNat 64 (8 * n)).extractLsb' (8 * (63 - i.val)) 8

/-- 41 R92 (with R90): a final raw chunk of 56 ≤ n ≤ 63 bytes: the raw bytes, the terminator, zeros; the block is not
terminal. -/
def Obligations.RdblkPadsALongChunkWithoutLength : Prop :=
  ∀ (s : State) (a : Answer) (rest : List SourceEvent) (l : BitVec 64) (n : Nat),
    s.Ready → s.drv = .running → s.phase = .idle → s.pad = .notPadded → s.bitlen = some l →
    s.source = .answer a :: rest → a.kind = 0 → a.count.toNat = n → 56 ≤ n → n ≤ 63 →
    ∃ (b : Block) (r : List Byte),
      exec .rdblk s = .next { s with
        buf := some b, bitlen := some (l + BitVec.ofNat 64 (8 * n)), pad := .terminatorPlaced, phase := .block
        source := rest, trace := .readRequest :: s.trace, received := r } ∧
      ∀ i : Fin 64, b[i] = if i.val < n then a.lane[i] else if i.val = n then 0x80 else 0x00

/-- 41 R93: the length-only block: no request is made, `bitlen` does not change, the block is terminal. -/
def Obligations.RdblkWritesTheLengthOnlyBlock : Prop :=
  ∀ (s : State) (l : BitVec 64),
    s.busy = false → s.drv = .running → s.phase = .idle → s.pad = .terminatorPlaced → s.bitlen = some l →
    ∃ b : Block,
      exec .rdblk s = .next { s with buf := some b, pad := .lengthWritten, phase := .block } ∧
      ∀ i : Fin 64, b[i] = if i.val < 56 then 0x00 else l.extractLsb' (8 * (63 - i.val)) 8

/-- 60 R143, 41 R87: an `Error` answer raises `IO_ERROR` after one request, under either policy, with nothing stored, for
RDBLK and for the RDBLK of STEP and RUN; the run has no digest. -/
def Obligations.ErrorAnswerRaisesIoError : Prop :=
  ∀ (s : State) (a : Answer) (rest : List SourceEvent) (i : Instr),
    i ∈ [Instr.rdblk, .step, .run] → s.Ready → s.drv = .running → s.phase = .idle → s.pad = .notPadded →
    s.source = .answer a :: rest → a.kind = 2 →
    ∃ t, exec i s = .next t ∧
      t = { s with drv := .failed, cause := .ioError, source := rest, trace := .readRequest :: s.trace } ∧
      t.result = some (.failed .ioError)

/-- 41 R87, 30 R65: an answer of kind 3, or a `Data` answer with count > 64, raises `SOURCE_CONTRACT` with nothing stored,
for RDBLK and for the RDBLK of STEP and RUN. -/
def Obligations.BrokenAnswerRaisesSourceContract : Prop :=
  ∀ (s : State) (a : Answer) (rest : List SourceEvent) (i : Instr),
    i ∈ [Instr.rdblk, .step, .run] → s.Ready → s.drv = .running → s.phase = .idle → s.pad = .notPadded →
    s.source = .answer a :: rest → (a.kind = 3 ∨ (a.kind = 0 ∧ 64 < a.count.toNat)) →
    exec i s = .next { s with
      drv := .failed, cause := .sourceContract, source := rest, trace := .readRequest :: s.trace }

/-- 60 R142, 41 R87: `INTERRUPT_POLICY` is fixed for an instance. Under `Retry` an `Interrupted` answer issues the request
again and changes nothing else; under `Abort` it raises `IO_INTERRUPTED`. -/
def Obligations.InterruptedAnswerFollowsThePolicy : Prop :=
  (∀ s t : State, step s = .next t → t.policy = s.policy) ∧
  ∀ (s : State) (a : Answer) (rest : List SourceEvent) (i : Instr),
    i ∈ [Instr.rdblk, .step, .run] → s.Ready → s.drv = .running → s.phase = .idle → s.pad = .notPadded →
    s.source = .answer a :: rest → a.kind = 1 →
    (s.policy = .retry → exec i s = exec i { s with source := rest, trace := .readRequest :: s.trace }) ∧
    (s.policy = .abort → exec i s = .next { s with
      drv := .failed, cause := .ioInterrupted, source := rest, trace := .readRequest :: s.trace })

/-- 70 R159, 93 I16: an answer to a request made before a reset is discarded: a read behaves as if it were not there. The
script's mark for it is the model's own (log 10). -/
def Obligations.LateAnswerIsDiscarded : Prop :=
  ∀ (s : State) (a : Answer) (rest : List SourceEvent) (i : Instr),
    i ∈ [Instr.rdblk, .step, .run] → s.Ready → s.drv = .running → s.phase = .idle → s.pad = .notPadded →
    s.source = .late a :: rest → exec i s = exec i { s with source := rest }

/-- 10 R26, R33, 70 R169: with no answer the command waits, `busy = 1`, with one request outstanding and nothing else
changed; with no answer ever and no move of the host the core stays there: a hang, not a fault. -/
def Obligations.UnansweredReadHangs : Prop :=
  ∀ s : State, s.Ready → s.drv = .running → s.phase = .idle → s.pad = .notPadded → s.source = [] →
    ∀ c ∈ [(Instr.rdblk, Waiter.rdblk), (.step, .step), (.run, .run false)],
      ∃ t, exec c.1 s = .next t ∧
        t = { s with busy := true, waiting := some c.2, trace := .readRequest :: s.trace } ∧
        (s.host = [] → step t = .next t)

/-- 70 R168, 44 R129: when the answer comes does not matter. A command that waited for one step ends, in the next step,
in the state it would have ended in had the answer been there at once. -/
def Obligations.DelayedAnswerGivesTheSameState : Prop :=
  ∀ (s : State) (rest : List SourceEvent) (i : Instr),
    i ∈ [Instr.rdblk, .step, .run] → s.Ready → s.host = [] → s.drv = .running → s.phase = .idle → s.pad = .notPadded →
    s.source = .delay :: rest →
    ∃ t, exec i s = .next t ∧ t.busy = true ∧ step t = exec i { s with source := rest }

/-- 41 R95 and the frame of RDBLK: a RDBLK that completes leaves a block in `buf` and `phase = BLOCK`, and touches neither
`H`, `W`, `a`..`h`, `rnd`, `drv`, `cause` nor the host's side. -/
def Obligations.RdblkFrame : Prop :=
  ∀ s t : State, s.Ready → s.drv = .running → s.phase = .idle → s.pad ≠ .lengthWritten →
    exec .rdblk s = .next t → t.busy = false → t.drv ≠ .failed →
    t.phase = .block ∧ t.buf.isSome = true ∧ t.hash = s.hash ∧ t.sched = s.sched ∧ t.vars = s.vars ∧ t.rnd = s.rnd ∧
    t.drv = s.drv ∧ t.cause = s.cause ∧ t.waiting = none ∧ t.policy = s.policy ∧ t.port = s.port ∧ t.host = s.host ∧
    t.draws = s.draws

/-! ## EXPAND -/

/-- 42 R101, R102, R103: the first 16 words are the block's big-endian words, the other 48 follow the recurrence, and
nothing else changes but the phase. -/
def Obligations.ExpandComputesTheSchedule : Prop :=
  ∀ (s : State) (b : Block), s.busy = false → s.drv = .running → s.phase = .block → s.buf = some b →
    ∃ w : Schedule,
      exec .expand s = .next { s with sched := some w, phase := .sched } ∧
      (∀ j : Fin 16, w[j.val] = b[4 * j.val] ++ b[4 * j.val + 1] ++ b[4 * j.val + 2] ++ b[4 * j.val + 3]) ∧
      (∀ (t : Nat) (_ : 16 ≤ t) (_ : t < 64),
        w[t] = smallSigma1 w[t - 2] + w[t - 7] + smallSigma0 w[t - 15] + w[t - 16])

/-! ## The compressor -/

/-- 43 R106: CINIT. -/
def Obligations.CinitLoadsTheWorkingVariables : Prop :=
  ∀ (s : State) (h : HashState), s.busy = false → s.drv = .running → s.phase = .sched → s.hash = some h →
    exec .cinit s = .next { s with vars := some ⟨h[0], h[1], h[2], h[3], h[4], h[5], h[6], h[7]⟩, rnd := 0, phase := .rounds }

/-- 43 R105, R107, R108: one ROUND, with t = rnd ≤ 63. -/
def Obligations.RoundUpdatesAllEightVariables : Prop :=
  ∀ (s : State) (v : Vars) (w : Schedule) (t : Nat) (ht : t < 64), s.busy = false → s.drv = .running →
    s.phase = .rounds → s.rnd.val = t → s.vars = some v → s.sched = some w →
    ∃ t1 t2 : Word,
      t1 = v.h + bigSigma1 v.e + ch v.e v.f v.g + K[t] + w[t] ∧
      t2 = bigSigma0 v.a + maj v.a v.b v.c ∧
      exec .round s = .next { s with
        vars := some ⟨t1 + t2, v.a, v.b, v.c, v.d + t1, v.e, v.f, v.g⟩, rnd := ⟨t + 1, by omega⟩ }

/-- 43 R112 (with R111): FOLD, and the terminal test on `pad`. -/
def Obligations.FoldAccumulatesIntoTheHash : Prop :=
  ∀ (s : State) (h : HashState) (v : Vars), s.busy = false → s.drv = .running → s.phase = .rounds → s.rnd.val = 64 →
    s.hash = some h → s.vars = some v →
    exec .fold s = .next { s with
      hash := some #v[h[0] + v.a, h[1] + v.b, h[2] + v.c, h[3] + v.d, h[4] + v.e, h[5] + v.f, h[6] + v.g, h[7] + v.h]
      phase := .idle, rnd := 0, sched := none, vars := none
      drv := if s.pad = .lengthWritten then .done else .running }

/-- 43 R114: COMPRESS and `CINIT; ROUND × 64; FOLD` leave the same state (and, where COMPRESS faults, so does the
sequence, with the same state). -/
def Obligations.CompressEqualsItsSixtySixCommands : Prop :=
  ∀ s : State, s.busy = false →
    exec .compress s = execAll (.cinit :: List.replicate 64 .round ++ [.fold]) s

/-- 43 R113 (with R110): what COMPRESS leaves: 64 rounds on the loaded hash state, each with its own constant and word,
folded into it. `hashSchedule` is Safety.lean's function on words. -/
def Obligations.CompressHashesTheSchedule : Prop :=
  ∀ (s : State) (h : HashState) (w : Schedule), s.busy = false → s.drv = .running → s.phase = .sched →
    s.hash = some h → s.sched = some w →
    exec .compress s = .next { s with
      hash := some (hashSchedule h w), phase := .idle, rnd := 0, sched := none, vars := none
      drv := if s.pad = .lengthWritten then .done else .running }

/-! ## The driver -/

/-- 44 R123: in `Running`, a STEP whose read does not wait leaves the state of `RDBLK; EXPAND; COMPRESS`; in `Done` STEP is
a no-op while the sequence raises `READ_AFTER_TERMINAL`. One STEP that completes in `Running` has folded one block, and it
moves to `Done` exactly when that block is the terminal one. -/
def Obligations.StepEqualsItsThreeCommands : Prop :=
  (∀ s t : State, s.busy = false → s.drv = .running → exec .rdblk s = .next t → t.busy = false →
    exec .step s = execAll [.rdblk, .expand, .compress] s) ∧
  (∀ s : State, s.busy = false → s.drv = .done →
    exec .step s = .next s ∧
    execAll [.rdblk, .expand, .compress] s = .next { s with drv := .failed, cause := .readAfterTerminal }) ∧
  (∀ s t : State, s.busy = false → s.drv = .running → exec .step s = .next t → t.busy = false → t.drv ≠ .failed →
    (∃ (h : HashState) (b : Block), s.hash = some h ∧ t.buf = some b ∧ t.hash = some (hashBlock h b)) ∧
    t.phase = .idle ∧ (t.drv = .done ↔ t.pad = .lengthWritten))

/-- 44 R122 (with 41 R89, R91, R92, R93): what a STEP in `Running` leaves when its answer is there, and what it leaves
when the terminator is placed. `chunkBlock` and `lengthBlock` are the blocks RDBLK stores; `hashBlock` is Safety.lean's. -/
def Obligations.StepProcessesOneBlock : Prop :=
  ∀ (s : State) (h : HashState) (l : BitVec 64), s.Ready → s.drv = .running → s.phase = .idle → s.rnd = 0 →
    s.hash = some h → s.bitlen = some l →
    (∀ (a : Answer) (rest : List SourceEvent) (n : Fin 65), s.pad = .notPadded → s.source = .answer a :: rest →
      a.reply = .data n a.lane →
      ∃ b, b = chunkBlock n a.lane (l + BitVec.ofNat 64 (8 * n.val)) ∧
        exec .step s = .next { s with
          buf := some b, hash := some (hashBlock h b), bitlen := some (l + BitVec.ofNat 64 (8 * n.val))
          pad := if n.val = 64 then .notPadded else if n.val ≤ 55 then .lengthWritten else .terminatorPlaced
          drv := if n.val ≤ 55 then .done else .running
          sched := none, vars := none, source := rest, trace := .readRequest :: s.trace
          received := s.received ++ a.lane.toList.take n.val }) ∧
    (s.pad = .terminatorPlaced →
      exec .step s = .next { s with
        buf := some (lengthBlock l), hash := some (hashBlock h (lengthBlock l)), pad := .lengthWritten, drv := .done
        sched := none, vars := none })

/-- 44 R124 (with 60 R147): RUN is STEP while `drv = Running`. After one STEP that neither waits, the rest of RUN is RUN
from there; a fault or `Done` ends it, and then the STEP's state is RUN's. -/
def Obligations.RunIsTheLoopOfSteps : Prop :=
  ∀ s t u : State, s.Ready → s.drv = .running → s.phase = .idle → exec .step s = .next t → t.busy = false →
    u.busy = false → (exec .run s = .next u ↔ exec .run t = .next u)

/-- 44 R124, 70 R169: RUN never stops half way: it ends in `Done` with the length written, in `Failed`, or waits with
`busy = 1` for the byte source. -/
def Obligations.RunEndsDoneFailedOrWaiting : Prop :=
  ∀ s t : State, s.Inv → s.busy = false → s.drv = .running → s.phase = .idle → exec .run s = .next t →
    (t.drv = .done ∧ t.pad = .lengthWritten ∧ t.busy = false) ∨ (t.drv = .failed ∧ t.busy = false) ∨
    (t.drv = .running ∧ t.busy = true ∧ ∃ f, t.waiting = some (.run f))

/-- 44 R125 (with 41 R97): a RUN from the start of a computation, on a script that delivers the bytes of `msg` up to its
short answer, retried `Interrupted` answers included, ends in `Done`, and `H` is SHA-256 of `msg`: Safety.lean's function
on bytes, which pads by its closed form. `received` is the model's own record (log 16). -/
def Obligations.RunHashesTheDeliveredBytes : Prop :=
  ∀ (s : State) (msg : List Byte) (rest : List SourceEvent), s.Ready → s.drv = .running → s.phase = .idle →
    s.pad = .notPadded → s.rnd = 0 → s.hash = some IV → s.bitlen = some 0 → s.received = [] →
    streamOf false s.policy s.source = some (msg, rest) →
    ∃ t, exec .run s = .next t ∧
      t.drv = .done ∧ t.pad = .lengthWritten ∧ t.phase = .idle ∧ t.rnd = 0 ∧ t.busy = false ∧ t.cause = s.cause ∧
      t.hash = some (sha256 msg) ∧ t.bitlen = some (BitVec.ofNat 64 (8 * msg.length)) ∧ t.received = msg ∧
      t.source = rest

/-- 41 R97, 60 R141: a byte source that does its duty for `msg` delivers `msg`, and a RUN on it makes exactly `q + 1`
requests, q = ⌊L / 64⌋: none after the short answer. -/
def Obligations.DutifulSourceIsReadOncePerChunk : Prop :=
  ∀ (s : State) (msg : List Byte) (rest : List SourceEvent), s.Ready → s.drv = .running → s.phase = .idle →
    s.pad = .notPadded → s.hash = some IV → s.bitlen = some 0 → s.source = answersOf msg ++ rest →
    streamOf false s.policy s.source = some (msg, rest) ∧
    ∃ t, exec .run s = .next t ∧ t.source = rest ∧ t.requests = s.requests + (msg.length / 64 + 1)

/-- 44 R129, 70 R169: whatever time the answers take, a RUN placed on the port ends, in some number of steps, in `Done`
with SHA-256 of the delivered bytes, if the script delivers them up to a short answer; the host makes no other move. -/
def Obligations.RunEndsWhateverTimeTheAnswersTake : Prop :=
  ∀ (s : State) (msg : List Byte) (rest : List SourceEvent), s.Ready → s.drv = .running → s.phase = .idle →
    s.pad = .notPadded → s.rnd = 0 → s.hash = some IV → s.bitlen = some 0 → s.host = [] →
    s.port = some ⟨32, 0x00000009⟩ → streamOf true s.policy s.source = some (msg, rest) →
    ∃ (k : Nat) (t : State), Host.Core.run core k s = .next t ∧ t.drv = .done ∧ t.busy = false ∧
      t.hash = some (sha256 msg) ∧ t.source = rest

/-- 44 R126, 20 R42: DIGEST in `Done` writes the hash words big-endian to the digest port and changes nothing else of the
state, so a second DIGEST writes the same bytes. -/
def Obligations.DigestWritesTheHashBigEndian : Prop :=
  ∀ (s : State) (h : HashState), s.busy = false → s.drv = .done → s.hash = some h →
    ∃ d : Digest,
      exec .digest s = .next { s with trace := .digest d :: s.trace } ∧
      execAll [.digest, .digest] s = .next { s with trace := .digest d :: .digest d :: s.trace } ∧
      (∀ (i : Fin 8) (k : Fin 4), d[4 * i.val + k.val] = h[i].extractLsb' (24 - 8 * k.val) 8)

/-! ## Whole-machine rules -/

/-- 10 R34: the reset state meets the invariant. -/
def Obligations.ResetMeetsTheInvariant : Prop := State.reset.Inv

/-- 10 R34 (items 1 to 6 and 8), 60 R156: every step keeps the invariant, from every state that meets it. -/
def Obligations.EveryStepKeepsTheInvariant : Prop :=
  ∀ s t : State, s.Inv → step s = .next t → t.Inv

/-- 60 R156, 00 R11: from every state that meets the invariant no step reads `⊥`, and the only refusal is of a port input
that is not a 32-bit word; where the core takes such an input, it is refused. The model's choices here: that the refusal
comes when the core takes the input, with `busy = 0`, and in Failed too (log 9); that the core takes it where the host can
do nothing or pauses (log 7). -/
def Obligations.NoStepReadsNoValue : Prop :=
  ∀ s : State, s.Inv →
    (∀ f, step s ≠ .fault f) ∧
    (∀ q, step s = .refused q → q = .notACommandWord ∧ s.busy = false ∧ ∃ p, s.port = some p ∧ p.width ≠ 32) ∧
    (∀ p, s.busy = false → s.port = some p → p.width ≠ 32 →
      (s.HostWaits → step s = .refused .notACommandWord) ∧
      step { s with host := .pause :: s.host } = .refused .notACommandWord)

/-- 10 R34 item 7, 41 R93: once `pad ≠ NotPadded`, no command issues a read request, and a step issues none either. -/
def Obligations.NoReadRequestAfterTheTerminator : Prop :=
  ∀ s t : State, s.pad ≠ .notPadded →
    (∀ i, exec i s = .next t → t.requests = s.requests) ∧ (s.Inv → step s = .next t → t.requests = s.requests)

/-- 10 R21: `pad` never regresses but by INIT and reset, and only RDBLK (in STEP and RUN too) and INIT write it. -/
def Obligations.PadOnlyAdvances : Prop :=
  ∀ s t : State,
    (∀ i, i ≠ .init → exec i s = .next t → s.pad.code.toNat ≤ t.pad.code.toNat) ∧
    (∀ i ∈ [Instr.expand, .cinit, .round, .fold, .compress, .digest], exec i s = .next t → t.pad = s.pad) ∧
    (s.Inv → (∀ rest, s.host ≠ .reset :: rest) → (duringAction s.host).reset = none →
      (s.busy = true ∨ s.port ≠ some ⟨32, 0x00000001⟩) → step s = .next t →
      s.pad.code.toNat ≤ t.pad.code.toNat)

/-- 10 R23, R27: the only changes of `drv`: INIT to `Running`; `Running` to `Done` by a fold of the terminal block; to
`Failed` by a fault, from any state but `Failed`; to `Uninit` by hardware reset; and `cause` is written by INIT, by a fault
and by reset only. Of every command, and of every step (a waiting command that goes on, and the host's moves) from a state
that meets the invariant. -/
def Obligations.DriverStateChangesOnlyAsListed : Prop :=
  (∀ (s t : State) (i : Instr), exec i s = .next t →
    (i = .init ∧ t.drv = .running ∧ t.cause = .none) ∨
    (i ≠ .init ∧ t.drv = s.drv ∧ t.cause = s.cause) ∨
    (i ∈ [Instr.fold, .compress, .step, .run] ∧ s.drv = .running ∧ t.drv = .done ∧ t.pad = .lengthWritten ∧
      t.cause = s.cause) ∨
    (i ≠ .init ∧ s.drv ≠ .failed ∧ t.drv = .failed ∧ t.cause ≠ .none)) ∧
  ∀ s t : State, s.Inv → step s = .next t →
    (t.drv = s.drv ∧ t.cause = s.cause) ∨
    (s.busy = false ∧ s.port = some ⟨32, 0x00000001⟩ ∧ t.drv = .running ∧ t.cause = .none) ∨
    (s.drv = .running ∧ t.drv = .done ∧ t.pad = .lengthWritten ∧ t.cause = s.cause) ∨
    (s.drv ≠ .failed ∧ t.drv = .failed ∧ t.cause ≠ .none) ∨
    (((∃ rest, s.host = .reset :: rest) ∨ (duringAction s.host).reset ≠ none) ∧ t.drv = .uninit ∧ t.cause = .none)

/-- 10 R16, R17, R19, R29, R30: which commands write which element; every other command leaves it as it is. -/
def Obligations.EachElementHasOnlyItsWriters : Prop :=
  ∀ (s t : State) (i : Instr), exec i s = .next t →
    (i ∉ [Instr.init, .fold, .compress, .step, .run] → t.hash = s.hash) ∧
    (i ∉ [Instr.init, .cinit, .round, .fold, .compress, .step, .run] → t.vars = s.vars ∧ t.rnd = s.rnd) ∧
    (i ∉ [Instr.init, .expand, .fold, .compress, .step, .run] → t.sched = s.sched) ∧
    (i ∉ [Instr.init, .rdblk, .step, .run] → t.buf = s.buf ∧ t.bitlen = s.bitlen ∧ t.source = s.source ∧
      t.requests = s.requests) ∧
    (i ≠ .digest → t.digestPort = s.digestPort) ∧
    t.policy = s.policy ∧ t.port = s.port ∧ t.host = s.host ∧ t.draws = s.draws

/-- 60 R155: under the invariant, a state has a result exactly when the run has ended: the digest in `Done`, the cause in
`Failed`. -/
def Obligations.RunHasAResultExactlyWhenEnded : Prop :=
  ∀ s : State, s.Inv →
    (s.Ended ↔ s.result.isSome = true) ∧
    (s.Ended → s.drv = .done → ∃ h, s.hash = some h ∧ s.result = some (.digest (digestBytes h))) ∧
    (s.Ended → s.drv = .failed → s.result = some (.failed s.cause) ∧ s.cause ≠ .none)

/-! ## The datapath -/

/-- 40 R73, R74: rotation and shift, bit by bit. -/
def Obligations.RotationAndShiftMoveEveryBit : Prop :=
  ∀ (x : Word) (n i : Nat), i < 32 →
    (1 ≤ n → n ≤ 31 → (rotr n x).getLsbD i = x.getLsbD ((i + n) % 32)) ∧
    (shr n x).getLsbD i = (if i + n < 32 then x.getLsbD (i + n) else false)

/-- 40 R75, R76: each bit of x chooses the bit of y or of z; each result bit of Maj is the majority of the three. -/
def Obligations.ChChoosesAndMajVotesBitByBit : Prop :=
  ∀ (x y z : Word) (i : Nat), i < 32 →
    (ch x y z).getLsbD i = (if x.getLsbD i then y.getLsbD i else z.getLsbD i) ∧
    (maj x y z).getLsbD i =
      decide (2 ≤ (x.getLsbD i).toNat + (y.getLsbD i).toNat + (z.getLsbD i).toNat)

/-- 40 R81: the corner values of the six mixing functions. -/
def Obligations.MixingFunctionsAtTheirCorners : Prop :=
  ch 0 0 0 = 0 ∧ maj 0 0 0 = 0 ∧
  bigSigma0 0 = 0 ∧ bigSigma1 0 = 0 ∧ smallSigma0 0 = 0 ∧ smallSigma1 0 = 0 ∧
  bigSigma0 0xFFFFFFFF = 0xFFFFFFFF ∧ bigSigma1 0xFFFFFFFF = 0xFFFFFFFF ∧
  smallSigma0 0xFFFFFFFF = 0x1FFFFFFF ∧ smallSigma1 0xFFFFFFFF = 0x003FFFFF

/-- 40 R77, R78, R79, R80: the four sigma functions, bit by bit, each with its amounts of rotation and shift. -/
def Obligations.SigmasMixTheirBits : Prop :=
  ∀ (x : Word) (i : Nat), i < 32 →
    let at' := fun n => x.getLsbD ((i + n) % 32)
    let above := fun n => if i + n < 32 then x.getLsbD (i + n) else false
    (bigSigma0 x).getLsbD i = (at' 2 ^^ at' 13 ^^ at' 22) ∧
    (bigSigma1 x).getLsbD i = (at' 6 ^^ at' 11 ^^ at' 25) ∧
    (smallSigma0 x).getLsbD i = (at' 7 ^^ at' 18 ^^ above 3) ∧
    (smallSigma1 x).getLsbD i = (at' 17 ^^ at' 19 ^^ above 10)

/-- 20 R47: the 64 round constants, row by row of the rule's table; and each is what the rule says it is, the first 32 bits
of the fractional part of the cube root of the (t+1)-th prime: the low 32 bits of ⌊2^32 · ∛p⌋. -/
def Obligations.RoundConstantsAreTheTable : Prop :=
  K.toList =
    [0x428a2f98, 0x71374491, 0xb5c0fbcf, 0xe9b5dba5] ++ [0x3956c25b, 0x59f111f1, 0x923f82a4, 0xab1c5ed5] ++
    [0xd807aa98, 0x12835b01, 0x243185be, 0x550c7dc3] ++ [0x72be5d74, 0x80deb1fe, 0x9bdc06a7, 0xc19bf174] ++
    [0xe49b69c1, 0xefbe4786, 0x0fc19dc6, 0x240ca1cc] ++ [0x2de92c6f, 0x4a7484aa, 0x5cb0a9dc, 0x76f988da] ++
    [0x983e5152, 0xa831c66d, 0xb00327c8, 0xbf597fc7] ++ [0xc6e00bf3, 0xd5a79147, 0x06ca6351, 0x14292967] ++
    [0x27b70a85, 0x2e1b2138, 0x4d2c6dfc, 0x53380d13] ++ [0x650a7354, 0x766a0abb, 0x81c2c92e, 0x92722c85] ++
    [0xa2bfe8a1, 0xa81a664b, 0xc24b8b70, 0xc76c51a3] ++ [0xd192e819, 0xd6990624, 0xf40e3585, 0x106aa070] ++
    [0x19a4c116, 0x1e376c08, 0x2748774c, 0x34b0bcb5] ++ [0x391c0cb3, 0x4ed8aa4a, 0x5b9cca4f, 0x682e6ff3] ++
    [0x748f82ee, 0x78a5636f, 0x84c87814, 0x8cc70208] ++ [0x90befffa, 0xa4506ceb, 0xbef9a3f7, 0xc67178f2] ∧
  ∀ (t : Nat) (_ : t < 64), ∃ p n : Nat, p.Prime ∧ Nat.count Nat.Prime p = t ∧
    n ^ 3 ≤ p * 2 ^ 96 ∧ p * 2 ^ 96 < (n + 1) ^ 3 ∧ K[t] = BitVec.ofNat 32 n
end

