-- ==== Sys2Proof/Laws/State.lean ====
section
/-! SUPPORT. One lemma per field per named update of the state, true by `rfl`: no later proof unfolds a record update. -/

namespace Sys2Proof.Machine

/-! ### `complete`: a command ends (60 R136) -/

@[simp] theorem complete_hash (s : State) : (complete s).hash = s.hash := rfl
@[simp] theorem complete_vars (s : State) : (complete s).vars = s.vars := rfl
@[simp] theorem complete_sched (s : State) : (complete s).sched = s.sched := rfl
@[simp] theorem complete_buf (s : State) : (complete s).buf = s.buf := rfl
@[simp] theorem complete_bitlen (s : State) : (complete s).bitlen = s.bitlen := rfl
@[simp] theorem complete_pad (s : State) : (complete s).pad = s.pad := rfl
@[simp] theorem complete_drv (s : State) : (complete s).drv = s.drv := rfl
@[simp] theorem complete_phase (s : State) : (complete s).phase = s.phase := rfl
@[simp] theorem complete_rnd (s : State) : (complete s).rnd = s.rnd := rfl
@[simp] theorem complete_busy (s : State) : (complete s).busy = false := rfl
@[simp] theorem complete_cause (s : State) : (complete s).cause = s.cause := rfl
@[simp] theorem complete_waiting (s : State) : (complete s).waiting = s.waiting := rfl
@[simp] theorem complete_policy (s : State) : (complete s).policy = s.policy := rfl
@[simp] theorem complete_port (s : State) : (complete s).port = s.port := rfl
@[simp] theorem complete_host (s : State) : (complete s).host = s.host := rfl
@[simp] theorem complete_source (s : State) : (complete s).source = s.source := rfl
@[simp] theorem complete_trace (s : State) : (complete s).trace = s.trace := rfl
@[simp] theorem complete_received (s : State) : (complete s).received = s.received := rfl
@[simp] theorem complete_draws (s : State) : (complete s).draws = s.draws := rfl

/-! ### `raiseFault`: fault entry (60 R137) -/

@[simp] theorem raiseFault_hash (c : Cause) (s : State) : (raiseFault c s).hash = s.hash := rfl
@[simp] theorem raiseFault_vars (c : Cause) (s : State) : (raiseFault c s).vars = s.vars := rfl
@[simp] theorem raiseFault_sched (c : Cause) (s : State) : (raiseFault c s).sched = s.sched := rfl
@[simp] theorem raiseFault_buf (c : Cause) (s : State) : (raiseFault c s).buf = s.buf := rfl
@[simp] theorem raiseFault_bitlen (c : Cause) (s : State) : (raiseFault c s).bitlen = s.bitlen := rfl
@[simp] theorem raiseFault_pad (c : Cause) (s : State) : (raiseFault c s).pad = s.pad := rfl
@[simp] theorem raiseFault_drv (c : Cause) (s : State) : (raiseFault c s).drv = .failed := rfl
@[simp] theorem raiseFault_phase (c : Cause) (s : State) : (raiseFault c s).phase = s.phase := rfl
@[simp] theorem raiseFault_rnd (c : Cause) (s : State) : (raiseFault c s).rnd = s.rnd := rfl
@[simp] theorem raiseFault_busy (c : Cause) (s : State) : (raiseFault c s).busy = false := rfl
@[simp] theorem raiseFault_cause (c : Cause) (s : State) : (raiseFault c s).cause = c := rfl
@[simp] theorem raiseFault_waiting (c : Cause) (s : State) : (raiseFault c s).waiting = s.waiting := rfl
@[simp] theorem raiseFault_policy (c : Cause) (s : State) : (raiseFault c s).policy = s.policy := rfl
@[simp] theorem raiseFault_port (c : Cause) (s : State) : (raiseFault c s).port = s.port := rfl
@[simp] theorem raiseFault_host (c : Cause) (s : State) : (raiseFault c s).host = s.host := rfl
@[simp] theorem raiseFault_source (c : Cause) (s : State) : (raiseFault c s).source = s.source := rfl
@[simp] theorem raiseFault_trace (c : Cause) (s : State) : (raiseFault c s).trace = s.trace := rfl
@[simp] theorem raiseFault_received (c : Cause) (s : State) : (raiseFault c s).received = s.received := rfl
@[simp] theorem raiseFault_draws (c : Cause) (s : State) : (raiseFault c s).draws = s.draws := rfl

/-! ### `startComputation`: the state INIT leaves (10 R36) -/

@[simp] theorem startComputation_hash (s : State) : (startComputation s).hash = some IV := rfl
@[simp] theorem startComputation_vars (s : State) : (startComputation s).vars = none := rfl
@[simp] theorem startComputation_sched (s : State) : (startComputation s).sched = none := rfl
@[simp] theorem startComputation_buf (s : State) : (startComputation s).buf = none := rfl
@[simp] theorem startComputation_bitlen (s : State) : (startComputation s).bitlen = some 0 := rfl
@[simp] theorem startComputation_pad (s : State) : (startComputation s).pad = .notPadded := rfl
@[simp] theorem startComputation_drv (s : State) : (startComputation s).drv = .running := rfl
@[simp] theorem startComputation_phase (s : State) : (startComputation s).phase = .idle := rfl
@[simp] theorem startComputation_rnd (s : State) : (startComputation s).rnd = 0 := rfl
@[simp] theorem startComputation_busy (s : State) : (startComputation s).busy = s.busy := rfl
@[simp] theorem startComputation_cause (s : State) : (startComputation s).cause = .none := rfl
@[simp] theorem startComputation_waiting (s : State) : (startComputation s).waiting = s.waiting := rfl
@[simp] theorem startComputation_policy (s : State) : (startComputation s).policy = s.policy := rfl
@[simp] theorem startComputation_port (s : State) : (startComputation s).port = s.port := rfl
@[simp] theorem startComputation_host (s : State) : (startComputation s).host = s.host := rfl
@[simp] theorem startComputation_source (s : State) : (startComputation s).source = s.source := rfl
@[simp] theorem startComputation_trace (s : State) : (startComputation s).trace = s.trace := rfl
@[simp] theorem startComputation_received (s : State) : (startComputation s).received = [] := rfl
@[simp] theorem startComputation_draws (s : State) : (startComputation s).draws = s.draws := rfl

/-! ### `hardReset`: hardware reset (70 R158) -/

@[simp] theorem hardReset_hash (s : State) : (hardReset s).hash = none := rfl
@[simp] theorem hardReset_vars (s : State) : (hardReset s).vars = none := rfl
@[simp] theorem hardReset_sched (s : State) : (hardReset s).sched = none := rfl
@[simp] theorem hardReset_buf (s : State) : (hardReset s).buf = none := rfl
@[simp] theorem hardReset_bitlen (s : State) : (hardReset s).bitlen = none := rfl
@[simp] theorem hardReset_pad (s : State) : (hardReset s).pad = .notPadded := rfl
@[simp] theorem hardReset_drv (s : State) : (hardReset s).drv = .uninit := rfl
@[simp] theorem hardReset_phase (s : State) : (hardReset s).phase = .idle := rfl
@[simp] theorem hardReset_rnd (s : State) : (hardReset s).rnd = 0 := rfl
@[simp] theorem hardReset_busy (s : State) : (hardReset s).busy = false := rfl
@[simp] theorem hardReset_cause (s : State) : (hardReset s).cause = .none := rfl
@[simp] theorem hardReset_waiting (s : State) : (hardReset s).waiting = none := rfl
@[simp] theorem hardReset_policy (s : State) : (hardReset s).policy = s.policy := rfl
@[simp] theorem hardReset_port (s : State) : (hardReset s).port = s.port := rfl
@[simp] theorem hardReset_host (s : State) : (hardReset s).host = s.host := rfl
@[simp] theorem hardReset_source (s : State) : (hardReset s).source = s.source := rfl
@[simp] theorem hardReset_trace (s : State) : (hardReset s).trace = s.trace := rfl
@[simp] theorem hardReset_received (s : State) : (hardReset s).received = [] := rfl
@[simp] theorem hardReset_draws (s : State) : (hardReset s).draws = s.draws := rfl

/-! ### `note`: a port shows an event (10 R32) -/

@[simp] theorem note_hash (e : PortEvent) (s : State) : (note e s).hash = s.hash := rfl
@[simp] theorem note_vars (e : PortEvent) (s : State) : (note e s).vars = s.vars := rfl
@[simp] theorem note_sched (e : PortEvent) (s : State) : (note e s).sched = s.sched := rfl
@[simp] theorem note_buf (e : PortEvent) (s : State) : (note e s).buf = s.buf := rfl
@[simp] theorem note_bitlen (e : PortEvent) (s : State) : (note e s).bitlen = s.bitlen := rfl
@[simp] theorem note_pad (e : PortEvent) (s : State) : (note e s).pad = s.pad := rfl
@[simp] theorem note_drv (e : PortEvent) (s : State) : (note e s).drv = s.drv := rfl
@[simp] theorem note_phase (e : PortEvent) (s : State) : (note e s).phase = s.phase := rfl
@[simp] theorem note_rnd (e : PortEvent) (s : State) : (note e s).rnd = s.rnd := rfl
@[simp] theorem note_busy (e : PortEvent) (s : State) : (note e s).busy = s.busy := rfl
@[simp] theorem note_cause (e : PortEvent) (s : State) : (note e s).cause = s.cause := rfl
@[simp] theorem note_waiting (e : PortEvent) (s : State) : (note e s).waiting = s.waiting := rfl
@[simp] theorem note_policy (e : PortEvent) (s : State) : (note e s).policy = s.policy := rfl
@[simp] theorem note_port (e : PortEvent) (s : State) : (note e s).port = s.port := rfl
@[simp] theorem note_host (e : PortEvent) (s : State) : (note e s).host = s.host := rfl
@[simp] theorem note_source (e : PortEvent) (s : State) : (note e s).source = s.source := rfl
@[simp] theorem note_trace (e : PortEvent) (s : State) : (note e s).trace = e :: s.trace := rfl
@[simp] theorem note_received (e : PortEvent) (s : State) : (note e s).received = s.received := rfl
@[simp] theorem note_draws (e : PortEvent) (s : State) : (note e s).draws = s.draws := rfl

/-! ### `noteRequests`: requests issued again (41 R87) -/

@[simp] theorem noteRequests_hash (k : Nat) (s : State) : (noteRequests k s).hash = s.hash := rfl
@[simp] theorem noteRequests_vars (k : Nat) (s : State) : (noteRequests k s).vars = s.vars := rfl
@[simp] theorem noteRequests_sched (k : Nat) (s : State) : (noteRequests k s).sched = s.sched := rfl
@[simp] theorem noteRequests_buf (k : Nat) (s : State) : (noteRequests k s).buf = s.buf := rfl
@[simp] theorem noteRequests_bitlen (k : Nat) (s : State) : (noteRequests k s).bitlen = s.bitlen := rfl
@[simp] theorem noteRequests_pad (k : Nat) (s : State) : (noteRequests k s).pad = s.pad := rfl
@[simp] theorem noteRequests_drv (k : Nat) (s : State) : (noteRequests k s).drv = s.drv := rfl
@[simp] theorem noteRequests_phase (k : Nat) (s : State) : (noteRequests k s).phase = s.phase := rfl
@[simp] theorem noteRequests_rnd (k : Nat) (s : State) : (noteRequests k s).rnd = s.rnd := rfl
@[simp] theorem noteRequests_busy (k : Nat) (s : State) : (noteRequests k s).busy = s.busy := rfl
@[simp] theorem noteRequests_cause (k : Nat) (s : State) : (noteRequests k s).cause = s.cause := rfl
@[simp] theorem noteRequests_waiting (k : Nat) (s : State) : (noteRequests k s).waiting = s.waiting := rfl
@[simp] theorem noteRequests_policy (k : Nat) (s : State) : (noteRequests k s).policy = s.policy := rfl
@[simp] theorem noteRequests_port (k : Nat) (s : State) : (noteRequests k s).port = s.port := rfl
@[simp] theorem noteRequests_host (k : Nat) (s : State) : (noteRequests k s).host = s.host := rfl
@[simp] theorem noteRequests_source (k : Nat) (s : State) : (noteRequests k s).source = s.source := rfl
@[simp] theorem noteRequests_trace (k : Nat) (s : State) : (noteRequests k s).trace = List.replicate k .readRequest ++ s.trace := rfl
@[simp] theorem noteRequests_received (k : Nat) (s : State) : (noteRequests k s).received = s.received := rfl
@[simp] theorem noteRequests_draws (k : Nat) (s : State) : (noteRequests k s).draws = s.draws := rfl

/-! ### `readStatus`: the host reads the status word (10 R32) -/

@[simp] theorem readStatus_hash (s : State) : (readStatus s).hash = s.hash := rfl
@[simp] theorem readStatus_vars (s : State) : (readStatus s).vars = s.vars := rfl
@[simp] theorem readStatus_sched (s : State) : (readStatus s).sched = s.sched := rfl
@[simp] theorem readStatus_buf (s : State) : (readStatus s).buf = s.buf := rfl
@[simp] theorem readStatus_bitlen (s : State) : (readStatus s).bitlen = s.bitlen := rfl
@[simp] theorem readStatus_pad (s : State) : (readStatus s).pad = s.pad := rfl
@[simp] theorem readStatus_drv (s : State) : (readStatus s).drv = s.drv := rfl
@[simp] theorem readStatus_phase (s : State) : (readStatus s).phase = s.phase := rfl
@[simp] theorem readStatus_rnd (s : State) : (readStatus s).rnd = s.rnd := rfl
@[simp] theorem readStatus_busy (s : State) : (readStatus s).busy = s.busy := rfl
@[simp] theorem readStatus_cause (s : State) : (readStatus s).cause = s.cause := rfl
@[simp] theorem readStatus_waiting (s : State) : (readStatus s).waiting = s.waiting := rfl
@[simp] theorem readStatus_policy (s : State) : (readStatus s).policy = s.policy := rfl
@[simp] theorem readStatus_port (s : State) : (readStatus s).port = s.port := rfl
@[simp] theorem readStatus_host (s : State) : (readStatus s).host = s.host := rfl
@[simp] theorem readStatus_source (s : State) : (readStatus s).source = s.source := rfl
@[simp] theorem readStatus_trace (s : State) : (readStatus s).trace = .status s.shownStatus :: s.trace := rfl
@[simp] theorem readStatus_received (s : State) : (readStatus s).received = s.received := rfl
@[simp] theorem readStatus_draws (s : State) : (readStatus s).draws = s.draws + 1 := rfl

/-- With `busy` already 0, completing changes nothing. -/
theorem complete_of_not_busy {s : State} (h : s.busy = false) : complete s = s := by
  cases s; cases h; rfl

/-! ### `showWords`: status reads in the middle of an action (70 R167) -/

@[simp] theorem showWords_hash (words : List Word) (s : State) : (showWords words s).hash = s.hash := rfl
@[simp] theorem showWords_vars (words : List Word) (s : State) : (showWords words s).vars = s.vars := rfl
@[simp] theorem showWords_sched (words : List Word) (s : State) : (showWords words s).sched = s.sched := rfl
@[simp] theorem showWords_buf (words : List Word) (s : State) : (showWords words s).buf = s.buf := rfl
@[simp] theorem showWords_bitlen (words : List Word) (s : State) : (showWords words s).bitlen = s.bitlen := rfl
@[simp] theorem showWords_pad (words : List Word) (s : State) : (showWords words s).pad = s.pad := rfl
@[simp] theorem showWords_drv (words : List Word) (s : State) : (showWords words s).drv = s.drv := rfl
@[simp] theorem showWords_phase (words : List Word) (s : State) : (showWords words s).phase = s.phase := rfl
@[simp] theorem showWords_rnd (words : List Word) (s : State) : (showWords words s).rnd = s.rnd := rfl
@[simp] theorem showWords_busy (words : List Word) (s : State) : (showWords words s).busy = s.busy := rfl
@[simp] theorem showWords_cause (words : List Word) (s : State) : (showWords words s).cause = s.cause := rfl
@[simp] theorem showWords_waiting (words : List Word) (s : State) : (showWords words s).waiting = s.waiting := rfl
@[simp] theorem showWords_policy (words : List Word) (s : State) : (showWords words s).policy = s.policy := rfl
@[simp] theorem showWords_port (words : List Word) (s : State) : (showWords words s).port = s.port := rfl
@[simp] theorem showWords_host (words : List Word) (s : State) : (showWords words s).host = s.host := rfl
@[simp] theorem showWords_source (words : List Word) (s : State) : (showWords words s).source = s.source := rfl
@[simp] theorem showWords_trace (words : List Word) (s : State) : (showWords words s).trace = words.map .status ++ s.trace := rfl
@[simp] theorem showWords_received (words : List Word) (s : State) : (showWords words s).received = s.received := rfl
@[simp] theorem showWords_draws (words : List Word) (s : State) : (showWords words s).draws = s.draws + words.length := rfl

/-! ### `abandonAt`: hardware reset in the middle of an action (70 R159) -/

@[simp] theorem abandonAt_hash (m : Nat) (s t : State) : (abandonAt m s t).hash = none := rfl
@[simp] theorem abandonAt_vars (m : Nat) (s t : State) : (abandonAt m s t).vars = none := rfl
@[simp] theorem abandonAt_sched (m : Nat) (s t : State) : (abandonAt m s t).sched = none := rfl
@[simp] theorem abandonAt_buf (m : Nat) (s t : State) : (abandonAt m s t).buf = none := rfl
@[simp] theorem abandonAt_bitlen (m : Nat) (s t : State) : (abandonAt m s t).bitlen = none := rfl
@[simp] theorem abandonAt_pad (m : Nat) (s t : State) : (abandonAt m s t).pad = .notPadded := rfl
@[simp] theorem abandonAt_drv (m : Nat) (s t : State) : (abandonAt m s t).drv = .uninit := rfl
@[simp] theorem abandonAt_phase (m : Nat) (s t : State) : (abandonAt m s t).phase = .idle := rfl
@[simp] theorem abandonAt_rnd (m : Nat) (s t : State) : (abandonAt m s t).rnd = 0 := rfl
@[simp] theorem abandonAt_busy (m : Nat) (s t : State) : (abandonAt m s t).busy = false := rfl
@[simp] theorem abandonAt_cause (m : Nat) (s t : State) : (abandonAt m s t).cause = .none := rfl
@[simp] theorem abandonAt_waiting (m : Nat) (s t : State) : (abandonAt m s t).waiting = none := rfl
@[simp] theorem abandonAt_policy (m : Nat) (s t : State) : (abandonAt m s t).policy = t.policy := rfl
@[simp] theorem abandonAt_port (m : Nat) (s t : State) : (abandonAt m s t).port = t.port := rfl
@[simp] theorem abandonAt_host (m : Nat) (s t : State) : (abandonAt m s t).host = t.host := rfl
@[simp] theorem abandonAt_received (m : Nat) (s t : State) : (abandonAt m s t).received = [] := rfl
@[simp] theorem abandonAt_draws (m : Nat) (s t : State) : (abandonAt m s t).draws = t.draws := rfl

end Sys2Proof.Machine
end

