-- ==== Sys2Proof/Laws/Ops.lean ====
section
/-! SUPPORT. One lemma per shared operation that says all it can do, cited instead of unfolding it. -/

namespace Sys2Proof.Machine

/-! ## Chaining and ending -/

@[simp] theorem flow_bind_ok (s : State) (k : State → Flow) : (Flow.ok s).bind k = k s := rfl
@[simp] theorem flow_bind_stop (s : State) (k : State → Flow) : (Flow.stop s).bind k = .stop s := rfl
@[simp] theorem flow_bind_unwritten (e : Element) (k : State → Flow) : (Flow.unwritten e).bind k = .unwritten e := rfl
@[simp] theorem flow_outcome_ok (s : State) : (Flow.ok s).outcome = .next (complete s) := rfl
@[simp] theorem flow_outcome_stop (s : State) : (Flow.stop s).outcome = .next s := rfl
@[simp] theorem flow_outcome_unwritten (e : Element) : (Flow.unwritten e).outcome = .fault (.unwrittenRead e) := rfl

theorem flow_bind_assoc (r : Flow) (f g : State → Flow) : (r.bind f).bind g = r.bind fun s => (f s).bind g := by
  cases r <;> rfl

/-- A chain completes only through both its operations. -/
theorem flow_bind_eq_ok {r : Flow} {k : State → Flow} {t : State} :
    r.bind k = .ok t ↔ ∃ s, r = .ok s ∧ k s = .ok t := by
  cases r <;> simp

/-- A chain ends early in its first operation or in its second. -/
theorem flow_bind_eq_stop {r : Flow} {k : State → Flow} {t : State} :
    r.bind k = .stop t ↔ r = .stop t ∨ ∃ s, r = .ok s ∧ k s = .stop t := by
  cases r <;> simp

/-- A chain reads `⊥` in its first operation or in its second. -/
theorem flow_bind_eq_unwritten {r : Flow} {k : State → Flow} {e : Element} :
    r.bind k = .unwritten e ↔ r = .unwritten e ∨ ∃ s, r = .ok s ∧ k s = .unwritten e := by
  cases r <;> simp

/-- How a command's flow ends in a next state. -/
theorem flow_outcome_eq_next {r : Flow} {t : State} :
    r.outcome = .next t ↔ (∃ s, r = .ok s ∧ t = complete s) ∨ r = .stop t := by
  cases r <;> simp [eq_comm]

/-- A flow never ends in a refusal. -/
theorem flow_outcome_ne_refused (r : Flow) (q : Refusal) : r.outcome ≠ .refused q := by
  cases r <;> simp

/-! ## Acceptance -/

/-- INIT is performed in every state (44 R120). -/
@[simp] theorem acceptance_init (s : State) : acceptance .init s = .perform := by
  unfold acceptance
  cases s.drv <;> rfl

/-- In `Failed` everything but INIT is skipped (60 R139). -/
theorem acceptance_failed {i : Instr} {s : State} (h : s.drv = .failed) (hi : i ≠ .init) :
    acceptance i s = .skip := by
  simp [acceptance, h, hi]

/-- In `Uninit` everything but INIT raises `NOT_INITIALIZED` (60 R136). -/
theorem acceptance_uninit {i : Instr} {s : State} (h : s.drv = .uninit) (hi : i ≠ .init) :
    acceptance i s = .raise .notInitialized := by
  simp [acceptance, h, hi]

theorem acceptance_done {i : Instr} {s : State} (h : s.drv = .done) : acceptance i s = acceptDone i := by
  simp [acceptance, h]

theorem acceptance_running {i : Instr} {s : State} (h : s.drv = .running) : acceptance i s = acceptRunning i s := by
  simp [acceptance, h]

@[simp] theorem require_eq_perform {b : Bool} : require b = .perform ↔ b = true := by
  cases b <;> simp [require]

@[simp] theorem require_true : require true = .perform := rfl
@[simp] theorem require_false : require false = .raise .sequence := rfl

theorem require_ne_skip (b : Bool) : require b ≠ .skip := by
  cases b <;> simp [require]

/-- What a command taken from the port does, case by case (60 R136). -/
theorem commanded_cases (i : Instr) (op : State → Flow) (s : State) :
    (acceptance i s = .perform ∧ commanded i op s = (op { s with busy := true }).outcome) ∨
    (acceptance i s = .skip ∧ commanded i op s = .next (complete s)) ∨
    (∃ c, acceptance i s = .raise c ∧ commanded i op s = .next (raiseFault c s)) := by
  unfold commanded
  cases acceptance i s <;> simp

theorem commanded_perform {i : Instr} {op : State → Flow} {s : State} (h : acceptance i s = .perform) :
    commanded i op s = (op { s with busy := true }).outcome := by
  simp [commanded, h]

theorem commanded_skip {i : Instr} {op : State → Flow} {s : State} (h : acceptance i s = .skip) :
    commanded i op s = .next (complete s) := by
  simp [commanded, h]

theorem commanded_raise {i : Instr} {op : State → Flow} {s : State} {c : Cause} (h : acceptance i s = .raise c) :
    commanded i op s = .next (raiseFault c s) := by
  simp [commanded, h]

/-! ## The byte source -/

/-- One retry before the rest (41 R87). -/
@[simp] theorem retried_ending (r : ReadResult) : r.retried.ending = r.ending := rfl
@[simp] theorem retried_rest (r : ReadResult) : r.retried.rest = r.rest := rfl
@[simp] theorem retried_retries (r : ReadResult) : r.retried.retries = r.retries + 1 := rfl

/-- `AcceptedRead` only takes entries from the front of the script. -/
theorem acceptedRead_rest_suffix (p : InterruptPolicy) (l : List SourceEvent) :
    (acceptedRead p l).rest <:+ l := by
  induction l with
  | nil => exact List.suffix_rfl
  | cons e l ih =>
    cases e with
    | delay => exact List.suffix_cons ..
    | late a => exact ih.trans (List.suffix_cons ..)
    | answer a =>
      simp only [acceptedRead]
      split <;> try exact List.suffix_cons ..
      split
      · exact ih.trans (List.suffix_cons ..)
      · exact List.suffix_cons ..

/-- An answer that ends `AcceptedRead` was taken from the script. -/
theorem acceptedRead_rest_lt {p : InterruptPolicy} {l : List SourceEvent} (h : (acceptedRead p l).ending ≠ .wait) :
    (acceptedRead p l).rest.length < l.length := by
  induction l with
  | nil => exact absurd rfl h
  | cons e l ih =>
    cases e with
    | delay => exact absurd rfl h
    | late a => exact (ih h).trans (by simp)
    | answer a =>
      revert h
      simp only [acceptedRead]
      split <;> try simp
      split
      · intro h; simpa using (ih h).le
      · simp

/-- The faults a byte source's answer can raise (60 R138). -/
theorem acceptedRead_raise {p : InterruptPolicy} {l : List SourceEvent} {c : Cause}
    (h : (acceptedRead p l).ending = .raise c) :
    c = .ioError ∨ c = .sourceContract ∨ (c = .ioInterrupted ∧ p = .abort) := by
  induction l with
  | nil => exact absurd h (by simp [acceptedRead])
  | cons e l ih =>
    cases e with
    | delay => exact absurd h (by simp [acceptedRead])
    | late a => exact ih h
    | answer a =>
      revert h
      simp only [acceptedRead]
      split <;> try (intro h; simp_all)
      split
      · simpa using ih
      · simpa [eq_comm] using fun h => Or.inr (Or.inr h)

/-- All the outstanding request can come to (41 R87): the chunk is stored, the fault of the answer, or the wait. -/
theorem receive_cases (who : Waiter) (s : State) :
    let r := acceptedRead s.policy s.source
    let s' := noteRequests r.retries { s with source := r.rest }
    (∃ n lane, r.ending = .data n lane ∧ receive who s = storeChunk n lane { s' with waiting := none }) ∨
    (∃ c, r.ending = .raise c ∧ receive who s = .stop (raiseFault c { s' with waiting := none })) ∨
    (r.ending = .wait ∧ receive who s = .stop { s' with waiting := some who }) := by
  intro r s'
  unfold receive
  rcases h : r.ending with ⟨n, lane⟩ | c | _
  · exact .inl ⟨n, lane, rfl, by simp only [r] at h; simp only [h, s', r]⟩
  · exact .inr (.inl ⟨c, rfl, by simp only [r] at h; simp only [h, s', r]⟩)
  · exact .inr (.inr ⟨rfl, by simp only [r] at h; simp only [h, s', r]⟩)

/-! ## The block operations on elements that hold a value -/

theorem storeChunk_some {n : Fin 65} {lane : Block} {s : State} {l : BitVec 64} (h : s.bitlen = some l) :
    storeChunk n lane s = .ok { s with
      buf := some (chunkBlock n lane (addBits l n.val)), bitlen := some (addBits l n.val), pad := chunkPad n
      phase := .block, received := s.received ++ rawBytes n lane } := by
  simp [storeChunk, h]

theorem readBlock_notPadded {who : Waiter} {s : State} (h : s.pad = .notPadded) :
    readBlock who s = receive who (note .readRequest s) := by
  simp [readBlock, h]

theorem readBlock_terminatorPlaced {who : Waiter} {s : State} {l : BitVec 64} (h : s.pad = .terminatorPlaced)
    (hl : s.bitlen = some l) :
    readBlock who s = .ok { s with buf := some (lengthBlock l), pad := .lengthWritten, phase := .block } := by
  simp [readBlock, h, hl]

theorem expandBlock_some {s : State} {b : Block} (h : s.buf = some b) :
    expandBlock s = .ok { s with sched := some (expandSchedule b), phase := .sched } := by
  simp [expandBlock, h]

theorem loadVars_some {s : State} {hash : HashState} (h : s.hash = some hash) :
    loadVars s = .ok { s with vars := some (varsOf hash), rnd := 0, phase := .rounds } := by
  simp [loadVars, h]

theorem roundStep_some {s : State} {v : Vars} {w : Schedule} (hv : s.vars = some v) (hw : s.sched = some w)
    (ht : s.rnd.val < 64) :
    roundStep s = .ok { s with
      vars := some (roundVars K[s.rnd.val] w[s.rnd.val] v), rnd := ⟨s.rnd.val + 1, by omega⟩ } := by
  simp [roundStep, hv, hw, ht]

theorem foldBlock_some {s : State} {hash : HashState} {v : Vars} (h : s.hash = some hash) (hv : s.vars = some v) :
    foldBlock s = .ok { s with
      hash := some (foldHash hash v), phase := .idle, rnd := 0, sched := none, vars := none
      drv := if s.pad = .lengthWritten then .done else s.drv } := by
  simp [foldBlock, h, hv]

theorem digestWrite_some {s : State} {hash : HashState} (h : s.hash = some hash) :
    digestWrite s = .ok (note (.digest (digestBytes hash)) s) := by
  simp [digestWrite, h]

/-! ## The rounds and the whole block -/

theorem roundsFrom_succ (w : Schedule) (v : Vars) (n : Nat) :
    roundsFrom w v (n + 1) = roundVars (K.getD n 0) (w.getD n 0) (roundsFrom w v n) := rfl

/-- `n` more rounds from round `t` on are the rounds of the reference (43 R110). -/
theorem roundSteps_some {v : Vars} {w : Schedule} (n : Nat) :
    ∀ (s : State) (_ : s.vars = some (roundsFrom w v s.rnd.val)) (_ : s.sched = some w)
      (hn : s.rnd.val + n < 65),
      roundSteps n s = .ok { s with
        vars := some (roundsFrom w v (s.rnd.val + n)), rnd := ⟨s.rnd.val + n, hn⟩ } := by
  induction n with
  | zero => intro s hv _ _; cases s; simp_all [roundSteps]
  | succ n ih =>
    intro s hv hw hn
    have ht : s.rnd.val < 64 := by omega
    rw [roundSteps, roundStep_some hv hw ht, flow_bind_ok, ih]
    · simp only [Flow.ok.injEq, State.mk.injEq, true_and, and_true]
      refine ⟨?_, ?_⟩
      · congr 2; omega
      · ext; simp; omega
    · simp [roundsFrom_succ, Vector.getD, ht]
    · exact hw
    · simp; omega

/-- Rounds without a schedule read `⊥` at once. -/
theorem roundSteps_no_sched {s : State} {v : Vars} (n : Nat) (hv : s.vars = some v) (hw : s.sched = none)
    (ht : s.rnd.val < 64) : roundSteps (n + 1) s = .unwritten .sched := by
  simp [roundSteps, roundStep, hv, hw, ht]

/-- COMPRESS's operation as one update (43 R113). -/
theorem compressBlock_some {s : State} {hash : HashState} {w : Schedule} (h : s.hash = some hash)
    (hw : s.sched = some w) :
    compressBlock s = .ok { s with
      hash := some (hashSchedule hash w), phase := .idle, rnd := 0, sched := none, vars := none
      drv := if s.pad = .lengthWritten then .done else s.drv } := by
  rw [compressBlock, loadVars_some h, flow_bind_ok,
    roundSteps_some (v := varsOf hash) (w := w) 64 _ (by simp [roundsFrom]) (by simpa using hw) (by simp),
    flow_bind_ok, foldBlock_some (hash := hash) (v := roundsFrom w (varsOf hash) 64) (by simpa using h) (by simp)]
  rfl

/-- EXPAND and COMPRESS on a block as one update (44 R122). -/
theorem processBlock_some {s : State} {hash : HashState} {b : Block} (h : s.hash = some hash) (hb : s.buf = some b) :
    processBlock s = .ok { s with
      hash := some (hashBlock hash b), phase := .idle, rnd := 0, sched := none, vars := none
      drv := if s.pad = .lengthWritten then .done else s.drv } := by
  rw [processBlock, expandBlock_some hb, flow_bind_ok, compressBlock_some (s := { s with sched := some (expandSchedule b), phase := .sched }) h rfl]
  rfl

/-! ## The driver's loop -/

theorem runLoop_not_running {n : Nat} {folded : Bool} {s : State} (h : s.drv ≠ .running) :
    runLoop n folded s = .ok s := by
  cases n <;> simp [runLoop, h]

theorem runLoop_running {n : Nat} {folded : Bool} {s : State} (h : s.drv = .running) :
    runLoop (n + 1) folded s = (driverStep (.run folded) s).bind (runLoop n true) := by
  simp [runLoop, h]

/-! ## One step of the system -/

theorem acceptInput_word {p : PortInput} {s : State} {w : Word} {i : Instr} (hw : p.word? = some w)
    (hi : decode w = .ok i) : acceptInput p s = exec i s := by
  simp [acceptInput, hw, hi]

theorem acceptInput_illegal {p : PortInput} {s : State} {w : Word} {e : DecodeError} (hw : p.word? = some w)
    (he : decode w = .error e) : acceptInput p s = .next (illegalWord s) := by
  simp [acceptInput, hw, he]

theorem acceptInput_refused {p : PortInput} {s : State} (hw : p.word? = none) :
    acceptInput p s = .refused .notACommandWord := by
  simp [acceptInput, hw]

/-- All the core can do on its own: take an input, go on with a command, or wait. -/
theorem coreTurn_cases (s : State) :
    (∃ p, s.busy = false ∧ s.port = some p ∧ coreTurn s = acceptInput p { s with port := none }) ∨
    (∃ who, s.busy = true ∧ s.waiting = some who ∧ coreTurn s = (resume who s).outcome) ∨
    (s.active = false ∧ coreTurn s = .next s) := by
  unfold coreTurn State.active
  rcases s.busy with _ | _ <;> rcases s.port with _ | p <;> rcases s.waiting with _ | who <;> simp

theorem coreTurn_accepts {s : State} {p : PortInput} (hb : s.busy = false) (hp : s.port = some p) :
    coreTurn s = acceptInput p { s with port := none } := by
  simp [coreTurn, hb, hp]

theorem coreTurn_resumes {s : State} {who : Waiter} (hb : s.busy = true) (hw : s.waiting = some who) :
    coreTurn s = (resume who s).outcome := by
  simp [coreTurn, hb, hw]

@[simp] theorem wordsDuring_length (k : Nat) (s t : State) : (wordsDuring k s t).length = k := by
  simp [wordsDuring]

/-- Every word such a read shows is a status of the action, for some draw. -/
theorem mem_wordsDuring {k : Nat} {s t : State} {w : Word} (h : w ∈ wordsDuring k s t) :
    ∃ n, w = statusDuring n (actionCompressed s t) s t := by
  obtain ⟨i, -, rfl⟩ := List.mem_map.1 h
  exact ⟨t.draws + i, rfl⟩

/-- The reads at the head of the host's moves, counted. -/
theorem duringAction_reads (k : Nat) (rest : List HostMove) :
    duringAction (List.replicate k .readDuring ++ rest) =
      { duringAction rest with reads := (duringAction rest).reads + k } := by
  induction k with
  | zero => rfl
  | succ k ih => simp [List.replicate_succ, duringAction, ih, Nat.add_assoc]

/-- A script loses entries from its front only. -/
theorem dropAnswers_suffix : ∀ (l : List SourceEvent) (n : Nat), dropAnswers l n <:+ l
  | [], _ => List.suffix_rfl
  | _ :: _, 0 => List.suffix_rfl
  | .answer _ :: rest, n + 1 => (dropAnswers_suffix rest n).trans (List.suffix_cons ..)
  | .delay :: rest, n + 1 => (dropAnswers_suffix rest (n + 1)).trans (List.suffix_cons ..)
  | .late _ :: rest, n + 1 => (dropAnswers_suffix rest (n + 1)).trans (List.suffix_cons ..)

@[simp] theorem lastHeld_none (s t : State) : lastHeld none s t = t := rfl
@[simp] theorem cutShort_none (s t : State) : cutShort none s t = t := rfl
@[simp] theorem cutShort_some (m : Nat) (s t : State) : cutShort (some m) s t = abandonAt m s t := rfl

/-- Before its fault an action shows none. -/
theorem beforeFault_cases (s t : State) :
    (t.drv = .failed ∧ beforeFault s t = { t with drv := s.drv, cause := s.cause, busy := true }) ∨
    (t.drv ≠ .failed ∧ beforeFault s t = t) := by
  unfold beforeFault
  split <;> simp [*]

/-- What a read before a reset may last show: where the action with the answers taken by then has come. -/
theorem lastHeld_some {m : Nat} {s t u : State}
    (h : coreTurn { s with host := [], source := takeAnswers s.source (answersTaken m s t) } = .next u) :
    lastHeld (some m) s t = beforeFault s u := by
  simp [lastHeld, h]

/-- A script is its first `n` answers and the rest. -/
theorem takeAnswers_append_dropAnswers (l : List SourceEvent) (n : Nat) :
    takeAnswers l n ++ dropAnswers l n = l := by
  obtain ⟨pre, h⟩ := dropAnswers_suffix l n
  have hl : pre.length = l.length - (dropAnswers l n).length := by
    have := congrArg List.length h
    simp at this
    omega
  unfold takeAnswers
  rw [← hl]
  nth_rewrite 1 [← h]
  rw [List.take_left, h]

/-- All an action with the host in the middle of it can do. -/
theorem interleaved_cases (s : State) :
    let d := duringAction s.host
    (∃ t, coreTurn { s with host := d.rest } = .next t ∧
      interleaved s = .next (showWords (wordsDuring d.reads s (lastHeld d.reset s t)) (cutShort d.reset s t))) ∨
    ((∀ t, coreTurn { s with host := d.rest } ≠ .next t) ∧ interleaved s = coreTurn { s with host := d.rest }) := by
  intro d
  unfold interleaved
  cases h : coreTurn { s with host := d.rest } with
  | next t => exact .inl ⟨t, rfl, rfl⟩
  | fault f => exact .inr ⟨by simp, rfl⟩
  | refused q => exact .inr ⟨by simp, rfl⟩

/-- All a step can be (60 R154). -/
theorem cycle_cases (s : State) :
    (∃ rest, s.host = .reset :: rest ∧ cycle s = .next (hardReset { s with host := rest })) ∨
    (∃ rest, s.host = .readStatus :: rest ∧ cycle s = .next (readStatus { s with host := rest })) ∨
    (∃ p rest, s.host = .issue p :: rest ∧ s.port = none ∧
      cycle s = .next { s with port := some p, host := rest }) ∨
    (∃ rest, s.host = .pause :: rest ∧ cycle s = coreTurn { s with host := rest }) ∨
    (s.active = true ∧ ((∃ rest, s.host = .readDuring :: rest) ∨ ∃ m rest, s.host = .resetDuring m :: rest) ∧
      cycle s = interleaved s) ∨
    (s.active = false ∧ (∃ rest, s.host = .readDuring :: rest ∧ cycle s = .next (readStatus { s with host := rest }))) ∨
    (s.active = false ∧
      (∃ m rest, s.host = .resetDuring m :: rest ∧ cycle s = .next (hardReset { s with host := rest }))) ∨
    ((s.host = [] ∨ ∃ p rest, s.host = .issue p :: rest ∧ s.port.isSome = true) ∧ cycle s = coreTurn s) := by
  unfold cycle
  rcases s.host with _ | ⟨m, rest⟩
  · simp
  · rcases m with p | _ | _ | m | _ | _
    · rcases s.port with _ | q <;> simp
    · simp
    · simp
    · cases s.active <;> simp
    · cases s.active <;> simp
    · simp

/-- Where the host can do nothing the core acts. -/
theorem cycle_waits {s : State} (h : s.host = [] ∨ ∃ p rest, s.host = .issue p :: rest ∧ s.port.isSome = true) :
    cycle s = coreTurn s := by
  unfold cycle
  rcases h with h | ⟨p, rest, h, hp⟩
  · simp [h]
  · obtain ⟨q, hq⟩ := Option.isSome_iff_exists.1 hp
    simp [h, hq]

end Sys2Proof.Machine
end

