-- ==== Sys2Proof/Laws/Block.lean ====
section
/-! SUPPORT. What the operations of the block loop can do, once each: reading a block, processing it, and the driver's
loop, whose bound on STEPs never shows. -/

namespace Sys2Proof.Machine

/-! ## Reading a block -/

/-- A read that completes stored one chunk, and its answer was taken from the script. -/
theorem receive_eq_ok {who : Waiter} {s t : State} (h : receive who s = .ok t) :
    ∃ n lane l, (acceptedRead s.policy s.source).ending = .data n lane ∧ s.bitlen = some l ∧
      t = { s with
        source := (acceptedRead s.policy s.source).rest
        trace := List.replicate (acceptedRead s.policy s.source).retries .readRequest ++ s.trace
        waiting := none, buf := some (chunkBlock n lane (addBits l n.val)), bitlen := some (addBits l n.val)
        pad := chunkPad n, phase := .block, received := s.received ++ rawBytes n lane } := by
  rcases receive_cases who s with ⟨n, lane, he, hr⟩ | ⟨c, _, hr⟩ | ⟨_, hr⟩ <;> rw [hr] at h
  · rcases hl : s.bitlen with _ | l
    · simp [storeChunk, hl] at h
    · rw [storeChunk_some (l := l) (by simpa using hl)] at h
      exact ⟨n, lane, l, he, rfl, by simpa using h.symm⟩
  · cases h
  · cases h

/-- A read that ends the command raised a fault of its answer, or waits. -/
theorem receive_eq_stop {who : Waiter} {s t : State} (h : receive who s = .stop t) :
    let r := acceptedRead s.policy s.source
    let s' := noteRequests r.retries { s with source := r.rest }
    (∃ c, r.ending = .raise c ∧ t = raiseFault c { s' with waiting := none }) ∨
    (r.ending = .wait ∧ t = { s' with waiting := some who }) := by
  rcases receive_cases who s with ⟨n, lane, _, hr⟩ | ⟨c, hc, hr⟩ | ⟨hw, hr⟩ <;> rw [hr] at h
  · unfold storeChunk at h
    split at h <;> cases h
  · exact .inl ⟨c, hc, by simpa using h.symm⟩
  · exact .inr ⟨hw, by simpa using h.symm⟩

/-- The only `⊥` a read can meet is `bitlen`'s. -/
theorem receive_eq_unwritten {who : Waiter} {s : State} {e : Element} (h : receive who s = .unwritten e) :
    s.bitlen = none := by
  rcases receive_cases who s with ⟨n, lane, _, hr⟩ | ⟨c, _, hr⟩ | ⟨_, hr⟩ <;> rw [hr] at h
  · rcases hl : s.bitlen with _ | l
    · rfl
    · rw [storeChunk_some (l := l) (by simpa using hl)] at h
      cases h
  · cases h
  · cases h

/-- RDBLK's algorithm completes in one of its three cases (41 R86). -/
theorem readBlock_eq_ok {who : Waiter} {s t : State} (h : readBlock who s = .ok t) :
    (s.pad = .notPadded ∧ receive who (note .readRequest s) = .ok t) ∨
    (∃ l, s.pad = .terminatorPlaced ∧ s.bitlen = some l ∧
      t = { s with buf := some (lengthBlock l), pad := .lengthWritten, phase := .block }) ∨
    (s.pad = .lengthWritten ∧ t = { s with phase := .block }) := by
  unfold readBlock at h
  split at h
  · exact .inl ⟨‹_›, h⟩
  · split at h
    · cases h
    · exact .inr (.inl ⟨_, ‹_›, ‹_›, by simpa using h.symm⟩)
  · exact .inr (.inr ⟨‹_›, by simpa using h.symm⟩)

/-- RDBLK's algorithm ends the command only through its read. -/
theorem readBlock_eq_stop {who : Waiter} {s t : State} (h : readBlock who s = .stop t) :
    s.pad = .notPadded ∧ receive who (note .readRequest s) = .stop t := by
  unfold readBlock at h
  split at h
  · exact ⟨‹_›, h⟩
  · split at h <;> cases h
  · cases h

/-- The only `⊥` RDBLK can meet is `bitlen`'s. -/
theorem readBlock_eq_unwritten {who : Waiter} {s : State} {e : Element} (h : readBlock who s = .unwritten e) :
    s.bitlen = none := by
  unfold readBlock at h
  split at h
  · simpa using receive_eq_unwritten h
  · split at h
    · assumption
    · cases h
  · cases h

/-! ## Processing a block -/

/-- COMPRESS's operation reads `H` and `W` and can do nothing but complete where both hold a value. -/
theorem compressBlock_cases (s : State) :
    (s.hash = none ∧ compressBlock s = .unwritten .hash) ∨
    (s.hash.isSome ∧ s.sched = none ∧ compressBlock s = .unwritten .sched) ∨
    (∃ h w, s.hash = some h ∧ s.sched = some w ∧ compressBlock s = .ok { s with
      hash := some (hashSchedule h w), phase := .idle, rnd := 0, sched := none, vars := none
      drv := if s.pad = .lengthWritten then .done else s.drv }) := by
  rcases hh : s.hash with _ | h
  · exact .inl ⟨rfl, by simp [compressBlock, loadVars, hh]⟩
  · rcases hw : s.sched with _ | w
    · refine .inr (.inl ⟨rfl, rfl, ?_⟩)
      rw [compressBlock, loadVars_some hh, flow_bind_ok,
        roundSteps_no_sched (v := varsOf h) 63 (by simp) (by simpa using hw) (by simp), flow_bind_unwritten]
    · exact .inr (.inr ⟨h, w, rfl, rfl, compressBlock_some hh hw⟩)

/-- EXPAND and COMPRESS on a block can do nothing but complete where `buf` and `H` hold a value. -/
theorem processBlock_cases (s : State) :
    ((s.hash = none ∨ s.buf = none) ∧ ∃ e, processBlock s = .unwritten e) ∨
    (∃ h b, s.hash = some h ∧ s.buf = some b ∧ processBlock s = .ok { s with
      hash := some (hashBlock h b), phase := .idle, rnd := 0, sched := none, vars := none
      drv := if s.pad = .lengthWritten then .done else s.drv }) := by
  cases hb : s.buf with
  | none => exact .inl ⟨.inr rfl, .buf, by simp [processBlock, expandBlock, hb]⟩
  | some b =>
    cases hh : s.hash with
    | none =>
      refine .inl ⟨.inl rfl, .hash, ?_⟩
      rw [processBlock, expandBlock_some hb, flow_bind_ok, compressBlock]
      simp [loadVars, hh]
    | some h => exact .inr ⟨h, b, rfl, rfl, hb ▸ processBlock_some hh hb⟩

theorem processBlock_eq_ok {s t : State} (h : processBlock s = .ok t) :
    ∃ hash b, s.hash = some hash ∧ s.buf = some b ∧ t = { s with
      hash := some (hashBlock hash b), phase := .idle, rnd := 0, sched := none, vars := none
      drv := if s.pad = .lengthWritten then .done else s.drv } := by
  rcases processBlock_cases s with ⟨_, e, he⟩ | ⟨hash, b, hh, hb, hr⟩
  · rw [he] at h; cases h
  · rw [hr] at h; exact ⟨hash, b, hh, hb, by simpa using h.symm⟩

theorem processBlock_ne_stop (s t : State) : processBlock s ≠ .stop t := by
  rcases processBlock_cases s with ⟨_, e, he⟩ | ⟨hash, b, _, _, hr⟩
  · simp [he]
  · simp [hr]

/-! ## The driver's loop -/

/-- A STEP of RUN that completes in `Running` used up an entry of the script, or wrote the length and ended the loop. -/
theorem driverStep_progress {who : Waiter} {s t : State} (h : driverStep who s = .ok t) :
    (t.source.length < s.source.length ∨ t.drv = .done) ∧ t.policy = s.policy := by
  rw [driverStep, flow_bind_eq_ok] at h
  obtain ⟨m, hr, hp⟩ := h
  obtain ⟨hash, b, -, -, rfl⟩ := processBlock_eq_ok hp
  rcases readBlock_eq_ok hr with ⟨-, hr⟩ | ⟨l, -, -, rfl⟩ | ⟨hpad, rfl⟩
  · obtain ⟨n, lane, l, he, -, rfl⟩ := receive_eq_ok hr
    rw [note_policy, note_source] at he
    exact ⟨.inl (acceptedRead_rest_lt (by simp [he])), rfl⟩
  · exact ⟨.inr (by simp), rfl⟩
  · exact ⟨.inr (by simp [hpad]), rfl⟩

/-- The bound on RUN's STEPs never shows: any two bounds above the script's length give the same. -/
theorem runLoop_bound_irrelevant :
    ∀ (n m : Nat) (folded : Bool) (s : State), s.source.length < n → s.source.length < m →
      runLoop n folded s = runLoop m folded s := by
  intro n
  induction n with
  | zero => intro m folded s h; omega
  | succ n ih =>
    intro m folded s hn hm
    obtain ⟨m, rfl⟩ : ∃ k, m = k + 1 := ⟨m - 1, by omega⟩
    by_cases hd : s.drv = .running
    · rw [runLoop_running hd, runLoop_running hd]
      rcases hs : driverStep (.run folded) s with t | t | e
      · rcases (driverStep_progress hs).1 with hl | hdone
        · exact ih m true t (by omega) (by omega)
        · simp [runLoop_not_running, hdone]
      · rfl
      · rfl
    · rw [runLoop_not_running hd, runLoop_not_running hd]

/-- One iteration of RUN's loop (44 R124). -/
theorem runToEnd_running {folded : Bool} {s : State} (h : s.drv = .running) :
    runToEnd folded s = (driverStep (.run folded) s).bind (runToEnd true) := by
  rw [runToEnd, runBound, runLoop_running h]
  rcases hs : driverStep (.run folded) s with t | t | e
  · rcases (driverStep_progress hs).1 with hl | hdone
    · exact runLoop_bound_irrelevant _ _ _ _ (by omega) (by simp [runBound])
    · simp [runToEnd, runLoop_not_running, hdone]
  · rfl
  · rfl

theorem runToEnd_not_running {folded : Bool} {s : State} (h : s.drv ≠ .running) : runToEnd folded s = .ok s :=
  runLoop_not_running h

/-- Induction over RUN's loop: what holds at its end, whichever way it ends, if each iteration brings it there or goes
on. -/
theorem runToEnd_induction {P : State → Prop} {Q : Flow → Prop}
    (running : ∀ (folded : Bool) (s : State), P s → s.drv = .running →
      (∃ t, driverStep (.run folded) s = .ok t ∧ P t) ∨
      ((∀ t, driverStep (.run folded) s ≠ .ok t) ∧ Q (driverStep (.run folded) s)))
    (ended : ∀ s, P s → s.drv ≠ .running → Q (.ok s)) :
    ∀ (n : Nat) (folded : Bool) (s : State), s.source.length < n → P s → Q (runToEnd folded s) := by
  intro n
  induction n with
  | zero => intro folded s h; omega
  | succ n ih =>
    intro folded s hn hP
    by_cases hd : s.drv = .running
    · rw [runToEnd_running hd]
      rcases running folded s hP hd with ⟨t, ht, hPt⟩ | ⟨hno, hQ⟩
      · rw [ht, flow_bind_ok]
        rcases (driverStep_progress ht).1 with hl | hdone
        · exact ih true t (by omega) hPt
        · rw [runToEnd_not_running (by simp [hdone])]
          exact ended t hPt (by simp [hdone])
      · rcases hs : driverStep (.run folded) s with t | t | e
        · exact absurd hs (hno t)
        · simpa [hs] using hQ
        · simpa [hs] using hQ
    · rw [runToEnd_not_running hd]
      exact ended s hP hd

end Sys2Proof.Machine
end

