-- ==== Sys2Proof/Laws/PerInstr.lean ====
section
/-! SUPPORT. The statements made of every command as syntax, one lemma per constructor (LAWS.json). -/

namespace Sys2Proof.Laws

/-- The command's word is a legal command word (30_encoding.md R58) and decodes to the command (R56, R59). -/
def RoundTrip.Statement (i : Instr) : Prop :=
  (Cmd.ofWord (encode i)).wellFormed = true ∧ decode (encode i) = .ok i

theorem RoundTrip.init : RoundTrip.Statement .init := ⟨by decide, by decide⟩
theorem RoundTrip.rdblk : RoundTrip.Statement .rdblk := ⟨by decide, by decide⟩
theorem RoundTrip.expand : RoundTrip.Statement .expand := ⟨by decide, by decide⟩
theorem RoundTrip.cinit : RoundTrip.Statement .cinit := ⟨by decide, by decide⟩
theorem RoundTrip.round : RoundTrip.Statement .round := ⟨by decide, by decide⟩
theorem RoundTrip.fold : RoundTrip.Statement .fold := ⟨by decide, by decide⟩
theorem RoundTrip.compress : RoundTrip.Statement .compress := ⟨by decide, by decide⟩
theorem RoundTrip.step : RoundTrip.Statement .step := ⟨by decide, by decide⟩
theorem RoundTrip.run : RoundTrip.Statement .run := ⟨by decide, by decide⟩
theorem RoundTrip.digest : RoundTrip.Statement .digest := ⟨by decide, by decide⟩

end Sys2Proof.Laws
end

