-- ==== Sys2Proof/Tests/Slice0.lean ====
section
/-! SUPPORT. The model's own tests. Every expected value is from spec/95_test_vectors.md (its vector is named) or from the
rule named; then one witness for each statement of Certificates/Slice0/Obligations.lean that has hypotheses. -/

namespace Sys2Proof.Tests

open Sys2Proof Sys2Proof.Machine

/-! ## Small states -/

/-- After INIT (95_test_vectors.md, conventions), under `Retry`. -/
def started : State := { State.reset with policy := .retry, drv := .running, hash := some IV, bitlen := some 0 }

/-- 64 bytes of 61. -/
def letters : Block := Vector.replicate 64 0x61

/-- A `Data` answer of `n` bytes 61; the lanes above are never read. -/
def lettersAnswer (n : BitVec 7) : SourceEvent := .answer ⟨0, n, letters⟩

/-- An answer of this kind that carries no byte. -/
def bare (kind : BitVec 2) : SourceEvent := .answer ⟨kind, 0, Vector.replicate 64 0xEE⟩

/-- "abc" (V2). -/
def abcLane : Block := Vector.ofFn fun i => if i.val = 0 then 0x61 else if i.val = 1 then 0x62 else if i.val = 2 then 0x63 else 0xEE

/-- The answer that delivers "abc". -/
def abcAnswer : SourceEvent := .answer ⟨0, 3, abcLane⟩

/-- The padded block of "abc" (V2). -/
def abcBlock : Block := Vector.ofFn fun i =>
  if i.val = 0 then 0x61 else if i.val = 1 then 0x62 else if i.val = 2 then 0x63 else if i.val = 3 then 0x80
  else if i.val = 63 then 0x18 else 0x00

/-- After the RDBLK of "abc" (V2). -/
def abcRead : State := { started with buf := some abcBlock, bitlen := some 0x18, pad := .lengthWritten, phase := .block }

/-- After its EXPAND (V2). -/
def abcExpanded : State := { abcRead with sched := some (expandSchedule abcBlock), phase := .sched }

/-- The working variables from the initial vector. -/
def ivVars : Vars := varsOf IV

/-- After its CINIT (V2). -/
def abcLoaded : State := { abcExpanded with vars := some ivVars, phase := .rounds }

/-- Done with the digest of "abc" (V2). -/
def abcHash : HashState :=
  #v[0xba7816bf, 0x8f01cfea, 0x414140de, 0x5dae2223, 0xb00361a3, 0x96177a9c, 0xb410ff61, 0xf20015ad]

/-- The state after RUN on "abc" (P2). -/
def abcDone : State := { abcRead with hash := some abcHash, phase := .idle, drv := .done }

/-- In `Failed`, with a cause. -/
def failed : State := { started with drv := .failed, cause := .sequence }

/-- A field of the next state. -/
def after {α : Type} (o : Host.Outcome State Fault Refusal) (f : State → α) : Option α :=
  match o with
  | .next t => some (f t)
  | .fault _ => none
  | .refused _ => none

/-- A 32-bit word on the command port. -/
def onPort (w : Word) (s : State) : State := { s with port := some ⟨32, w⟩ }

/-! ## Well-formedness: each check refuses an ill-formed term (R58, R60, R68) -/

theorem test_reserved_bits_refused : Cmd.wellFormed ⟨0x01, 0x000001⟩ = false := by decide
theorem test_opcode_zero_refused : Cmd.wellFormed ⟨0x00, 0⟩ = false := by decide
theorem test_opcode_above_refused : Cmd.wellFormed ⟨0x0B, 0⟩ = false ∧ Cmd.wellFormed ⟨0xFF, 0⟩ = false := by decide
theorem test_rounds_zero_refused : (AsmLine.rounds 0).wellFormed = false := by decide
theorem test_rounds_above_refused : (AsmLine.rounds 65).wellFormed = false := by decide
theorem test_well_formed_accepted :
    Cmd.wellFormed ⟨0x0A, 0⟩ = true ∧ (AsmLine.rounds 1).wellFormed = true ∧ (AsmLine.rounds 64).wellFormed = true := by
  decide

/-! ## Decoding: each command's word, written out bit by bit (R56, R59) -/

theorem test_decode_init : decode 0b00000000000000000000000000000001 = .ok .init := by decide
theorem test_decode_rdblk : decode 0b00000000000000000000000000000010 = .ok .rdblk := by decide
theorem test_decode_expand : decode 0b00000000000000000000000000000011 = .ok .expand := by decide
theorem test_decode_cinit : decode 0b00000000000000000000000000000100 = .ok .cinit := by decide
theorem test_decode_round : decode 0b00000000000000000000000000000101 = .ok .round := by decide
theorem test_decode_fold : decode 0b00000000000000000000000000000110 = .ok .fold := by decide
theorem test_decode_compress : decode 0b00000000000000000000000000000111 = .ok .compress := by decide
theorem test_decode_step : decode 0b00000000000000000000000000001000 = .ok .step := by decide
theorem test_decode_run : decode 0b00000000000000000000000000001001 = .ok .run := by decide
theorem test_decode_digest : decode 0b00000000000000000000000000001010 = .ok .digest := by decide

/-- R60: each reserved form by its name. -/
theorem test_decode_rejects :
    decode 0 = .error .opcodeZero ∧ decode 0x0B = .error .opcodeReserved ∧ decode 0x80000001 = .error .reservedBits := by
  decide

theorem test_table_word : decodeTableWord 32 0x00000008 = some .step ∧ decodeTableWord 8 0x0A = some .digest ∧
    decodeTableWord 32 0x00000100 = none ∧ decodeTableWord 40 0x0000000001 = none := by decide

/-- The host's fetch, from reset: `INIT` runs as the first command (V15 row 4), RDBLK faults there (row 1). -/
theorem test_fetch_from_reset :
    after (step (State.reset.withFetchWord 32 1)) State.statusWord = some 0x00000001 ∧
    after (step (State.reset.withFetchWord 32 2)) State.statusWord = some 0x00020003 := by decide

/-! ## The datapath (V12, V13) -/

theorem test_rotations_and_shifts :
    rotr 1 0x12345678 = 0x091a2b3c ∧ rotr 31 0x12345678 = 0x2468acf0 ∧ shr 3 0xdeadbeef = 0x1bd5b7dd ∧
    shr 10 0xdeadbeef = 0x0037ab6f := by decide

theorem test_sigmas :
    bigSigma0 0x6a09e667 = 0xce20b47e ∧ bigSigma1 0x6a09e667 = 0x55b65510 ∧ smallSigma0 0x12345678 = 0xe7fce6ee ∧
    smallSigma1 0xdeadbeef = 0x689dbfec := by decide

theorem test_ch_maj :
    ch 0x510e527f 0x9b05688c 0x1f83d9ab = 0x1f85c98c ∧ maj 0x6a09e667 0xbb67ae85 0x3c6ef372 = 0x3a6fe667 ∧
    (0x80000000 + 0x80000000 : Word) = 0 := by decide

/-- The ends of the constant ROM (20_memory.md R47). -/
theorem test_rom : K[0] = 0x428a2f98 ∧ K[63] = 0xc67178f2 := by decide

/-! ## The commands -/

/-- V16 rows 3 and 4: INIT out of `Failed`, and mid-block; the cause is cleared. -/
theorem test_init : after (exec .init { failed with cause := .ioError }) State.statusWord = some 0x00000001 ∧
    after (exec .init { started with phase := .rounds, rnd := 10 }) (fun t => (t.statusWord, t.hash, t.bitlen)) =
      some (0x00000001, some IV, some 0) := by decide

/-- V14 rows 3 and 4: 55 bytes leave room for the length, 56 do not. -/
theorem test_rdblk_boundary :
    after (exec .rdblk { started with source := [lettersAnswer 55] })
      (fun t => (t.buf.map fun b => b.toList.drop 54, t.bitlen, t.statusWord)) =
      some (some [0x61, 0x80, 0, 0, 0, 0, 0, 0, 0x01, 0xb8], some 0x1b8, 0x00000019) ∧
    after (exec .rdblk { started with source := [lettersAnswer 56] })
      (fun t => (t.buf.map fun b => b.toList.drop 54, t.bitlen, t.statusWord)) =
      some (some [0x61, 0x61, 0x80, 0, 0, 0, 0, 0, 0, 0], some 0x1c0, 0x00000015) := by
  decide +kernel

/-- V14 rows 8, 10 and 12: the abort, a count above 64, and three retries. -/
theorem test_rdblk_answers :
    after (exec .rdblk { started with policy := .abort, source := [bare 1] }) (fun t => (t.statusWord, t.requests)) =
      some (0x00070003, 1) ∧
    after (exec .rdblk { started with source := [lettersAnswer 65] }) (fun t => (t.statusWord, t.buf)) =
      some (0x00080003, none) ∧
    after (exec .rdblk { started with bitlen := some 0x200, source := [bare 1, bare 1, bare 1, lettersAnswer 0] })
      (fun t => (t.statusWord, t.bitlen, t.requests)) = some (0x00000019, some 0x200, 4) := by
  decide +kernel

/-- V2: the schedule of "abc". -/
theorem test_expand :
    after (exec .expand abcRead) (fun t => (t.sched.map fun w => (w[0], w[15], w[16], w[18], w[63]), t.statusWord)) =
      some (some (0x61626380, 0x00000018, 0x61626380, 0x7da86405, 0x12b1edeb), 0x00000029) := by
  decide +kernel

/-- R106, V18: CINIT. -/
theorem test_cinit :
    after (exec .cinit { started with phase := .sched, sched := some (Vector.replicate 64 0) })
      (fun t => (t.vars.map fun v => (v.a, v.h), t.statusWord)) =
      some (some (0x6a09e667, 0x5be0cd19), 0x00000031) := by decide

/-- V4: round 0 with a zero schedule; V18: the round count in the status word. -/
theorem test_round :
    after (exec .round { started with phase := .rounds, sched := some (Vector.replicate 64 0), vars := some ivVars })
      (fun t => (t.vars, t.statusWord)) =
      some (some ⟨0xfc08884d, 0x6a09e667, 0xbb67ae85, 0x3c6ef372, 0x98c7e2a2, 0x510e527f, 0x9b05688c, 0x1f83d9ab⟩,
        0x00000071) := by decide +kernel

/-- V4: the fold of block 0; the driver goes on. -/
theorem test_fold :
    after (exec .fold { started with
        phase := .rounds, rnd := 64
        vars := some ⟨0x704cb257, 0x5c5205e4, 0x25c46427, 0xd24fc990, 0x3bd78212, 0x25ccf9b7, 0x9b7b203f, 0xbc56dcbf⟩ })
      (fun t => (t.hash, t.vars, t.statusWord)) =
      some (some #v[0xda5698be, 0x17b9b469, 0x62335799, 0x779fbeca, 0x8ce5d491, 0xc0d26243, 0xbafef9ea, 0x1837a9d8],
        none, 0x00000001) := by decide

/-- V2, V18: COMPRESS of "abc" ends the computation. -/
theorem test_compress :
    after (exec .compress abcExpanded) (fun t => (t.hash, t.statusWord)) = some (some abcHash, 0x0000000A) := by
  decide +kernel

/-- V16 row 5: STEP on "abc". -/
theorem test_step :
    after (exec .step { started with source := [abcAnswer] }) (fun t => (t.hash, t.buf, t.statusWord)) =
      some (some abcHash, some abcBlock, 0x0000000A) := by decide +kernel

/-- V4: 64 zero bytes with RUN: two blocks, two reads. -/
theorem test_run :
    after (exec .run { started with source := [.answer ⟨0, 64, Vector.replicate 64 0⟩, lettersAnswer 0] })
      (fun t => (t.hash.map fun h => (h[0], h[7]), t.bitlen, t.requests, t.statusWord)) =
      some (some (0xf5a5fd42, 0x2759fb4b), some 0x200, 2, 0x0000000A) := by decide +kernel

/-- V16 row 15's fault alone: an `Error` answer in RUN (R143). -/
theorem test_run_error :
    after (exec .run { started with source := [bare 2] }) (fun t => (t.statusWord, t.requests)) =
      some (0x00060003, 1) := by decide +kernel

/-- V16 row 12: DIGEST of "abc", as the host renders it (S2, R127). -/
theorem test_digest :
    after (exec .digest abcDone) (fun t => t.digestPort.map renderDigest) =
      some (some "ba7816bf8f01cfea414140de5dae2223b00361a396177a9cb410ff61f20015ad\n".toList) := by decide +kernel

/-! ## The port, the wait, and the assembler -/

/-- V15 rows 2, 3 and 6. -/
theorem test_illegal_and_sequence :
    after (step (onPort 0x0B State.reset)) State.statusWord = some 0x00010003 ∧
    after (step (onPort 0x101 State.reset)) State.statusWord = some 0x00010003 ∧
    after (step (onPort 0x03 started)) State.statusWord = some 0x00030003 := by decide

/-- R156: an input that is no 32-bit word is refused. -/
theorem test_narrow_input_refused :
    (match step { started with port := some ⟨31, 1⟩ } with
      | .refused q => decide (q = .notACommandWord)
      | .next _ => false
      | .fault _ => false) = true := by decide

/-- R26: a RDBLK without an answer waits, `BUSY` is bit 13; the answer ends it. -/
theorem test_wait :
    after (exec .rdblk started) (fun t => (t.statusWord, t.requests)) = some (0x00002001, 1) ∧
    after (step { started with busy := true, waiting := some .rdblk, source := [lettersAnswer 64] })
      (fun t => (t.statusWord, t.waiting)) = some (0x00000011, none) := by decide +kernel

/-- R167: a read during INIT from reset shows `BUSY` and leaves INIT's effect as it is. -/
theorem test_read_during :
    after (step { onPort 1 State.reset with host := [.readDuring, .pause] }) (fun t =>
      (t.statusWord, t.host, t.draws, t.trace.length)) = some (0x00000001, [.pause], 1, 1) := by decide

/-- R159, R139: a reset before the core accepts the word on its port; the word is then taken in `Uninit`. -/
theorem test_reset_before_acceptance :
    after (step { onPort 10 abcDone with host := [.reset] }) (fun t => (t.statusWord, t.digestPort, t.port.isSome)) =
      some (0, none, true) := by decide

/-- R159: a reset in the middle of a RUN, after its second request and before the answer to it. -/
theorem test_reset_during :
    after (step { onPort 9 started with
        host := [.resetDuring 3], source := [bare 1, lettersAnswer 64, lettersAnswer 1] })
      (fun t => (t.statusWord, t.requests, t.source.length, t.result)) = some (0, 2, 2, none) := by decide +kernel

/-- R51: what reads of a RUN may last show that a reset abandons: before its first answer the values before the RUN, after
it those of the block it processed. -/
theorem test_reads_before_reset :
    let s := { onPort 9 started with source := [lettersAnswer 1] }
    after (coreTurn s) (fun t => [1, 2].map fun m =>
        let e := lastHeld (some m) s t
        (e.drv, e.pad, e.phase, actionCompressed s e)) =
      some [(.running, .notPadded, .idle, false), (.done, .lengthWritten, .idle, true)] := by decide +kernel

/-- R67, R68, R69: a program with a comment, lower case, and `BLOCK` (P4); a line with an operand is refused. -/
theorem test_assemble :
    assemble "init ; start\n\nBLOCK\nDIGEST".toList = .ok [1, 2, 3, 7, 10] ∧
    assemble "INIT 1".toList = .error .operandGiven ∧ assemble "ROUNDS 65".toList = .error .roundsRange ∧
    listingWord 10 = "0x0000000A".toList := by decide +kernel

/-! ## Witnesses: for each statement with hypotheses, states and operands that meet them -/

/-- A RDBLK waits for its answer. -/
def rdblkWaits : State := { started with busy := true, waiting := some .rdblk }

/-- A RUN waits that has folded one block. -/
def runWaits : State :=
  { started with
    busy := true, waiting := some (.run true), bitlen := some 512, buf := some letters
    hash := some (hashBlock IV letters), received := letters.toList }

/-- A full block is read. -/
def blockRead : State :=
  { started with buf := some letters, bitlen := some 512, phase := .block, received := letters.toList }

/-- Two data answers, the second a short one, with a retry, a wait and a late answer between. -/
def longScript : List SourceEvent := [lettersAnswer 64, bare 1, .delay, .late ⟨2, 0, letters⟩, lettersAnswer 1, .delay]

theorem witness_LegalWordIffReservedZeroAndOpcodeAssigned :
    ((onPort 0x0B started).busy = false ∧ (onPort 0x0B started).port = some ⟨32, 0x0B⟩ ∧
      (onPort 0x0B started).HostWaits ∧ ¬ ∃ i, decode 0x0B = .ok i) ∧
    ((onPort 0x100 failed).busy = false ∧ (onPort 0x100 failed).port = some ⟨32, 0x100⟩ ∧
      (onPort 0x100 failed).HostWaits ∧ ¬ ∃ i, decode 0x100 = .ok i) := by
  have h : ∀ {w : Word} {e : DecodeError}, decode w = .error e → ¬ ∃ i, decode w = .ok i := by
    rintro w e he ⟨i, hi⟩
    simp [he] at hi
  exact ⟨⟨rfl, rfl, .inl rfl, h (e := .opcodeReserved) (by decide)⟩, rfl, rfl, .inl rfl, h (e := .reservedBits) (by decide)⟩

theorem witness_OpcodeMapReadsTheTenWords :
    (∀ op ∈ [(0x0B : BitVec 8), 0xFF], 0x0B ≤ op) ∧ (1 : BitVec 24) ≠ 0 ∧ (0x800000 : BitVec 24) ≠ 0 := by decide

/-- A program with each line form, and the ends of the range of `ROUNDS`, inside and outside. -/
theorem witness_AssembledWordsAreTheLinesCommands :
    assembleLines ["INIT".toList, "ROUNDS 1".toList, "".toList, "ROUNDS 64 ; all".toList, "BLOCK".toList] =
      .ok (.init :: .round :: List.replicate 64 .round ++ [.rdblk, .expand, .compress]) ∧
    ∀ n ∈ [("0", 0), ("1", 1), ("64", 64), ("65", 65)], decimal n.1.toList = some n.2 := by decide +kernel

/-- A host with no move, and one whose next word waits for the port. -/
theorem witness_StepRunsTheDecodedCommand :
    (onPort 0x03 blockRead).busy = false ∧ (onPort 0x03 blockRead).port = some ⟨32, 0x03⟩ ∧
    (onPort 0x03 blockRead).HostWaits ∧
    ({ onPort 0x03 blockRead with host := [.issue ⟨32, 7⟩, .reset] } : State).HostWaits ∧ decode 0x03 = .ok .expand :=
  ⟨rfl, rfl, .inl rfl, .inr ⟨_, _, rfl, rfl⟩, by decide⟩

/-- One and two reads during an EXPAND, with the host's next word after them, and during a wait that goes on. -/
theorem witness_ReadsDuringAnActionHaveNoSideEffect :
    (∀ k ∈ [1, 2],
      let rest := [HostMove.issue ⟨32, 7⟩]
      let s := { onPort 3 blockRead with host := List.replicate k HostMove.readDuring ++ rest }
      s.active = true ∧ 1 ≤ k ∧ s.host = List.replicate k HostMove.readDuring ++ rest ∧ (∀ r, rest ≠ .readDuring :: r) ∧
      (∀ m r, rest ≠ .resetDuring m :: r) ∧ (∃ t, step { s with host := .pause :: rest } = .next t) ∧
      s.busy = false ∧ s.port = some ⟨32, 3⟩ ∧ decode 3 = .ok .expand ∧
      Instr.expand ∉ [Instr.compress, .step, .run]) ∧
    (runWaits.active = true ∧ ∃ t, step { runWaits with host := [.pause] } = .next t) := by
  refine ⟨fun k hk => ⟨rfl, ?_, rfl, nofun, nofun, ⟨_, rfl⟩, rfl, rfl, by decide, by decide⟩, rfl, _, rfl⟩
  revert k; decide

/-- Two reads before a reset, at the first moments of a RUN just taken and of one that goes on. -/
theorem witness_ReadsBeforeAResetShowTheAbandonedCommand :
    (∀ m ∈ [0, 1, 2], ∀ b ∈ [onPort 9 started, runWaits],
      let s := { b with
        host := List.replicate 2 HostMove.readDuring ++ HostMove.resetDuring m :: [HostMove.readStatus], source := [bare 2, lettersAnswer 64] }
      s.active = true ∧ 1 ≤ 2 ∧ s.host = List.replicate 2 HostMove.readDuring ++ HostMove.resetDuring m :: [HostMove.readStatus] ∧
      (∃ t, step { s with host := .pause :: [.readStatus] } = .next t) ∧
      ∃ c, step { s with host := [.pause], source := [bare 2] } = .next c) ∧
    (onPort 9 started).busy = false ∧ (onPort 9 started).waiting = none ∧ decode 9 = .ok .run ∧
    Instr.run ∈ [Instr.rdblk, .step, .run] ∧ started.drv = .running ∧ started.phase = .idle ∧
    started.pad = .notPadded ∧ started.drv ≠ .failed := by
  refine ⟨fun m _ b hb => ?_, rfl, rfl, by decide, by decide, rfl, rfl, rfl, by decide⟩
  rcases List.mem_pair.1 hb with rfl | rfl <;> exact ⟨rfl, by decide, rfl, ⟨_, rfl⟩, _, rfl⟩

/-- A command just taken and a command that goes on, at the first moments. -/
theorem witness_ResetInTheMiddleAbandonsTheCommand :
    ∀ m ∈ [0, 1, 2], ∀ b ∈ [onPort 2 started, rdblkWaits],
      let s := { b with host := [.resetDuring m, .readStatus], source := [bare 1, lettersAnswer 64] }
      s.active = true ∧ s.host = .resetDuring m :: [.readStatus] ∧
      ∃ t, step { s with host := .pause :: [.readStatus] } = .next t := by
  intro m _ b hb
  rcases List.mem_pair.1 hb with rfl | rfl <;> exact ⟨rfl, rfl, _, rfl⟩

theorem witness_BusyPortHoldsItsWord :
    (onPort 5 rdblkWaits).busy = true ∧ (onPort 5 rdblkWaits).port = some ⟨32, 5⟩ ∧
    ∃ t, step (onPort 5 rdblkWaits) = .next t := ⟨rfl, rfl, _, rfl⟩

theorem witness_HardwareResetPutsEveryPieceAtItsValue :
    (hardReset runWaits).port = none ∧ (hardReset runWaits).host = [] := ⟨rfl, rfl⟩

/-- In a wait, and with a word on the port that the core has not accepted. -/
theorem witness_HardwareResetGivesTheResetState :
    (({ onPort 5 runWaits with host := [.reset] }).host = .reset :: [] ∧ (onPort 5 runWaits).busy = true) ∧
    ({ onPort 10 abcDone with host := [.reset, .readStatus] }).host = .reset :: [.readStatus] ∧
    (hardReset abcDone).port = none ∧ (hardReset abcDone).host = [] :=
  ⟨⟨rfl, rfl⟩, rfl, rfl, rfl⟩

theorem witness_StatusReadHasNoSideEffect :
    ({ onPort 5 runWaits with host := [.readStatus] }).host = .readStatus :: [] ∧
    ({ onPort 10 abcDone with host := [.readStatus] }).host = .readStatus :: [] ∧ abcDone.waiting = none :=
  ⟨rfl, rfl, rfl⟩

theorem witness_StatusWhileWaitingShowsHeldValues :
    (rdblkWaits.Inv ∧ rdblkWaits.waiting.isSome = true ∧ rdblkWaits.waiting ≠ some (.run true)) ∧
    runWaits.Inv ∧ runWaits.waiting.isSome = true :=
  ⟨⟨by constructor <;> decide, rfl, by decide⟩, by constructor <;> decide, rfl⟩

theorem witness_FailedRefusesAllButInit :
    failed.busy = false ∧ failed.drv = .failed ∧ Instr.digest ≠ .init ∧ (onPort 0 failed).drv = .failed ∧
    (onPort 0 failed).port = some ⟨32, 0⟩ ∧ (onPort 0 failed).HostWaits ∧ (0 : Word) ≠ 0x00000001 :=
  ⟨rfl, rfl, by decide, rfl, rfl, .inl rfl, by decide⟩

theorem witness_UninitRaisesNotInitialized :
    State.reset.busy = false ∧ State.reset.drv = .uninit ∧ Instr.digest ≠ .init := by decide

theorem witness_DoneCommandsSkipOrFault :
    abcDone.busy = false ∧ abcDone.drv = .done ∧ Instr.fold ∈ [Instr.expand, .cinit, .round, .fold, .compress] := by
  decide

/-- Each phase, and both ends of `rnd`. -/
theorem witness_RunningOutOfOrderRaisesSequence :
    (started.busy = false ∧ started.drv = .running ∧ started.phase ≠ .block ∧ started.phase ≠ .sched ∧
      started.phase ≠ .rounds) ∧
    (blockRead.busy = false ∧ blockRead.drv = .running ∧ blockRead.phase ≠ .idle) ∧
    (∀ r ∈ [(0 : Fin 65), 63], ({ abcLoaded with rnd := r }).busy = false ∧ abcLoaded.drv = .running ∧
      ({ abcLoaded with rnd := r }).rnd.val < 64) ∧
    ({ abcLoaded with rnd := 64 }).busy = false ∧ ({ abcLoaded with rnd := 64 }).rnd.val = 64 := by decide

theorem witness_FaultLeavesNoPartialEffect :
    Instr.step ≠ .run ∧ started.busy = false ∧ started.drv ≠ .failed ∧
    (∃ t, exec .step { started with source := [bare 2] } = .next t ∧ t.drv = .failed) ∧
    (∃ t, exec .expand started = .next t ∧ t.drv = .failed) :=
  ⟨by decide, rfl, by decide, ⟨_, rfl, rfl⟩, _, rfl, rfl⟩

/-- Each element in turn, in each pair of two; no run reaches these states. -/
theorem witness_ReadOfNoValueFaults :
    (∀ bits ∈ [none, some 0],
      let s := { started with pad := .terminatorPlaced, bitlen := bits, hash := none }
      s.busy = false ∧ s.drv = .running ∧ s.phase = .idle ∧ s.pad = .terminatorPlaced ∧
        (s.bitlen = none ∨ s.bitlen.isSome = true ∧ s.hash = none)) ∧
    (∀ n ∈ [(0 : Fin 65), 64],
      let a : Answer := ⟨0, BitVec.ofNat 7 n.val, letters⟩
      let s := { started with source := [.answer a], bitlen := none }
      s.pad = .notPadded ∧ s.source = .answer a :: [] ∧ a.reply = .data n a.lane ∧ s.bitlen = none) ∧
    (let s := { started with phase := .block };
      s.busy = false ∧ s.drv = .running ∧ s.phase = .block ∧ s.buf = none) ∧
    (let s := { started with phase := .sched, hash := none };
      s.busy = false ∧ s.drv = .running ∧ s.phase = .sched ∧ s.hash = none) ∧
    (let s := { started with phase := .sched };
      s.busy = false ∧ s.drv = .running ∧ s.phase = .sched ∧ s.hash.isSome = true ∧ s.sched = none) ∧
    (∀ r ∈ [(0 : Fin 65), 63], ∀ v ∈ [none, some ivVars], ∀ w ∈ [none, some (Vector.replicate 64 0)],
      let s := { started with phase := .rounds, rnd := r, vars := v, sched := w };
      s.busy = false ∧ s.drv = .running ∧ s.phase = .rounds ∧ s.rnd.val < 64 ∧ s.vars = v ∧ s.sched = w) ∧
    (∀ v ∈ [none, some ivVars], ∀ h ∈ [none, some IV],
      let s := { started with phase := .rounds, rnd := 64, vars := v, hash := h };
      s.busy = false ∧ s.drv = .running ∧ s.phase = .rounds ∧ s.rnd.val = 64 ∧ s.vars = v ∧ s.hash = h) ∧
    (let s := { started with drv := .done, hash := none };
      s.busy = false ∧ s.drv = .done ∧ s.hash = none) := by
  refine ⟨fun bits hb => ⟨rfl, rfl, rfl, rfl, ?_⟩, fun n hn => ⟨rfl, rfl, ?_, rfl⟩, ⟨rfl, rfl, rfl, rfl⟩,
    ⟨rfl, rfl, rfl, rfl⟩, ⟨rfl, rfl, rfl, rfl, rfl⟩, fun r hr _ _ _ _ => ⟨rfl, rfl, rfl, ?_, rfl, rfl⟩,
    fun _ _ _ _ => ⟨rfl, rfl, rfl, rfl, rfl, rfl⟩, rfl, rfl, rfl⟩
  · rcases List.mem_pair.1 hb with rfl | rfl <;> decide
  · rcases List.mem_pair.1 hn with rfl | rfl <;> decide
  · rcases List.mem_pair.1 hr with rfl | rfl <;> simp

theorem witness_InitForgetsTheAbandonedComputation :
    let s := abcLoaded
    let t := failed
    s ≠ t ∧ s.waiting = none ∧ t.waiting = none ∧ s.policy = t.policy ∧ s.port = t.port ∧ s.host = t.host ∧
    s.source = t.source ∧ s.trace = t.trace ∧ s.draws = t.draws := by
  refine ⟨fun h => ?_, rfl, rfl, rfl, rfl, rfl, rfl, rfl, rfl⟩
  exact absurd (congrArg State.drv h) (by decide)

/-- A computation at its first read: the hypotheses of the RDBLK, STEP and RUN statements, with this script. -/
theorem started_ready (l : List SourceEvent) :
    let s := { started with source := l }
    s.Ready ∧ s.drv = .running ∧ s.phase = .idle ∧ s.pad = .notPadded ∧ s.rnd = 0 ∧ s.hash = some IV ∧
    s.bitlen = some 0 ∧ s.received = [] ∧ s.host = [] ∧ s.source = l :=
  ⟨⟨rfl, rfl⟩, rfl, rfl, rfl, rfl, rfl, rfl, rfl, rfl, rfl⟩

theorem witness_RdblkStoresAFullDataBlock :
    let s := { started with source := [lettersAnswer 64] }
    let a : Answer := ⟨0, 64, letters⟩
    s.Ready ∧ s.drv = .running ∧ s.phase = .idle ∧ s.pad = .notPadded ∧ s.bitlen = some 0 ∧
    s.source = .answer a :: [] ∧ a.kind = 0 ∧ a.count = 64 := ⟨⟨rfl, rfl⟩, rfl, rfl, rfl, rfl, rfl, rfl, rfl⟩

theorem witness_RdblkPadsAShortChunkWithItsLength :
    ∀ n ∈ [0, 1, 55],
      let a : Answer := ⟨0, BitVec.ofNat 7 n, letters⟩
      let s := { started with source := [.answer a] }
      s.Ready ∧ s.drv = .running ∧ s.phase = .idle ∧ s.pad = .notPadded ∧ s.bitlen = some 0 ∧
      s.source = .answer a :: [] ∧ a.kind = 0 ∧ a.count.toNat = n ∧ n ≤ 55 := by
  intro n hn
  refine ⟨⟨rfl, rfl⟩, rfl, rfl, rfl, rfl, rfl, rfl, ?_⟩
  revert n; decide

theorem witness_RdblkPadsALongChunkWithoutLength :
    ∀ n ∈ [56, 63],
      let a : Answer := ⟨0, BitVec.ofNat 7 n, letters⟩
      let s := { started with source := [.answer a] }
      s.Ready ∧ s.drv = .running ∧ s.phase = .idle ∧ s.pad = .notPadded ∧ s.bitlen = some 0 ∧
      s.source = .answer a :: [] ∧ a.kind = 0 ∧ a.count.toNat = n ∧ 56 ≤ n ∧ n ≤ 63 := by
  intro n hn
  refine ⟨⟨rfl, rfl⟩, rfl, rfl, rfl, rfl, rfl, rfl, ?_⟩
  revert n; decide

/-- Also the state of StepProcessesOneBlock's second clause. -/
theorem witness_RdblkWritesTheLengthOnlyBlock :
    let s := { started with pad := .terminatorPlaced, bitlen := some 0x1c0 }
    s.Ready ∧ s.busy = false ∧ s.drv = .running ∧ s.phase = .idle ∧ s.rnd = 0 ∧ s.pad = .terminatorPlaced ∧
    s.hash = some IV ∧ s.bitlen = some 0x1c0 := ⟨⟨rfl, rfl⟩, rfl, rfl, rfl, rfl, rfl, rfl, rfl⟩

theorem witness_ErrorAnswerRaisesIoError :
    let s := { started with source := [bare 2] }
    let a : Answer := ⟨2, 0, Vector.replicate 64 0xEE⟩
    s.Ready ∧ s.drv = .running ∧ s.phase = .idle ∧ s.pad = .notPadded ∧ s.source = .answer a :: [] ∧ a.kind = 2 :=
  ⟨⟨rfl, rfl⟩, rfl, rfl, rfl, rfl, rfl⟩

/-- Kind 3, and the counts 65 and 127. -/
theorem witness_BrokenAnswerRaisesSourceContract :
    ∀ a ∈ [(⟨3, 0, letters⟩ : Answer), ⟨0, 65, letters⟩, ⟨0, 127, letters⟩],
      let s := { started with source := [.answer a] }
      s.Ready ∧ s.drv = .running ∧ s.phase = .idle ∧ s.pad = .notPadded ∧ s.source = .answer a :: [] ∧
      (a.kind = 3 ∨ (a.kind = 0 ∧ 64 < a.count.toNat)) := by
  intro a ha
  refine ⟨⟨rfl, rfl⟩, rfl, rfl, rfl, rfl, ?_⟩
  revert a; decide

/-- Both policies; and a step that answers a next state. -/
theorem witness_InterruptedAnswerFollowsThePolicy :
    (∃ t, step started = .next t) ∧
    ∀ p ∈ [InterruptPolicy.retry, .abort],
      let s := { started with policy := p, source := [bare 1] }
      let a : Answer := ⟨1, 0, Vector.replicate 64 0xEE⟩
      s.Ready ∧ s.drv = .running ∧ s.phase = .idle ∧ s.pad = .notPadded ∧ s.source = .answer a :: [] ∧ a.kind = 1 ∧
      s.policy = p :=
  ⟨⟨_, rfl⟩, fun _ _ => ⟨⟨rfl, rfl⟩, rfl, rfl, rfl, rfl, rfl, rfl⟩⟩

theorem witness_LateAnswerIsDiscarded :
    let a : Answer := ⟨2, 0, letters⟩
    let s := { started with source := [.late a, lettersAnswer 1] }
    s.Ready ∧ s.drv = .running ∧ s.phase = .idle ∧ s.pad = .notPadded ∧ s.source = .late a :: [lettersAnswer 1] :=
  ⟨⟨rfl, rfl⟩, rfl, rfl, rfl, rfl⟩

theorem witness_UnansweredReadHangs :
    started.Ready ∧ started.drv = .running ∧ started.phase = .idle ∧ started.pad = .notPadded ∧ started.source = [] ∧
    started.host = [] := ⟨⟨rfl, rfl⟩, rfl, rfl, rfl, rfl, rfl⟩

theorem witness_DelayedAnswerGivesTheSameState :
    let s := { started with source := [.delay, lettersAnswer 64, .delay, lettersAnswer 1] }
    s.Ready ∧ s.host = [] ∧ s.drv = .running ∧ s.phase = .idle ∧ s.pad = .notPadded ∧
    s.source = .delay :: [lettersAnswer 64, .delay, lettersAnswer 1] := ⟨⟨rfl, rfl⟩, rfl, rfl, rfl, rfl, rfl⟩

theorem witness_RdblkFrame :
    let s := { started with source := [lettersAnswer 64] }
    s.Ready ∧ s.drv = .running ∧ s.phase = .idle ∧ s.pad ≠ .lengthWritten ∧
    ∃ t, exec .rdblk s = .next t ∧ t.busy = false ∧ t.drv ≠ .failed :=
  ⟨⟨rfl, rfl⟩, rfl, rfl, by decide, _, rfl, rfl, by decide⟩

theorem witness_ExpandComputesTheSchedule :
    abcRead.busy = false ∧ abcRead.drv = .running ∧ abcRead.phase = .block ∧ abcRead.buf = some abcBlock ∧
    16 ≤ 16 ∧ 16 < 64 ∧ 16 ≤ 63 ∧ 63 < 64 := ⟨rfl, rfl, rfl, rfl, by decide⟩

/-- Also for CompressHashesTheSchedule. -/
theorem witness_CinitLoadsTheWorkingVariables :
    abcExpanded.busy = false ∧ abcExpanded.drv = .running ∧ abcExpanded.phase = .sched ∧
    abcExpanded.hash = some IV ∧ abcExpanded.sched = some (expandSchedule abcBlock) := ⟨rfl, rfl, rfl, rfl, rfl⟩

theorem witness_RoundUpdatesAllEightVariables :
    ∀ r ∈ [(0 : Fin 65), 63], let s := { abcLoaded with rnd := r };
      r.val < 64 ∧ s.busy = false ∧ s.drv = .running ∧ s.phase = .rounds ∧ s.rnd.val = r.val ∧
      s.vars = some ivVars ∧ s.sched = some (expandSchedule abcBlock) := by
  intro r hr
  refine ⟨?_, rfl, rfl, rfl, rfl, rfl, rfl⟩
  revert r; decide

/-- A block that is not terminal, and one that is. -/
theorem witness_FoldAccumulatesIntoTheHash :
    ∀ p ∈ [PadState.notPadded, .lengthWritten], let s := { abcLoaded with rnd := 64, pad := p };
      s.busy = false ∧ s.drv = .running ∧ s.phase = .rounds ∧ s.rnd.val = 64 ∧ s.hash = some IV ∧
      s.vars = some ivVars := fun _ _ => ⟨rfl, rfl, rfl, rfl, rfl, rfl⟩

theorem witness_CompressEqualsItsSixtySixCommands : abcExpanded.busy = false ∧ failed.busy = false := ⟨rfl, rfl⟩

theorem witness_CompressHashesTheSchedule :
    abcExpanded.busy = false ∧ abcExpanded.drv = .running ∧ abcExpanded.phase = .sched ∧
    abcExpanded.hash = some IV ∧ abcExpanded.sched = some (expandSchedule abcBlock) := ⟨rfl, rfl, rfl, rfl, rfl⟩

theorem witness_StepEqualsItsThreeCommands :
    (started.busy = false ∧ started.drv = .running ∧
      ∃ t, exec .rdblk { started with source := [lettersAnswer 64] } = .next t ∧ t.busy = false) ∧
    (abcDone.busy = false ∧ abcDone.drv = .done) ∧
    ∃ t, exec .step { started with source := [lettersAnswer 64] } = .next t ∧ t.busy = false ∧ t.drv ≠ .failed := by
  refine ⟨⟨rfl, rfl, _, rfl, rfl⟩, ⟨rfl, rfl⟩, ?_⟩
  have h : after (exec .step { started with source := [lettersAnswer 64] }) (fun t => (t.busy, t.drv)) =
      some (false, .running) := by decide +kernel
  unfold after at h
  split at h
  · rename_i t ht
    simp only [Option.some.injEq, Prod.mk.injEq] at h
    exact ⟨t, ht, h.1, by simp [h.2]⟩
  all_goals cases h

/-- The counts where the clauses of the padding meet. -/
theorem witness_StepProcessesOneBlock :
    ∀ n ∈ [(0 : Fin 65), 55, 56, 63, 64],
      let a : Answer := ⟨0, BitVec.ofNat 7 n.val, letters⟩
      let s := { started with source := [.answer a] }
      s.Ready ∧ s.drv = .running ∧ s.phase = .idle ∧ s.rnd = 0 ∧ s.hash = some IV ∧ s.bitlen = some 0 ∧
      s.pad = .notPadded ∧ s.source = .answer a :: [] ∧ a.reply = .data n a.lane := by
  intro n hn
  refine ⟨⟨rfl, rfl⟩, rfl, rfl, rfl, rfl, rfl, rfl, rfl, ?_⟩
  revert n; decide +kernel

theorem witness_RunIsTheLoopOfSteps :
    started.Ready ∧ started.drv = .running ∧ started.phase = .idle ∧
    ∃ t, exec .step { started with source := [lettersAnswer 64, lettersAnswer 0] } = .next t ∧ t.busy = false := by
  refine ⟨⟨rfl, rfl⟩, rfl, rfl, ?_⟩
  have h : after (exec .step { started with source := [lettersAnswer 64, lettersAnswer 0] }) (fun t => t.busy) =
      some false := by decide +kernel
  unfold after at h
  split at h
  · rename_i t ht
    exact ⟨t, ht, by simpa using h⟩
  all_goals cases h

theorem witness_RunEndsDoneFailedOrWaiting :
    started.Inv ∧ started.busy = false ∧ started.drv = .running ∧ started.phase = .idle ∧
    ∃ t, exec .run started = .next t :=
  ⟨by constructor <;> decide, rfl, rfl, rfl, _, rfl⟩

/-- Two reads, with a retry and a late answer between them. -/
theorem witness_RunHashesTheDeliveredBytes :
    streamOf false .retry [lettersAnswer 64, bare 1, .late ⟨2, 0, letters⟩, lettersAnswer 1, .delay] =
      some (List.replicate 65 0x61, [.delay]) := by decide +kernel

theorem witness_DutifulSourceIsReadOncePerChunk :
    ∀ n ∈ [0, 63, 64], let msg := List.replicate n (0x61 : Byte)
      let s := { started with source := answersOf msg ++ [] }
      s.Ready ∧ s.drv = .running ∧ s.phase = .idle ∧ s.pad = .notPadded ∧ s.hash = some IV ∧ s.bitlen = some 0 ∧
      s.source = answersOf msg ++ [] := fun _ _ => ⟨⟨rfl, rfl⟩, rfl, rfl, rfl, rfl, rfl, rfl⟩

theorem witness_RunEndsWhateverTimeTheAnswersTake :
    (onPort 9 { started with source := longScript }).port = some ⟨32, 0x00000009⟩ ∧
    streamOf true .retry longScript = some (List.replicate 65 0x61, [.delay]) := by
  exact ⟨rfl, by decide +kernel⟩

theorem witness_DigestWritesTheHashBigEndian :
    abcDone.busy = false ∧ abcDone.drv = .done ∧ abcDone.hash = some abcHash := ⟨rfl, rfl, rfl⟩

/-- A step from a state that meets the invariant, a command accepted and a wait ended. -/
theorem witness_EveryStepKeepsTheInvariant :
    (blockRead.Inv ∧ ∃ t, step (onPort 3 blockRead) = .next t) ∧ runWaits.Inv ∧ ∃ t, step runWaits = .next t :=
  ⟨⟨by constructor <;> decide, _, rfl⟩, by constructor <;> decide, _, rfl⟩

/-- With nothing to do, and with an input that is no word, which the core takes. -/
theorem witness_NoStepReadsNoValue :
    State.reset.Inv ∧ ({ State.reset with port := some ⟨33, 0⟩ } : State).Inv ∧
    ({ State.reset with port := some ⟨33, 0⟩ } : State).busy = false ∧ (⟨33, 0⟩ : PortInput).width ≠ 32 ∧
    ({ State.reset with port := some ⟨33, 0⟩ } : State).HostWaits :=
  ⟨by constructor <;> decide, by constructor <;> decide, rfl, by decide, .inl rfl⟩

theorem witness_NoReadRequestAfterTheTerminator :
    (({ started with pad := .terminatorPlaced } : State).pad ≠ .notPadded ∧
      ({ started with pad := .terminatorPlaced } : State).Inv ∧
      ∃ t, exec .rdblk ({ started with pad := .terminatorPlaced }) = .next t) ∧
    ∃ t, step ({ started with pad := .terminatorPlaced }) = .next t :=
  ⟨⟨by decide, by constructor <;> decide, _, rfl⟩, _, rfl⟩

theorem witness_PadOnlyAdvances :
    (Instr.rdblk ≠ .init ∧ ∃ t, exec .rdblk { started with source := [lettersAnswer 55] } = .next t) ∧
    (Instr.expand ∈ [Instr.expand, .cinit, .round, .fold, .compress, .digest] ∧ ∃ t, exec .expand blockRead = .next t) ∧
    (rdblkWaits.Inv ∧ rdblkWaits.busy = true ∧ (∀ rest, rdblkWaits.host ≠ .reset :: rest) ∧
      (duringAction rdblkWaits.host).reset = none ∧ ∃ t, step rdblkWaits = .next t) ∧
    ((onPort 3 blockRead).Inv ∧ (onPort 3 blockRead).port ≠ some ⟨32, 0x00000001⟩ ∧
      ∃ t, step (onPort 3 blockRead) = .next t) :=
  ⟨⟨by decide, _, rfl⟩, ⟨by decide, _, rfl⟩, ⟨by constructor <;> decide, rfl, nofun, rfl, _, rfl⟩,
    by constructor <;> decide, by decide, _, rfl⟩

/-- Commands, a wait that goes on, and a reset. -/
theorem witness_DriverStateChangesOnlyAsListed :
    (∃ t, exec .init failed = .next t) ∧ (∃ t, exec .fold started = .next t) ∧ (∃ t, exec .digest abcDone = .next t) ∧
    (runWaits.Inv ∧ ∃ t, step runWaits = .next t) ∧
    ∃ t, step { runWaits with host := [.resetDuring 0] } = .next t :=
  ⟨⟨_, rfl⟩, ⟨_, rfl⟩, ⟨_, rfl⟩, ⟨by constructor <;> decide, _, rfl⟩, _, rfl⟩

theorem witness_EachElementHasOnlyItsWriters :
    (∃ t, exec .expand blockRead = .next t) ∧ ∃ t, exec .cinit abcExpanded = .next t := ⟨⟨_, rfl⟩, _, rfl⟩

/-- A run that has not ended, one that is done and one that failed. -/
theorem witness_RunHasAResultExactlyWhenEnded :
    started.Inv ∧ (failed.Inv ∧ failed.Ended ∧ failed.drv = .failed) ∧
    (let s := { started with drv := .done, pad := .lengthWritten };
      s.Inv ∧ s.Ended ∧ s.drv = .done) :=
  ⟨by constructor <;> decide, ⟨by constructor <;> decide, ⟨rfl, .inr rfl⟩, rfl⟩,
    by constructor <;> decide, ⟨rfl, .inl rfl⟩, rfl⟩

theorem witness_RotationAndShiftMoveEveryBit : 0 < 32 ∧ 31 < 32 ∧ 1 ≤ 1 ∧ 31 ≤ 31 := by decide

theorem witness_ChChoosesAndMajVotesBitByBit : 0 < 32 ∧ 31 < 32 := by decide

theorem witness_SigmasMixTheirBits : 0 < 32 ∧ 31 < 32 := by decide

theorem witness_RoundConstantsAreTheTable : 0 < 64 ∧ 63 < 64 := by decide

end Sys2Proof.Tests
end

-- ==== The state INIT leaves ====
section
/-! What INIT does, once for every state (10 R36, 44 R120). -/

namespace Sys2Proof.Machine

/-- INIT is accepted in every state, so it always completes, and its end clears the `busy` its acceptance set. -/
theorem exec_init (s : State) : exec .init s = .next (complete (startComputation s)) :=
  calc exec .init s
    _ = commanded .init initBlock s := rfl
    _ = (initBlock { s with busy := true }).outcome := commanded_perform (acceptance_init s)
    _ = .next (complete (startComputation s)) := rfl

/-- Settles O21: INIT always completes with `startComputation`, whose model record `received` starts empty. -/
theorem initLeavesTheInitialState : Obligations.InitLeavesTheInitialState := by
  intro s
  exact ⟨[], exec_init s⟩

end Sys2Proof.Machine
end

-- ==== The digest port ====
section
/-! What DIGEST shows, and that it changes nothing else (20 R42, 44 R126). -/

namespace Sys2Proof.Machine

/-- `D[4i+k]` is byte `k` of hash word `i` (20 R42). -/
theorem digestBytes_getElem (hash : HashState) (i : Fin 8) (k : Fin 4) :
    (digestBytes hash)[4 * i.val + k.val] = be32Byte hash[i] k := by
  have hi : (4 * i.val + k.val) / 4 = i.val := by omega
  have hk : (4 * i.val + k.val) % 4 = k.val := by omega
  simp [digestBytes, hi, hk]

/-- In `Done` DIGEST notes its 32 bytes; its end clears the `busy` its acceptance set (44 R126). -/
theorem exec_digest_done {s : State} {hash : HashState} (hb : s.busy = false) (hd : s.drv = .done)
    (hh : s.hash = some hash) : exec .digest s = .next (note (.digest (digestBytes hash)) s) :=
  calc exec .digest s
    _ = commanded .digest digestWrite s := rfl
    _ = (digestWrite { s with busy := true }).outcome := commanded_perform (acceptance_done hd)
    _ = .next (complete (note (.digest (digestBytes hash)) { s with busy := true })) :=
      congrArg Flow.outcome (digestWrite_some (s := { s with busy := true }) hh)
    _ = .next (note (.digest (digestBytes hash)) s) := by simp [complete, note, ← hb]

theorem execAll_cons {i : Instr} {rest : List Instr} {s t : State} (h : exec i s = .next t) :
    execAll (i :: rest) s = execAll rest t := by
  simp [execAll, h]

/-- Settles O47: DIGEST notes `digestBytes` and leaves the state ready for another DIGEST that notes the same. -/
theorem digestWritesTheHashBigEndian : Obligations.DigestWritesTheHashBigEndian := by
  intro s hash hb hd hh
  have first := exec_digest_done hb hd hh
  have second := exec_digest_done (s := note (.digest (digestBytes hash)) s) hb hd hh
  exact ⟨digestBytes hash, first, (execAll_cons first).trans (execAll_cons second), digestBytes_getElem hash⟩

end Sys2Proof.Machine
end

-- ==== The round constants ====
section
/-! The ROM `K` as the fractional parts of the cube roots of the first 64 primes (20 R47). -/

namespace Sys2Proof.Machine

/-- Trial division: to test a number below `b²`, divisors below `b` are enough. -/
theorem prime_iff_no_divisor_below {n b : Nat} (h : n < b * b) :
    n.Prime ↔ 2 ≤ n ∧ ∀ m < b, 2 ≤ m → m * m ≤ n → ¬ m ∣ n := by
  simp only [Nat.prime_def_le_sqrt, Nat.le_sqrt]
  refine and_congr_right fun _ => ⟨fun H m _ h2 hm => H m h2 hm, fun H m h2 hm => H m ?_ h2 hm⟩
  exact Nat.mul_self_lt_mul_self_iff.1 (hm.trans_lt h)

/-- Number `t` of the numbers below `b` with a property has `t` such numbers before it. -/
theorem count_getElem_filter_range (P : Nat → Prop) [DecidablePred P] (b t : Nat)
    (ht : t < ((List.range b).filter P).length) : Nat.count P ((List.range b).filter P)[t] = t := by
  induction b with
  | zero => simp at ht
  | succ b ih =>
    have hlen : ((List.range b).filter P).length = Nat.count P b := List.countP_eq_length_filter.symm
    simp only [List.range_succ, List.filter_append, List.getElem_append]
    split
    · exact ih ‹_›
    · by_cases hb : P b
      · have hlast : t = Nat.count P b := by simp [List.range_succ, hb] at ht; omega
        simpa [hb] using hlast.symm
      · simp [List.range_succ, hb] at ht; omega

/-- Indexing a vector that is a list's image. -/
theorem getElem_of_toList_eq_map {α β : Type} {n t : Nat} {v : Vector α n} {l : List β} {f : β → α}
    (h : v.toList = l.map f) (ht : t < n) : ∃ hl : t < l.length, v[t] = f l[t] := by
  have hl : t < l.length := by
    have hlen : n = l.length := by simpa using congrArg List.length h
    omega
  have hget : v.toList[t]? = (l.map f)[t]? := congrArg (·[t]?) h
  exact ⟨hl, by simpa [ht, hl] using hget⟩

/-- The primes up to 311, the 64th, in order. -/
def smallPrimes : List Nat := (List.range 312).filter Nat.Prime

/-- `smallPrimes` in a form that is cheap to evaluate. -/
theorem smallPrimes_eq_trialDivision :
    smallPrimes = (List.range 312).filter fun n => 2 ≤ n ∧ ∀ m < 18, 2 ≤ m → m * m ≤ n → ¬ m ∣ n := by
  refine List.filter_congr fun n hn => decide_eq_decide.2 (prime_iff_no_divisor_below ?_)
  have := List.mem_range.1 hn
  omega

/-- `⌊2^32 · ∛p⌋` (20 R47). -/
def scaledCubeRoot (p : Nat) : Nat := Nat.nthRoot 3 (p * 2 ^ 96)

theorem scaledCubeRoot_pow_le (p : Nat) : scaledCubeRoot p ^ 3 ≤ p * 2 ^ 96 :=
  Nat.pow_nthRoot_le (.inl (by decide))

theorem lt_scaledCubeRoot_add_one_pow (p : Nat) : p * 2 ^ 96 < (scaledCubeRoot p + 1) ^ 3 :=
  Nat.lt_pow_nthRoot_add_one (by decide) _

/-- The ROM is the low 32 bits of the scaled cube roots of the primes, in order. -/
theorem K_toList_eq_map_smallPrimes : K.toList = smallPrimes.map fun p => BitVec.ofNat 32 (scaledCubeRoot p) := by
  rw [smallPrimes_eq_trialDivision]
  decide +kernel

/-- Settles O60: entry `t` comes from prime number `t` and its scaled cube root. -/
theorem roundConstantsAreTheTable : Obligations.RoundConstantsAreTheTable := by
  refine ⟨by decide, fun t ht => ?_⟩
  obtain ⟨hlen, hK⟩ := getElem_of_toList_eq_map K_toList_eq_map_smallPrimes ht
  have hprime : smallPrimes[t].Prime := of_decide_eq_true (List.mem_filter.1 (List.getElem_mem hlen)).2
  exact ⟨smallPrimes[t], scaledCubeRoot smallPrimes[t], hprime, count_getElem_filter_range Nat.Prime 312 t hlen,
    scaledCubeRoot_pow_le _, lt_scaledCubeRoot_add_one_pow _, hK⟩

end Sys2Proof.Machine
end

-- ==== The opcode map ====
section
/-! The decoder, read through a word's two fields: which words it takes and by which name it rejects the others (30 R56,
R58, R59, R60). -/

namespace Sys2Proof

@[simp] theorem Cmd.ofWord_append (rsv : BitVec 24) (op : BitVec 8) : Cmd.ofWord (rsv ++ op) = ⟨op, rsv⟩ :=
  congrArg₂ Cmd.mk BitVec.extractLsb'_append_eq_right BitVec.extractLsb'_append_eq_left

/-- The map assigns the ten values of R59 and no other. -/
theorem opcodeInstr_isSome_iff (op : BitVec 8) : (opcodeInstr op).isSome ↔ 1 ≤ op.toNat ∧ op.toNat ≤ 10 := by
  unfold opcodeInstr
  split
  case h_11 => simp [imp_false] at *; omega
  all_goals simp [*]

theorem decode_reservedBits {w : Word} (hr : (Cmd.ofWord w).rsv ≠ 0) : decode w = .error .reservedBits := by
  simp only [decode, if_neg hr]

theorem decode_assigned {w : Word} {i : Instr} (hr : (Cmd.ofWord w).rsv = 0)
    (ho : opcodeInstr (Cmd.ofWord w).op = some i) : decode w = .ok i := by
  simp only [decode, if_pos hr, ho]

theorem decode_unassigned {w : Word} (hr : (Cmd.ofWord w).rsv = 0) (ho : opcodeInstr (Cmd.ofWord w).op = none) :
    decode w = .error (if (Cmd.ofWord w).op = 0 then .opcodeZero else .opcodeReserved) := by
  simp only [decode, if_pos hr, ho]
  exact (apply_ite Except.error _ _ _).symm

/-- A legal word has a clear `RSV` and takes its command from `OP` alone. -/
theorem decode_eq_ok_iff {w : Word} {i : Instr} :
    decode w = .ok i ↔ (Cmd.ofWord w).rsv = 0 ∧ opcodeInstr (Cmd.ofWord w).op = some i := by
  by_cases hr : (Cmd.ofWord w).rsv = 0
  · cases ho : opcodeInstr (Cmd.ofWord w).op with
    | some j => simp [decode_assigned hr ho, hr]
    | none => simp [decode_unassigned hr ho]
  · simp [decode_reservedBits hr, show (Cmd.ofWord w).rsv ≠ 0#24 from hr]

theorem decode_opcodeReserved {w : Word} (hr : (Cmd.ofWord w).rsv = 0) (ho : 0x0B ≤ (Cmd.ofWord w).op) :
    decode w = .error .opcodeReserved := by
  have hlow : 11 ≤ (Cmd.ofWord w).op.toNat := ho
  have hnone : opcodeInstr (Cmd.ofWord w).op = none := by
    rw [← Option.not_isSome_iff_eq_none, opcodeInstr_isSome_iff]
    omega
  have hzero : (Cmd.ofWord w).op ≠ 0 := fun hz => by simp [hz] at hlow
  rw [decode_unassigned hr hnone, if_neg hzero]

/-- R58: the legal words. -/
theorem exists_decode_eq_ok_iff (w : Word) :
    (∃ i, decode w = .ok i) ↔
      w.extractLsb' 8 24 = 0 ∧ 1 ≤ (w.extractLsb' 0 8).toNat ∧ (w.extractLsb' 0 8).toNat ≤ 10 := by
  simp only [decode_eq_ok_iff, exists_and_left, ← Option.isSome_iff_exists, opcodeInstr_isSome_iff,
    Cmd.ofWord]

/-- Settles O3: the ten words are the encodings of the ten commands; the reserved rows go by their fields. -/
theorem opcodeMapReadsTheTenWords : Obligations.OpcodeMapReadsTheTenWords := by
  refine ⟨Laws.RoundTrip.init.2, Laws.RoundTrip.rdblk.2, Laws.RoundTrip.expand.2, Laws.RoundTrip.cinit.2,
    Laws.RoundTrip.round.2, Laws.RoundTrip.fold.2, Laws.RoundTrip.compress.2, Laws.RoundTrip.step.2,
    Laws.RoundTrip.run.2, Laws.RoundTrip.digest.2, by decide, fun op h => ?_, fun op rsv h => ?_⟩
  · exact decode_opcodeReserved (by simp) (by simpa using h)
  · exact decode_reservedBits (by simpa using h)

end Sys2Proof
end

-- ==== Illegal words ====
section
/-! What the core does with a word no command has (30 R58, 60 R136, R139). -/

namespace Sys2Proof.Machine

/-- The state after an idle core took an illegal word: a fault, or in `Failed` nothing. -/
theorem illegalWord_of_not_busy {s : State} (hb : s.busy = false) :
    illegalWord s = if s.drv = .failed then s else { s with drv := .failed, cause := .illegalCommand } := by
  rw [illegalWord, complete_of_not_busy hb, raiseFault, ← hb]

/-- A word that decodes to no command is taken from the port as an illegal one. -/
theorem coreTurn_illegal {s : State} {w : Word} (hb : s.busy = false) (hp : s.port = some ⟨32, w⟩)
    (hw : ¬ ∃ i, decode w = .ok i) : coreTurn s = .next (illegalWord { s with port := none }) := by
  cases hd : decode w with
  | ok i => exact absurd ⟨i, hd⟩ hw
  | error e => rw [coreTurn_accepts hb hp, acceptInput_illegal (w := w) (by simp [PortInput.word?]) hd]

/-- A pause of the host lets the core act. -/
theorem step_pause (s : State) : step { s with host := .pause :: s.host } = coreTurn s := rfl

/-- Settles O2: legality is the decoder's, and the core's turn on an illegal word is `illegalWord`. -/
theorem legalWordIffReservedZeroAndOpcodeAssigned : Obligations.LegalWordIffReservedZeroAndOpcodeAssigned := by
  refine fun w => ⟨exists_decode_eq_ok_iff w, fun s hb hp hw => ?_⟩
  have turn := (coreTurn_illegal hb hp hw).trans (congrArg Host.Outcome.next (illegalWord_of_not_busy hb))
  exact ⟨fun hwait => (cycle_waits hwait).trans turn, (step_pause s).trans turn⟩

end Sys2Proof.Machine
end

-- ==== The mixing functions ====
section
/-! The datapath's word functions bit by bit (40 R73..R81). -/

namespace Sys2Proof.Machine

/-- R74: a shift moves bit `i + n` to place `i`; above the top it finds 0. -/
theorem getLsbD_shr (n : Nat) (x : Word) (i : Nat) :
    (shr n x).getLsbD i = if i + n < 32 then x.getLsbD (i + n) else false := by
  rw [shr, BitVec.getLsbD_ushiftRight, Nat.add_comm]
  split
  · rfl
  · exact BitVec.getLsbD_of_ge x _ (by omega)

/-- The two shifts and their `or` are the library's rotation. -/
theorem rotr_eq_rotateRight {n : Nat} (hn : n < 32) (x : Word) : rotr n x = x.rotateRight n := by
  rw [BitVec.rotateRight_def, Nat.mod_eq_of_lt hn, rotr]

/-- R73: a rotation moves bit `(i + n) mod 32` to place `i`. It is the bit `n` above where that exists (the right shift's
part), and the bit `32 - n` below otherwise (the left shift's). -/
theorem getLsbD_rotr {n i : Nat} (hn : n < 32) (hi : i < 32) (x : Word) :
    (rotr n x).getLsbD i = x.getLsbD ((i + n) % 32) := by
  rw [rotr_eq_rotateRight hn, BitVec.getLsbD_rotateRight_of_lt hn]
  rcases Nat.lt_or_ge i (32 - n) with hbelow | hwrap
  · have hmod : (i + n) % 32 = n + i := by omega
    simp [hmod, hbelow]
  · have hmod : (i + n) % 32 = i - (32 - n) := by omega
    simp [hmod, Nat.not_lt.2 hwrap, hi]

/-- R75: Ch's bit is `y`'s where `x`'s is 1 and `z`'s where it is 0. -/
theorem getLsbD_ch (x y z : Word) {i : Nat} (hi : i < 32) :
    (ch x y z).getLsbD i = if x.getLsbD i then y.getLsbD i else z.getLsbD i := by
  simp only [ch, BitVec.getLsbD_xor, BitVec.getLsbD_and, BitVec.getLsbD_not, hi]
  cases x.getLsbD i <;> simp

/-- Three bits' pairwise products, xored, say whether at least two of them are 1. -/
theorem xor_and_pairs_eq_majority (a b c : Bool) :
    ((a && b) ^^ (a && c) ^^ (b && c)) = decide (2 ≤ a.toNat + b.toNat + c.toNat) := by
  revert a b c
  decide

/-- R76: Maj's bit is the majority of the three. -/
theorem getLsbD_maj (x y z : Word) (i : Nat) : (maj x y z).getLsbD i =
    decide (2 ≤ (x.getLsbD i).toNat + (y.getLsbD i).toNat + (z.getLsbD i).toNat) := by
  simp only [maj, BitVec.getLsbD_xor, BitVec.getLsbD_and, xor_and_pairs_eq_majority]

/-- Settles O56: the two moves of one bit. -/
theorem rotationAndShiftMoveEveryBit : Obligations.RotationAndShiftMoveEveryBit :=
  fun x n i hi => ⟨fun _ hn => getLsbD_rotr (by omega) hi x, getLsbD_shr n x i⟩

/-- Settles O57: the choice and the majority of one bit. -/
theorem chChoosesAndMajVotesBitByBit : Obligations.ChChoosesAndMajVotesBitByBit :=
  fun x y z i hi => ⟨getLsbD_ch x y z hi, getLsbD_maj x y z i⟩

/-- Settles O59: each sigma is the xor of three moves, so its bit is the xor of the three moved bits. -/
theorem sigmasMixTheirBits : Obligations.SigmasMixTheirBits := by
  intro x i hi
  refine ⟨?_, ?_, ?_, ?_⟩
  · simp (disch := omega) only [bigSigma0, BitVec.getLsbD_xor, getLsbD_rotr]
  · simp (disch := omega) only [bigSigma1, BitVec.getLsbD_xor, getLsbD_rotr]
  · simp (disch := omega) only [smallSigma0, BitVec.getLsbD_xor, getLsbD_rotr, getLsbD_shr]
  · simp (disch := omega) only [smallSigma1, BitVec.getLsbD_xor, getLsbD_rotr, getLsbD_shr]

/-- Settles O58: ten closed facts about the functions' values, evaluated. -/
theorem mixingFunctionsAtTheirCorners : Obligations.MixingFunctionsAtTheirCorners := by
  unfold Obligations.MixingFunctionsAtTheirCorners
  decide

end Sys2Proof.Machine
end

-- ==== The block reader ====
section
/-! RDBLK in `Running` and `IDLE`, where it stores a block (41 R86, R89..R93): the bytes of each kind of block, and the
state a completed read leaves. -/

namespace Sys2Proof.Machine

/-! ## The bytes of a block -/

/-- `be64(bitlen)` in the last 8 bytes, each byte by its place in the block (20 R41). -/
theorem putLength_getElem (l : BitVec 64) (b : Block) (i : Fin 64) :
    (putLength l b)[i] = if i.val < 56 then b[i] else l.extractLsb' (8 * (63 - i.val)) 8 := by
  simp only [putLength, Fin.getElem_fin, Vector.getElem_ofFn]
  by_cases hi : i.val < 56
  · rw [if_neg (by omega), if_pos hi]
  · have hplace : 56 - 8 * (i.val - 56) = 8 * (63 - i.val) := by omega
    rw [if_pos (by omega), if_neg hi, be64Byte, hplace]

theorem terminated_getElem (n : Nat) (lane : Block) (i : Fin 64) :
    (terminated n lane)[i] = if i.val < n then lane[i] else if i.val = n then 0x80 else 0x00 := by
  simp [terminated]

theorem lengthBlock_getElem (l : BitVec 64) (i : Fin 64) :
    (lengthBlock l)[i] = if i.val < 56 then 0x00 else l.extractLsb' (8 * (63 - i.val)) 8 := by
  rw [lengthBlock, putLength_getElem]
  simp

/-- R89: the raw bytes, unchanged. -/
theorem chunkBlock_full (lane : Block) (l : BitVec 64) : chunkBlock 64 lane l = lane := rfl

/-- R91: the terminator and the zeros end below the length's 8 bytes. -/
theorem chunkBlock_short_getElem {n : Fin 65} (hn : n.val ≤ 55) (lane : Block) (l : BitVec 64) (i : Fin 64) :
    (chunkBlock n lane l)[i] =
      if i.val < n.val then lane[i]
      else if i.val = n.val then 0x80
      else if i.val < 56 then 0x00
      else l.extractLsb' (8 * (63 - i.val)) 8 := by
  rw [chunkBlock, if_neg (by omega), if_pos hn, putLength_getElem, terminated_getElem]
  by_cases hi : i.val < 56
  · simp only [if_pos hi]
  · rw [if_neg hi, if_neg (by omega), if_neg (by omega), if_neg hi]

/-- R92: no room for the length, so the terminated chunk is the block. -/
theorem chunkBlock_long {n : Fin 65} (h56 : 56 ≤ n.val) (h63 : n.val ≤ 63) (lane : Block) (l : BitVec 64) :
    chunkBlock n lane l = terminated n lane := by
  rw [chunkBlock, if_neg (by omega), if_neg (by omega)]

theorem chunkPad_full : chunkPad 64 = .notPadded := rfl

theorem chunkPad_short {n : Fin 65} (hn : n.val ≤ 55) : chunkPad n = .lengthWritten := by
  rw [chunkPad, if_neg (by omega), if_pos hn]

theorem chunkPad_long {n : Fin 65} (h56 : 56 ≤ n.val) (h63 : n.val ≤ 63) : chunkPad n = .terminatorPlaced := by
  rw [chunkPad, if_neg (by omega), if_neg (by omega)]

/-! ## A `Data` answer -/

theorem reply_data {a : Answer} {n : Fin 65} (hk : a.kind = 0) (hc : a.count.toNat = n.val) :
    a.reply = .data n a.lane := by
  simp [Answer.reply, hk, hc]

theorem acceptedRead_data {p : InterruptPolicy} {a : Answer} {rest : List SourceEvent} {n : Fin 65} {lane : Block}
    (h : a.reply = .data n lane) :
    acceptedRead p (.answer a :: rest) = { ending := .data n lane, rest := rest, retries := 0 } := by
  simp [acceptedRead, h]

/-- A `Data` answer next ends the request at once: its chunk is stored (41 R87, R88). -/
theorem readBlock_data {who : Waiter} {s : State} {a : Answer} {rest : List SourceEvent} {n : Fin 65} {lane : Block}
    {l : BitVec 64} (hpad : s.pad = .notPadded) (hs : s.source = .answer a :: rest) (ha : a.reply = .data n lane)
    (hl : s.bitlen = some l) :
    readBlock who s = .ok { s with
      buf := some (chunkBlock n lane (addBits l n.val)), bitlen := some (addBits l n.val), pad := chunkPad n
      phase := .block, waiting := none, source := rest, trace := .readRequest :: s.trace
      received := s.received ++ rawBytes n lane } := by
  rw [readBlock_notPadded hpad]
  simp [receive, hs, acceptedRead_data ha, storeChunk_some, hl, noteRequests, note]

/-! ## The command -/

/-- RDBLK is performed where a block can be read (60 R136). -/
theorem exec_rdblk_idle {s : State} (hd : s.drv = .running) (hp : s.phase = .idle) :
    exec .rdblk s = (readBlock .rdblk { s with busy := true }).outcome :=
  commanded_perform (by rw [acceptance_running hd, acceptRunning, hp]; rfl)

/-- RDBLK with a `Data` answer of `n` bytes next: one request, and the chunk with its padding is stored (41 R86). -/
theorem exec_rdblk_data {s : State} {a : Answer} {rest : List SourceEvent} {l : BitVec 64} {n : Fin 65}
    (hr : s.Ready) (hd : s.drv = .running) (hph : s.phase = .idle) (hpad : s.pad = .notPadded)
    (hl : s.bitlen = some l) (hs : s.source = .answer a :: rest) (hk : a.kind = 0) (hc : a.count.toNat = n.val) :
    exec .rdblk s = .next { s with
      buf := some (chunkBlock n a.lane (addBits l n.val)), bitlen := some (addBits l n.val), pad := chunkPad n
      phase := .block, source := rest, trace := .readRequest :: s.trace
      received := s.received ++ rawBytes n a.lane } := by
  obtain ⟨hb, hw⟩ := hr
  have hread := readBlock_data (who := .rdblk) (s := { s with busy := true }) hpad hs (reply_data hk hc) hl
  rw [exec_rdblk_idle hd hph, hread]
  simp [complete, ← hb, ← hw]

/-- RDBLK after the terminator: the length-only block, made without a request (41 R93). -/
theorem exec_rdblk_terminatorPlaced {s : State} {l : BitVec 64} (hb : s.busy = false) (hd : s.drv = .running)
    (hph : s.phase = .idle) (hpad : s.pad = .terminatorPlaced) (hl : s.bitlen = some l) :
    exec .rdblk s = .next { s with buf := some (lengthBlock l), pad := .lengthWritten, phase := .block } := by
  have hread := readBlock_terminatorPlaced (who := .rdblk) (s := { s with busy := true }) hpad hl
  rw [exec_rdblk_idle hd hph, hread]
  simp [complete, ← hb]

/-! ## The obligations -/

/-- Settles O24: a chunk of at most 55 bytes leaves at least 8 bytes after its terminator, and they take the length. -/
theorem rdblkPadsAShortChunkWithItsLength : Obligations.RdblkPadsAShortChunkWithItsLength := by
  intro s a rest l n hr hd hph hpad hl hs hk hc hn
  have hexec := exec_rdblk_data (n := ⟨n, by omega⟩) hr hd hph hpad hl hs hk hc
  rw [chunkPad_short hn] at hexec
  exact ⟨_, _, hexec, chunkBlock_short_getElem hn a.lane _⟩

/-- Settles O25: a chunk of 56 to 63 bytes has room for its terminator alone. -/
theorem rdblkPadsALongChunkWithoutLength : Obligations.RdblkPadsALongChunkWithoutLength := by
  intro s a rest l n hr hd hph hpad hl hs hk hc h56 h63
  have hexec := exec_rdblk_data (n := ⟨n, by omega⟩) hr hd hph hpad hl hs hk hc
  rw [chunkPad_long h56 h63, chunkBlock_long h56 h63] at hexec
  exact ⟨_, _, hexec, terminated_getElem n a.lane⟩

/-- Settles O23: a chunk of 64 bytes is the block, and no padding is emitted. -/
theorem rdblkStoresAFullDataBlock : Obligations.RdblkStoresAFullDataBlock := by
  intro s a rest l hr hd hph hpad hl hs hk hc
  have hexec := exec_rdblk_data (n := 64) hr hd hph hpad hl hs hk (by rw [hc]; rfl)
  have hbits : addBits l (64 : Fin 65).val = l + 512 := rfl
  rw [hbits, chunkBlock_full, chunkPad_full, ← hpad] at hexec
  exact ⟨_, hexec⟩

/-- Settles O26: the command's state is the statement's, and the block's bytes are `lengthBlock`'s. -/
theorem rdblkWritesTheLengthOnlyBlock : Obligations.RdblkWritesTheLengthOnlyBlock := by
  intro s l hb hd hph hpad hl
  exact ⟨lengthBlock l, exec_rdblk_terminatorPlaced hb hd hph hpad hl, lengthBlock_getElem l⟩

end Sys2Proof.Machine
end

-- ==== The message schedule ====
section
/-! EXPAND in `BLOCK` (42 R100..R103): the words of its schedule, and the state it leaves. -/

namespace Sys2Proof.Machine

/-! ## The words of the schedule -/

/-- The word R102 makes for place `t + 16` out of the ones before it. -/
def nextWord (w : Schedule) (t : Nat) (ht : t < 48) : Word :=
  smallSigma1 w[t + 14] + w[t + 9] + smallSigma0 w[t + 1] + w[t]

/-- The schedule with its first `n + 16` words written: `expandSchedule` cut off after `n` steps. -/
def partialSchedule (b : Block) (n : Nat) (hn : n ≤ 48) : Schedule :=
  Nat.fold n (fun t _ w => w.set (t + 16) (nextWord w t (by omega))) (firstWords b)

theorem expandSchedule_eq_partialSchedule (b : Block) : expandSchedule b = partialSchedule b 48 (by omega) := rfl

theorem partialSchedule_zero (b : Block) : partialSchedule b 0 (by omega) = firstWords b := rfl

theorem partialSchedule_succ (b : Block) (n : Nat) (hn : n + 1 ≤ 48) :
    partialSchedule b (n + 1) hn =
      (partialSchedule b n (by omega)).set (n + 16) (nextWord (partialSchedule b n (by omega)) n hn) := rfl

/-- A written word stays: the steps go up, and each writes one place above those written. -/
theorem partialSchedule_getElem_of_le {b : Block} {n m : Nat} (h : n ≤ m) (hm : m ≤ 48) {j : Nat} (hj : j < n + 16) :
    (partialSchedule b m hm)[j] = (partialSchedule b n (by omega))[j] := by
  induction h with
  | refl => rfl
  | @step m h ih =>
    have hne : m + 16 ≠ j := by have : n ≤ m := h; omega
    rw [partialSchedule_succ, Vector.getElem_set_ne _ _ hne]
    exact ih (by omega)

/-- The whole schedule agrees with a part of it where that part is written. -/
theorem expandSchedule_getElem_of_lt {b : Block} {n : Nat} (hn : n ≤ 48) {j : Nat} (hj : j < n + 16) :
    (expandSchedule b)[j] = (partialSchedule b n hn)[j] := by
  simp only [expandSchedule_eq_partialSchedule]
  exact partialSchedule_getElem_of_le hn (by omega) hj

/-- R101: the first 16 words are the block's. -/
theorem expandSchedule_getElem_first (b : Block) (j : Fin 16) : (expandSchedule b)[j.val] = blockWord b j := by
  rw [expandSchedule_getElem_of_lt (n := 0) (by omega) (by omega), partialSchedule_zero]
  simp [firstWords]

/-- R102 at place `t + 16`: step `t` writes it from words that stay, and it stays itself. -/
theorem expandSchedule_getElem_add_16 (b : Block) (t : Nat) (ht : t < 48) :
    (expandSchedule b)[t + 16] = nextWord (expandSchedule b) t ht :=
  calc (expandSchedule b)[t + 16]
    _ = (partialSchedule b (t + 1) ht)[t + 16] := expandSchedule_getElem_of_lt ht (by omega)
    _ = nextWord (partialSchedule b t (by omega)) t ht := by rw [partialSchedule_succ, Vector.getElem_set_self]
    _ = nextWord (expandSchedule b) t ht := by
      simp (disch := omega) only [nextWord, expandSchedule_getElem_of_lt (n := t) (Nat.le_of_lt ht)]

/-! ## The command -/

/-- EXPAND on a block: `W` and the phase change, and its end clears the `busy` its acceptance set (42 R103). -/
theorem exec_expand_block {s : State} {b : Block} (hb : s.busy = false) (hd : s.drv = .running)
    (hph : s.phase = .block) (hbuf : s.buf = some b) :
    exec .expand s = .next { s with sched := some (expandSchedule b), phase := .sched } :=
  have haccept : acceptance .expand s = .perform := by rw [acceptance_running hd, acceptRunning, hph]; rfl
  calc exec .expand s
    _ = commanded .expand expandBlock s := rfl
    _ = (expandBlock { s with busy := true }).outcome := commanded_perform haccept
    _ = .next (complete { s with busy := true, sched := some (expandSchedule b), phase := .sched }) :=
      congrArg Flow.outcome (expandBlock_some (s := { s with busy := true }) hbuf)
    _ = .next { s with sched := some (expandSchedule b), phase := .sched } := by simp [complete, ← hb]

/-- Settles O34: the schedule is `expandSchedule`, whose places from 16 on are `t + 16` for a step `t`. -/
theorem expandComputesTheSchedule : Obligations.ExpandComputesTheSchedule := by
  intro s b hb hd hph hbuf
  refine ⟨expandSchedule b, exec_expand_block hb hd hph hbuf, expandSchedule_getElem_first b, fun t h16 h64 => ?_⟩
  obtain ⟨t, rfl⟩ := Nat.exists_eq_add_of_le' h16
  exact expandSchedule_getElem_add_16 b t (by omega)

end Sys2Proof.Machine
end

-- ==== The compressor ====
section
/-! CINIT, ROUND and FOLD where they are performed, and COMPRESS against the sequence of them (43 R105..R114). -/

namespace Sys2Proof.Machine

/-! ## A core that has failed -/

/-- In `Failed` with `busy = 0` every command but INIT changes nothing (60 R139). -/
theorem exec_failed {i : Instr} {s : State} (hb : s.busy = false) (hd : s.drv = .failed) (hi : i ≠ .init) :
    exec i s = .next s := by
  have hskip (op : State → Flow) : commanded i op s = .next s := by
    rw [commanded_skip (acceptance_failed hd hi), complete_of_not_busy hb]
  cases i with
  | init => exact absurd rfl hi
  | rdblk | expand | cinit | round | fold | compress | step | run | digest => exact hskip _

theorem execAll_failed {s : State} (hb : s.busy = false) (hd : s.drv = .failed) (is : List Instr) (hi : .init ∉ is) :
    execAll is s = .next s := by
  induction is with
  | nil => rfl
  | cons i is ih =>
    obtain ⟨hne, hrest⟩ := not_or.1 (mt List.mem_cons.2 hi)
    rw [execAll_cons (exec_failed hb hd (Ne.symm hne)), ih hrest]

/-! ## Acceptance -/

/-- COMPRESS is accepted as its first command is (60 R136). -/
theorem acceptance_compress (s : State) : acceptance .compress s = acceptance .cinit s := by
  unfold acceptance
  cases s.drv <;> rfl

theorem acceptance_cinit_eq_perform {s : State} :
    acceptance .cinit s = .perform ↔ s.drv = .running ∧ s.phase = .sched := by
  cases hd : s.drv <;> simp [acceptance, acceptRunning, acceptDone, hd]

theorem acceptance_cinit_eq_skip {s : State} (h : acceptance .cinit s = .skip) : s.drv = .failed := by
  cases hd : s.drv with
  | failed => rfl
  | running => exact absurd ((acceptance_running hd).symm.trans h) (require_ne_skip _)
  | uninit => simp [acceptance_uninit hd] at h
  | done => simp [acceptance_done hd, acceptDone] at h

/-! ## The commands, performed -/

theorem exec_round_rounds {s : State} (hd : s.drv = .running) (hph : s.phase = .rounds) (ht : s.rnd.val < 64) :
    exec .round s = (roundStep { s with busy := true }).outcome :=
  commanded_perform (by simp [acceptance_running hd, acceptRunning, hph]; omega)

theorem exec_fold_rounds {s : State} (hd : s.drv = .running) (hph : s.phase = .rounds) (ht : s.rnd.val = 64) :
    exec .fold s = (foldBlock { s with busy := true }).outcome :=
  commanded_perform (by simp [acceptance_running hd, acceptRunning, hph, ht])

/-- CINIT's operation reads `H` and can do nothing but complete where it holds a value. -/
theorem loadVars_cases (s : State) :
    (∃ e, loadVars s = .unwritten e) ∨
    (∃ v, loadVars s = .ok { s with vars := some v, rnd := 0, phase := .rounds }) := by
  rcases Option.eq_none_or_eq_some s.hash with hh | ⟨hash, hh⟩
  · exact .inl ⟨.hash, by simp [loadVars, hh]⟩
  · exact .inr ⟨varsOf hash, loadVars_some hh⟩

/-- A round that is left reads the working variables and `W`, and can do nothing but complete where both hold a value. -/
theorem roundStep_cases {s : State} (ht : s.rnd.val < 64) :
    (∃ e, roundStep s = .unwritten e) ∨
    (∃ v, roundStep s = .ok { s with vars := some v, rnd := ⟨s.rnd.val + 1, by omega⟩ }) := by
  rcases Option.eq_none_or_eq_some s.vars with hv | ⟨v, hv⟩
  · exact .inl ⟨.vars, by simp [roundStep, ht, hv]⟩
  · rcases Option.eq_none_or_eq_some s.sched with hw | ⟨w, hw⟩
    · exact .inl ⟨.sched, by simp [roundStep, ht, hv, hw]⟩
    · exact .inr ⟨_, roundStep_some hv hw ht⟩

/-! ## The commands one after the other -/

theorem execAll_cons_fault {i : Instr} {s : State} {f : Fault} (rest : List Instr) (h : exec i s = .fault f) :
    execAll (i :: rest) s = .fault f := by
  simp [execAll, h]

theorem execAll_singleton (i : Instr) (s : State) : execAll [i] s = exec i s := by
  cases h : exec i s <;> simp [execAll, h]

/-- The rounds left and FOLD, as commands, are COMPRESS's rounds and fold: between two commands `busy` falls, and the next
acceptance sets it again. -/
theorem execAll_rounds_fold (n : Nat) :
    ∀ s : State, s.drv = .running → s.phase = .rounds → s.rnd.val + n = 64 →
      execAll (List.replicate n .round ++ [.fold]) s =
        ((roundSteps n { s with busy := true }).bind foldBlock).outcome := by
  induction n with
  | zero =>
    intro s hd hph hn
    exact (execAll_singleton .fold s).trans (exec_fold_rounds hd hph hn)
  | succ n ih =>
    intro s hd hph hn
    have hround := exec_round_rounds hd hph (by omega)
    rw [List.replicate_succ, List.cons_append, roundSteps]
    rcases roundStep_cases (s := { s with busy := true }) (by simp; omega) with ⟨e, he⟩ | ⟨v, hv⟩
    · rw [he] at hround ⊢
      exact execAll_cons_fault _ hround
    · rw [hv] at hround ⊢
      exact (execAll_cons hround).trans (ih _ hd hph (by simp; omega))

/-- Where CINIT is performed, COMPRESS is too, and both go through the same 66 operations. -/
theorem exec_compress_perform {s : State} (ha : acceptance .cinit s = .perform) :
    exec .compress s = execAll (.cinit :: List.replicate 64 .round ++ [.fold]) s := by
  have hcinit : exec .cinit s = (loadVars { s with busy := true }).outcome := commanded_perform ha
  have hcompress : exec .compress s = (compressBlock { s with busy := true }).outcome :=
    commanded_perform ((acceptance_compress s).trans ha)
  rw [hcompress, compressBlock, flow_bind_assoc]
  rcases loadVars_cases { s with busy := true } with ⟨e, he⟩ | ⟨v, hv⟩
  · rw [he] at hcinit ⊢
    exact (execAll_cons_fault _ hcinit).symm
  · obtain ⟨hd, -⟩ := acceptance_cinit_eq_perform.1 ha
    rw [hv] at hcinit ⊢
    exact ((execAll_cons hcinit).trans (execAll_rounds_fold 64 _ hd rfl rfl)).symm

/-! ## The obligations -/

/-- Settles O36: one `roundVars` with the constant and the word of the round. -/
theorem roundUpdatesAllEightVariables : Obligations.RoundUpdatesAllEightVariables := by
  rintro s v w _ ht hb hd hph rfl hv hw
  have hstep := roundStep_some (s := { s with busy := true }) hv hw ht
  refine ⟨_, _, rfl, rfl, ?_⟩
  rw [exec_round_rounds hd hph ht, hstep, flow_outcome_ok, complete, ← hb]
  rfl

/-- Settles O37: `foldHash` into `H`, and the driver's test on `pad`. -/
theorem foldAccumulatesIntoTheHash : Obligations.FoldAccumulatesIntoTheHash := by
  intro s h v hb hd hph ht hh hv
  have hfold := foldBlock_some (s := { s with busy := true }) hh hv
  rw [exec_fold_rounds hd hph ht, hfold, flow_outcome_ok, complete, ← hb, ← hd]
  rfl

/-- Settles O38: where CINIT is not performed, it and COMPRESS leave the same state, in `Failed`, and the other commands
leave it as it is. -/
theorem compressEqualsItsSixtySixCommands : Obligations.CompressEqualsItsSixtySixCommands := by
  intro s hb
  cases ha : acceptance .cinit s with
  | perform => exact exec_compress_perform ha
  | skip =>
    have hd := acceptance_cinit_eq_skip ha
    rw [exec_failed hb hd (by simp), execAll_failed hb hd _ (by simp)]
  | raise c =>
    have hcinit : exec .cinit s = .next (raiseFault c s) := commanded_raise ha
    have hcompress : exec .compress s = .next (raiseFault c s) :=
      commanded_raise ((acceptance_compress s).trans ha)
    have hrest := execAll_failed (raiseFault_busy c s) (raiseFault_drv c s)
      (List.replicate 64 .round ++ [.fold]) (by simp)
    exact hcompress.trans ((execAll_cons hcinit).trans hrest).symm

end Sys2Proof.Machine
end

-- ==== The answer to a read request ====
section
/-! What the byte source's answer does to the three commands that read it, RDBLK, STEP and RUN: the faults of an answer, and
the retry (41 R87, 60 R142, R143). -/

namespace Sys2Proof.Machine

/-! ## The answer, read -/

theorem reply_interrupted {a : Answer} (hk : a.kind = 1) : a.reply = .interrupted := by
  simp [Answer.reply, hk]

theorem reply_error {a : Answer} (hk : a.kind = 2) : a.reply = .error := by
  simp [Answer.reply, hk]

theorem acceptedRead_error {p : InterruptPolicy} {a : Answer} {rest : List SourceEvent} (h : a.reply = .error) :
    acceptedRead p (.answer a :: rest) = { ending := .raise .ioError, rest := rest, retries := 0 } := by
  simp [acceptedRead, h]

theorem acceptedRead_abort {a : Answer} {rest : List SourceEvent} (h : a.reply = .interrupted) :
    acceptedRead .abort (.answer a :: rest) = { ending := .raise .ioInterrupted, rest := rest, retries := 0 } := by
  simp [acceptedRead, h]

theorem acceptedRead_retry {a : Answer} {rest : List SourceEvent} (h : a.reply = .interrupted) :
    acceptedRead .retry (.answer a :: rest) = (acceptedRead .retry rest).retried := by
  simp [acceptedRead, h]

/-! ## The outstanding request -/

/-- The fault of the first answer: the request ends, and nothing is stored (41 R87). -/
theorem receive_raise {who : Waiter} {s : State} {rest : List SourceEvent} {c : Cause}
    (h : acceptedRead s.policy s.source = { ending := .raise c, rest := rest, retries := 0 }) :
    receive who s = .stop (raiseFault c { s with source := rest, waiting := none }) := by
  simp [receive, h, noteRequests]

theorem noteRequests_succ (k : Nat) (s : State) :
    noteRequests (k + 1) s = noteRequests k (note .readRequest s) := by
  simp [noteRequests, note, List.replicate_succ']

/-- Under `Retry` an `Interrupted` answer is gone and one more request is shown; the request goes on as before. -/
theorem receive_retry {who : Waiter} {s : State} {a : Answer} {rest : List SourceEvent} (hp : s.policy = .retry)
    (hs : s.source = .answer a :: rest) (ha : a.reply = .interrupted) :
    receive who s = receive who (note .readRequest { s with source := rest }) := by
  simp only [receive, note_policy, note_source, hp, hs, acceptedRead_retry ha, retried_ending, retried_rest,
    retried_retries, noteRequests_succ]
  rfl

/-! ## The three commands that read -/

/-- Each of them is performed where a block can be read (60 R136). -/
theorem acceptance_reader {i : Instr} {s : State} (hi : i = .rdblk ∨ i = .step ∨ i = .run) (hd : s.drv = .running)
    (hph : s.phase = .idle) : acceptance i s = .perform := by
  rw [acceptance_running hd]
  rcases hi with rfl | rfl | rfl <;> simp [acceptRunning, hph]

/-- RDBLK, STEP and RUN begin alike: one request, and its answer; only what follows a stored chunk differs. -/
theorem exec_reader {i : Instr} (hi : i ∈ [Instr.rdblk, .step, .run]) :
    ∃ (who : Waiter) (next : State → Flow), ∀ s : State, s.drv = .running → s.phase = .idle → s.pad = .notPadded →
      exec i s = ((receive who (note .readRequest { s with busy := true })).bind next).outcome := by
  have hi : i = .rdblk ∨ i = .step ∨ i = .run := by simpa using hi
  have haccept {s : State} := acceptance_reader (s := s) hi
  rcases hi with rfl | rfl | rfl
  · refine ⟨.rdblk, .ok, fun s hd hph hpad => ?_⟩
    rw [exec_rdblk_idle hd hph, readBlock_notPadded (s := { s with busy := true }) hpad]
    cases receive .rdblk (note .readRequest { s with busy := true }) <;> rfl
  · refine ⟨.step, processBlock, fun s hd hph hpad => ?_⟩
    rw [← readBlock_notPadded (s := { s with busy := true }) hpad]
    exact commanded_perform (haccept hd hph)
  · refine ⟨.run false, fun s => (processBlock s).bind (runToEnd true), fun s hd hph hpad => ?_⟩
    rw [← readBlock_notPadded (s := { s with busy := true }) hpad, ← flow_bind_assoc, ← driverStep,
      ← runToEnd_running (s := { s with busy := true }) hd]
    exact commanded_perform (haccept hd hph)

/-- An answer that raises a fault ends each of them in `Failed`, after one request and with nothing stored. -/
theorem exec_reader_raise {i : Instr} {s : State} {rest : List SourceEvent} {c : Cause}
    (hi : i ∈ [Instr.rdblk, .step, .run]) (hr : s.Ready) (hd : s.drv = .running) (hph : s.phase = .idle)
    (hpad : s.pad = .notPadded)
    (h : acceptedRead s.policy s.source = { ending := .raise c, rest := rest, retries := 0 }) :
    exec i s = .next { s with
      drv := .failed, cause := c, source := rest, trace := .readRequest :: s.trace } := by
  obtain ⟨hb, hw⟩ := hr
  obtain ⟨who, next, hexec⟩ := exec_reader hi
  have hread := receive_raise (who := who) (s := note .readRequest { s with busy := true }) h
  rw [hexec s hd hph hpad, hread]
  simp [raiseFault, note, ← hb, ← hw]

/-- An `Interrupted` answer under `Retry` leaves each of them as without it, one request later. -/
theorem exec_reader_retry {i : Instr} {s : State} {a : Answer} {rest : List SourceEvent}
    (hi : i ∈ [Instr.rdblk, .step, .run]) (hd : s.drv = .running) (hph : s.phase = .idle) (hpad : s.pad = .notPadded)
    (hp : s.policy = .retry) (hs : s.source = .answer a :: rest) (ha : a.reply = .interrupted) :
    exec i s = exec i { s with source := rest, trace := .readRequest :: s.trace } := by
  obtain ⟨who, next, hexec⟩ := exec_reader hi
  have hread := receive_retry (who := who) (s := note .readRequest { s with busy := true }) hp hs ha
  rw [hexec s hd hph hpad, hread]
  exact (hexec { s with source := rest, trace := .readRequest :: s.trace } hd hph hpad).symm

/-- Settles O27: the answer reads as `Error`, which ends the read under either policy. -/
theorem errorAnswerRaisesIoError : Obligations.ErrorAnswerRaisesIoError := by
  intro s a rest i hi hr hd hph hpad hs hk
  have hread : acceptedRead s.policy s.source = { ending := .raise .ioError, rest := rest, retries := 0 } := by
    rw [hs, acceptedRead_error (reply_error hk)]
  exact ⟨_, exec_reader_raise hi hr hd hph hpad hread, rfl, by simp [State.result, hr.1]⟩

end Sys2Proof.Machine
end

-- ==== What no command changes ====
section
/-! The policy, the port and the host's moves are none of a command's elements (60 R142, 70 R166), and no step changes the
policy. -/

namespace Sys2Proof.Machine

/-! ## The states a flow leaves -/

/-- What the flow leaves, completed or stopped, satisfies `P`. -/
def Flow.Leaves (P : State → Prop) : Flow → Prop
  | .ok s => P s
  | .stop s => P s
  | .unwritten _ => True

theorem leaves_unwritten {P : State → Prop} {e : Element} : (Flow.unwritten e).Leaves P := trivial

theorem leaves_bind {P : State → Prop} {r : Flow} {k : State → Flow} (hr : r.Leaves P)
    (hk : ∀ s, P s → (k s).Leaves P) : (r.bind k).Leaves P := by
  cases r with
  | ok s => exact hk s hr
  | stop s => exact hr
  | unwritten e => trivial

/-! ## The elements outside the commands' reach -/

/-- The policy, the port and the host's moves: what no command's operation touches. -/
def State.outside (s : State) : InterruptPolicy × Option PortInput × List HostMove := (s.policy, s.port, s.host)

/-- The operation leaves what is outside as it finds it. -/
def KeepsOutside (op : State → Flow) : Prop := ∀ s, (op s).Leaves fun t => t.outside = s.outside

theorem KeepsOutside.bind {f g : State → Flow} (hf : KeepsOutside f) (hg : KeepsOutside g) :
    KeepsOutside fun s => (f s).bind g := fun s =>
  leaves_bind (hf s) fun t ht => ht ▸ hg t

/-! ## One operation after the other -/

theorem receive_keepsOutside (who : Waiter) : KeepsOutside (receive who) := by
  intro s
  rcases receive_cases who s with ⟨n, lane, -, hr⟩ | ⟨c, -, hr⟩ | ⟨-, hr⟩
  · rw [hr, storeChunk]
    split
    · exact leaves_unwritten
    · rfl
  · rw [hr]; rfl
  · rw [hr]; rfl

theorem readBlock_keepsOutside (who : Waiter) : KeepsOutside (readBlock who) := by
  intro s
  unfold readBlock
  split
  · exact receive_keepsOutside who (note .readRequest s)
  · split
    · exact leaves_unwritten
    · rfl
  · rfl

theorem expandBlock_keepsOutside : KeepsOutside expandBlock := by
  intro s
  unfold expandBlock
  split
  · exact leaves_unwritten
  · rfl

theorem loadVars_keepsOutside : KeepsOutside loadVars := by
  intro s
  rcases loadVars_cases s with ⟨e, h⟩ | ⟨v, h⟩
  · exact h ▸ leaves_unwritten
  · rw [h]; rfl

theorem roundStep_keepsOutside : KeepsOutside roundStep := by
  intro s
  by_cases ht : s.rnd.val < 64
  · rcases roundStep_cases ht with ⟨e, h⟩ | ⟨v, h⟩
    · exact h ▸ leaves_unwritten
    · rw [h]; rfl
  · rw [roundStep, dif_neg ht]; rfl

theorem foldBlock_keepsOutside : KeepsOutside foldBlock := by
  intro s
  unfold foldBlock
  split
  · exact leaves_unwritten
  · exact leaves_unwritten
  · rfl

theorem roundSteps_keepsOutside (n : Nat) : KeepsOutside (roundSteps n) := by
  induction n with
  | zero => exact fun s => rfl
  | succ n ih => exact roundStep_keepsOutside.bind ih

theorem compressBlock_keepsOutside : KeepsOutside compressBlock :=
  (loadVars_keepsOutside.bind (roundSteps_keepsOutside 64)).bind foldBlock_keepsOutside

theorem processBlock_keepsOutside : KeepsOutside processBlock :=
  expandBlock_keepsOutside.bind compressBlock_keepsOutside

theorem driverStep_keepsOutside (who : Waiter) : KeepsOutside (driverStep who) :=
  (readBlock_keepsOutside who).bind processBlock_keepsOutside

theorem runLoop_keepsOutside (n : Nat) : ∀ folded : Bool, KeepsOutside (runLoop n folded) := by
  induction n with
  | zero => exact fun folded s => rfl
  | succ n ih =>
    intro folded s
    by_cases hd : s.drv = .running
    · rw [runLoop_running hd]
      exact (driverStep_keepsOutside (.run folded)).bind (ih true) s
    · rw [runLoop_not_running hd]; rfl

theorem runToEnd_keepsOutside (folded : Bool) : KeepsOutside (runToEnd folded) := fun s =>
  runLoop_keepsOutside (runBound s) folded s

theorem digestWrite_keepsOutside : KeepsOutside digestWrite := by
  intro s
  unfold digestWrite
  split
  · exact leaves_unwritten
  · rfl

theorem resume_keepsOutside (who : Waiter) : KeepsOutside (resume who) := by
  cases who with
  | rdblk => exact receive_keepsOutside .rdblk
  | step => exact (receive_keepsOutside .step).bind processBlock_keepsOutside
  | run folded =>
    exact ((receive_keepsOutside (.run folded)).bind processBlock_keepsOutside).bind (runToEnd_keepsOutside true)

/-! ## A whole command -/

theorem outside_of_outcome {r : Flow} {s t : State} (hr : r.Leaves fun u => u.outside = s.outside)
    (h : r.outcome = .next t) : t.outside = s.outside := by
  rcases flow_outcome_eq_next.1 h with ⟨u, rfl, rfl⟩ | rfl
  · exact hr
  · exact hr

theorem commanded_outside {i : Instr} {op : State → Flow} {s t : State} (hop : KeepsOutside op)
    (h : commanded i op s = .next t) : t.outside = s.outside := by
  rcases commanded_cases i op s with ⟨-, hc⟩ | ⟨-, hc⟩ | ⟨c, -, hc⟩ <;> rw [hc] at h
  · exact outside_of_outcome (hop { s with busy := true }) h
  · cases h; rfl
  · cases h; rfl

/-- A command touches neither the policy nor the port nor the host's moves. -/
theorem exec_outside {i : Instr} {s t : State} (h : exec i s = .next t) : t.outside = s.outside := by
  cases i with
  | init => exact commanded_outside (op := initBlock) (fun _ => rfl) h
  | rdblk => exact commanded_outside (readBlock_keepsOutside .rdblk) h
  | expand => exact commanded_outside expandBlock_keepsOutside h
  | cinit => exact commanded_outside loadVars_keepsOutside h
  | round => exact commanded_outside roundStep_keepsOutside h
  | fold => exact commanded_outside foldBlock_keepsOutside h
  | compress => exact commanded_outside compressBlock_keepsOutside h
  | step => exact commanded_outside (driverStep_keepsOutside .step) h
  | run => exact commanded_outside (runToEnd_keepsOutside false) h
  | digest => exact commanded_outside digestWrite_keepsOutside h

/-! ## The step -/

theorem illegalWord_outside (s : State) : (illegalWord s).outside = s.outside := by
  unfold illegalWord
  split <;> rfl

theorem acceptInput_outside {p : PortInput} {s t : State} (h : acceptInput p s = .next t) : t.outside = s.outside := by
  unfold acceptInput at h
  split at h
  · cases h
  · split at h
    · exact exec_outside h
    · cases h; exact illegalWord_outside s

/-- The core's own turn takes an input, which leaves the policy to the command, or goes on with a command, or waits. -/
theorem coreTurn_policy {s t : State} (h : coreTurn s = .next t) : t.policy = s.policy := by
  rcases coreTurn_cases s with ⟨p, -, -, hc⟩ | ⟨who, -, -, hc⟩ | ⟨-, hc⟩ <;> rw [hc] at h
  · exact congrArg Prod.fst (acceptInput_outside h)
  · exact congrArg Prod.fst (outside_of_outcome (resume_keepsOutside who s) h)
  · cases h; rfl

@[simp] theorem cutShort_policy (reset : Option Nat) (s t : State) : (cutShort reset s t).policy = t.policy := by
  cases reset <;> rfl

theorem interleaved_policy {s t : State} (h : interleaved s = .next t) : t.policy = s.policy := by
  rcases interleaved_cases s with ⟨u, hu, hi⟩ | ⟨hno, hi⟩ <;> rw [hi] at h
  · cases h
    simpa using coreTurn_policy hu
  · exact absurd h (hno t)

/-- `INTERRUPT_POLICY` is fixed (60 R142): neither the core's turn nor a move of the host changes it. -/
theorem step_policy {s t : State} (h : step s = .next t) : t.policy = s.policy := by
  unfold step at h
  rcases cycle_cases s with ⟨rest, -, hc⟩ | ⟨rest, -, hc⟩ | ⟨p, rest, -, -, hc⟩ | ⟨rest, -, hc⟩ | ⟨-, -, hc⟩ |
    ⟨-, rest, -, hc⟩ | ⟨-, m, rest, -, hc⟩ | ⟨-, hc⟩ <;> rw [hc] at h
  · cases h; rfl
  · cases h; rfl
  · cases h; rfl
  · exact coreTurn_policy (s := { s with host := rest }) h
  · exact interleaved_policy h
  · cases h; rfl
  · cases h; rfl
  · exact coreTurn_policy h

/-- Settles O29: the policy is outside every command's reach, and the answer reads as `Interrupted`. -/
theorem interruptedAnswerFollowsThePolicy : Obligations.InterruptedAnswerFollowsThePolicy := by
  refine ⟨fun s t => step_policy, fun s a rest i hi hr hd hph hpad hs hk => ⟨fun hp => ?_, fun hp => ?_⟩⟩
  · exact exec_reader_retry hi hd hph hpad hp hs (reply_interrupted hk)
  · exact exec_reader_raise hi hr hd hph hpad (by rw [hp, hs, acceptedRead_abort (reply_interrupted hk)])

end Sys2Proof.Machine
end

-- ==== Words taken in Failed ====
section
/-! What a core that has failed does with the words on its port (60 R139). -/

namespace Sys2Proof

theorem Cmd.toWord_ofWord (w : Word) : (Cmd.ofWord w).toWord = w :=
  (BitVec.extractLsb'_append_extractLsb'_eq_extractLsb' rfl).trans BitVec.extractLsb'_eq_self

/-- The opcode map reads each value as the one command it belongs to. -/
theorem opcode_of_opcodeInstr {op : BitVec 8} {i : Instr} (h : opcodeInstr op = some i) : i.opcode = op := by
  unfold opcodeInstr at h
  split at h <;> cases h
  all_goals exact BitVec.eq_of_toNat_eq (Eq.symm ‹_›)

/-- A word that decodes to a command is that command's encoding. -/
theorem encode_of_decode {w : Word} {i : Instr} (h : decode w = .ok i) : encode i = w := by
  obtain ⟨hr, ho⟩ := decode_eq_ok_iff.1 h
  rw [encode, opcode_of_opcodeInstr ho, ← hr, Cmd.toWord_ofWord]

end Sys2Proof

namespace Sys2Proof.Machine

/-- In `Failed` the core takes a word that is not INIT's and stays as it is. -/
theorem coreTurn_failed {s : State} {w : Word} (hb : s.busy = false) (hd : s.drv = .failed)
    (hp : s.port = some ⟨32, w⟩) (hw : w ≠ 0x00000001) : coreTurn s = .next { s with port := none } := by
  by_cases hlegal : ∃ i, decode w = .ok i
  · obtain ⟨i, hi⟩ := hlegal
    have hne : i ≠ .init := by
      rintro rfl
      exact hw (encode_of_decode hi).symm
    rw [coreTurn_accepts hb hp, acceptInput_word (w := w) (by simp [PortInput.word?]) hi]
    exact exec_failed hb hd hne
  · rw [coreTurn_illegal hb hp hlegal, illegalWord_of_not_busy (s := { s with port := none }) hb, if_pos hd]

/-- Settles O15: a command is skipped, and the core's turn on any other word takes it off the port. -/
theorem failedRefusesAllButInit : Obligations.FailedRefusesAllButInit := by
  refine fun s hb hd => ⟨fun i hi => exec_failed hb hd hi, fun w hp hw => ?_⟩
  have turn := coreTurn_failed hb hd hp hw
  exact ⟨fun hwait => (cycle_waits hwait).trans turn, (step_pause s).trans turn⟩

end Sys2Proof.Machine
end

-- ==== Hardware reset ====
section
/-! What hardware reset leaves (70 R158, 10 R35). -/

namespace Sys2Proof.Machine

/-- With nothing on its port an idle core waits for a command. -/
theorem coreTurn_idle {s : State} (hb : s.busy = false) (hp : s.port = none) : coreTurn s = .next s := by
  simp [coreTurn, hb, hp]

@[simp] theorem hardReset_statusWord (s : State) : (hardReset s).statusWord = 0x00000000 :=
  calc (hardReset s).statusWord
    _ = State.reset.statusWord := rfl
    _ = 0x00000000 := by decide

/-- Where the host does nothing, a core that was reset stays as it is. -/
theorem step_hardReset_idle {s : State} (hp : (hardReset s).port = none) (hh : (hardReset s).host = []) :
    step (hardReset s) = .next (hardReset s) :=
  (cycle_waits (.inl hh)).trans (coreTurn_idle (hardReset_busy s) hp)

/-- Settles O10: the reset values field by field, then the step of an idle core with nothing on its port. -/
theorem hardwareResetPutsEveryPieceAtItsValue : Obligations.HardwareResetPutsEveryPieceAtItsValue := by
  intro s
  exact ⟨hardReset_drv s, hardReset_pad s, hardReset_phase s, hardReset_rnd s, hardReset_busy s, hardReset_cause s,
    hardReset_hash s, hardReset_vars s, hardReset_sched s, hardReset_buf s, hardReset_bitlen s, hardReset_waiting s,
    hardReset_statusWord s, step_hardReset_idle⟩

end Sys2Proof.Machine
end

-- ==== Words and their commands ====
section
/-! The decoder and the encoder are inverse to each other (30 R56, R59). -/

namespace Sys2Proof

theorem decode_encode (i : Instr) : decode (encode i) = .ok i := by
  cases i with
  | init => exact Laws.RoundTrip.init.2
  | rdblk => exact Laws.RoundTrip.rdblk.2
  | expand => exact Laws.RoundTrip.expand.2
  | cinit => exact Laws.RoundTrip.cinit.2
  | round => exact Laws.RoundTrip.round.2
  | fold => exact Laws.RoundTrip.fold.2
  | compress => exact Laws.RoundTrip.compress.2
  | step => exact Laws.RoundTrip.step.2
  | run => exact Laws.RoundTrip.run.2
  | digest => exact Laws.RoundTrip.digest.2

/-- Settles O1: a word that decodes to a command is its encoding, and each encoding decodes to its command. -/
theorem decodesToACommandExactlyItsEncoding : Obligations.DecodesToACommandExactlyItsEncoding := by
  refine fun w i => ⟨fun h => (encode_of_decode h).symm, ?_⟩
  rintro rfl
  exact decode_encode i

end Sys2Proof
end

-- ==== The invariant ====
section
/-! Every step keeps the invariant, and from it no step reads `⊥` (10 R34, 60 R156). Within a command `busy` is 1 and no
command waits, so what holds there has a form of its own, `State.Computing`. -/

namespace Sys2Proof.Machine

/-! ## Reset -/

/-- The core's reset values meet the invariant, whatever is outside the core. -/
theorem inv_hardReset (s : State) : (hardReset s).Inv := by
  constructor <;> simp

/-- Settles O48: the reset state is its own hardware reset. -/
theorem resetMeetsTheInvariant : Obligations.ResetMeetsTheInvariant :=
  inv_hardReset State.reset

/-- With `busy = 0` no command waits (10 R26). -/
theorem waiting_none_of_inv {s : State} (h : s.Inv) (hb : s.busy = false) : s.waiting = none := by
  have := h.busy_iff_waiting
  rw [hb] at this
  simpa using this

/-! ## Within a command -/

/-- What the invariant says while a command of a computation is under way: `busy` is 1, and no command waits. -/
structure State.Computing (s : State) : Prop where
  running : s.drv = .running
  busy : s.busy = true
  not_waiting : s.waiting = none
  no_cause : s.cause = .none
  bits : s.bitlen = some (BitVec.ofNat 64 (8 * s.received.length))
  hash : ∃ h, s.hash = some h
  not_terminal : s.phase = .idle → s.pad ≠ .lengthWritten
  rnd : s.rnd.val ≠ 0 → s.phase = .rounds
  buf : s.phase = .block → ∃ b, s.buf = some b
  sched : s.phase = .sched ∨ s.phase = .rounds → ∃ w, s.sched = some w
  vars : s.phase = .rounds → ∃ v, s.vars = some v

/-- Accepting a command under the invariant. -/
theorem computing_of_inv {s : State} (hi : s.Inv) (hb : s.busy = false) (hd : s.drv = .running) :
    ({ s with busy := true } : State).Computing :=
  have hw := waiting_none_of_inv hi hb
  have hcause := not_not.1 fun hc => by simpa [hd] using hi.cause_iff_failed.1 hc
  {
  running := hd
  busy := rfl
  not_waiting := hw
  no_cause := hcause
  bits := hi.bitlen_counts (.inl hd)
  hash := Option.isSome_iff_exists.1 (hi.hash_holds (.inl hd))
  not_terminal := hi.idle_not_terminal hd
  rnd := hi.rnd_in_rounds
  buf := fun h => Option.isSome_iff_exists.1 (hi.buf_holds hd h)
  sched := fun h => Option.isSome_iff_exists.1 (hi.sched_holds hd h)
  vars := fun h => Option.isSome_iff_exists.1 (hi.vars_hold hd h) }

/-- The command completes. -/
theorem inv_complete_of_computing {s : State} (h : s.Computing) : (complete s).Inv where
  done_terminal := by simp [h.running]
  idle_not_terminal := fun _ => h.not_terminal
  rnd_in_rounds := h.rnd
  uninit_clear := by simp [h.running]
  cause_iff_failed := by simp [h.running, h.no_cause]
  bitlen_counts := fun _ => h.bits
  hash_holds := fun _ => Option.isSome_iff_exists.2 h.hash
  buf_holds := fun _ hp => Option.isSome_iff_exists.2 (h.buf hp)
  sched_holds := fun _ hp => Option.isSome_iff_exists.2 (h.sched hp)
  vars_hold := fun _ hp => Option.isSome_iff_exists.2 (h.vars hp)
  busy_iff_waiting := by simp [h.not_waiting]
  waiting_reads := by simp [h.not_waiting]

/-- A fault with a cause, of a command that does not wait: in `Failed` the invariant asks little else. -/
theorem inv_raiseFault {s : State} {c : Cause} (hw : s.waiting = none) (hr : s.rnd.val ≠ 0 → s.phase = .rounds)
    (hc : c ≠ .none) : (raiseFault c s).Inv := by
  constructor <;> simp [hw, hc]
  simpa using hr

/-! ## What a flow leaves -/

/-- The flow meets no `⊥`; what it completes with satisfies `P`, and what it stops in meets the invariant. -/
def Flow.Sound (P : State → Prop) : Flow → Prop
  | .ok s => P s
  | .stop s => s.Inv
  | .unwritten _ => False

theorem sound_bind {P Q : State → Prop} {r : Flow} {k : State → Flow} (hr : r.Sound P)
    (hk : ∀ t, P t → (k t).Sound Q) : (r.bind k).Sound Q := by
  cases r with
  | ok t => exact hk t hr
  | stop t => exact hr
  | unwritten e => exact hr

theorem exists_next_of_sound {P : State → Prop} {r : Flow} (h : r.Sound P) (hP : ∀ t, P t → (complete t).Inv) :
    ∃ t, r.outcome = .next t ∧ t.Inv := by
  cases r with
  | ok t => exact ⟨complete t, rfl, hP t h⟩
  | stop t => exact ⟨t, rfl, h⟩
  | unwritten e => exact h.elim

/-! ## Reading a block -/

theorem acceptedRead_raise_ne_none {p : InterruptPolicy} {l : List SourceEvent} {c : Cause}
    (h : (acceptedRead p l).ending = .raise c) : c ≠ .none := by
  rcases acceptedRead_raise h with rfl | rfl | ⟨rfl, -⟩ <;> simp

theorem rawBytes_length (n : Fin 65) (lane : Block) : (rawBytes n lane).length = n.val := by
  simp [rawBytes]; omega

/-- R72: the counter counts the bytes of this chunk on top of the bytes before it. -/
theorem addBits_ofNat (m n : Nat) : addBits (BitVec.ofNat 64 (8 * m)) n = BitVec.ofNat 64 (8 * (m + n)) := by
  rw [addBits, ← BitVec.ofNat_add, Nat.mul_add]

/-- A block has been read and waits to be expanded. -/
def State.HoldsBlock (s : State) : Prop := s.Computing ∧ s.phase = .block

/-- A request that is answered, faults or goes on waiting (41 R87), from where a block can be read. -/
theorem receive_sound {who : Waiter} {s : State} (hc : ({ s with waiting := none } : State).Computing)
    (hph : s.phase = .idle) (hpad : s.pad = .notPadded) : (receive who s).Sound State.HoldsBlock := by
  rcases receive_cases who s with ⟨n, lane, -, hr⟩ | ⟨c, he, hr⟩ | ⟨-, hr⟩ <;> rw [hr]
  · rw [storeChunk_some (by simpa using hc.bits)]
    exact ⟨{ hc with
      bits := by simp [addBits_ofNat, rawBytes_length]
      not_terminal := by simp
      rnd := fun h => by simpa [hph] using hc.rnd h
      buf := fun _ => ⟨_, rfl⟩
      sched := by simp
      vars := by simp }, rfl⟩
  · exact inv_raiseFault rfl hc.rnd (acceptedRead_raise_ne_none he)
  · have hi := inv_complete_of_computing hc
    exact { hi with
      busy_iff_waiting := by simpa using hc.busy
      waiting_reads := fun _ => ⟨hc.running, hph, hpad⟩ }

/-- RDBLK's algorithm where RDBLK, STEP and RUN are performed (41 R86). -/
theorem readBlock_sound {who : Waiter} {s : State} (hc : s.Computing) (hph : s.phase = .idle) :
    (readBlock who s).Sound State.HoldsBlock := by
  cases hpad : s.pad with
  | notPadded =>
    rw [readBlock_notPadded hpad]
    exact receive_sound (s := note .readRequest s) { hc with not_waiting := rfl } hph hpad
  | terminatorPlaced =>
    rw [readBlock_terminatorPlaced hpad hc.bits]
    exact ⟨{ hc with
      not_terminal := by simp
      rnd := fun h => by simpa [hph] using hc.rnd h
      buf := fun _ => ⟨_, rfl⟩
      sched := by simp
      vars := by simp }, rfl⟩
  | lengthWritten => exact absurd hpad (hc.not_terminal hph)

/-! ## The block operations -/

theorem expandBlock_sound {s : State} (hs : s.HoldsBlock) : (expandBlock s).Sound State.Computing := by
  obtain ⟨hc, hph⟩ := hs
  obtain ⟨b, hbuf⟩ := hc.buf hph
  rw [expandBlock_some hbuf]
  exact { hc with
    not_terminal := by simp
    rnd := fun h => by simpa [hph] using hc.rnd h
    buf := by simp
    sched := fun _ => ⟨_, rfl⟩
    vars := by simp }

theorem loadVars_sound {s : State} (hc : s.Computing) (hph : s.phase = .sched) :
    (loadVars s).Sound State.Computing := by
  obtain ⟨h, hhash⟩ := hc.hash
  rw [loadVars_some hhash]
  exact { hc with
    not_terminal := by simp
    rnd := fun _ => rfl
    buf := by simp
    sched := fun _ => hc.sched (.inl hph)
    vars := fun _ => ⟨_, rfl⟩ }

theorem roundStep_sound {s : State} (hc : s.Computing) (hph : s.phase = .rounds) (ht : s.rnd.val < 64) :
    (roundStep s).Sound State.Computing := by
  obtain ⟨v, hvars⟩ := hc.vars hph
  obtain ⟨w, hsched⟩ := hc.sched (.inr hph)
  rw [roundStep_some hvars hsched ht]
  exact { hc with
    rnd := fun _ => hph
    vars := fun _ => ⟨_, rfl⟩ }

/-- The invariant holds once the command completes, and no block is held: so it is after a block, and RUN goes on. -/
def State.BetweenBlocks (s : State) : Prop := s.busy = true ∧ (complete s).Inv ∧ s.phase = .idle

/-- After a block the driver is between blocks, or done where the block was the terminal one (43 R112). -/
theorem betweenBlocks_of_folded {s : State} (hc : s.Computing) (h : HashState) :
    ({ s with
      hash := some h, phase := .idle, rnd := 0, sched := none, vars := none
      drv := if s.pad = .lengthWritten then .done else s.drv } : State).BetweenBlocks := by
  refine ⟨hc.busy, ?_, rfl⟩
  have hbits := hc.bits
  by_cases hpad : s.pad = .lengthWritten <;>
    constructor <;> simp [hpad, hc.running, hc.no_cause, hc.not_waiting, hbits]

theorem foldBlock_sound {s : State} (hc : s.Computing) (hph : s.phase = .rounds) :
    (foldBlock s).Sound State.BetweenBlocks := by
  obtain ⟨h, hhash⟩ := hc.hash
  obtain ⟨v, hvars⟩ := hc.vars hph
  rw [foldBlock_some hhash hvars]
  exact betweenBlocks_of_folded hc _

theorem compressBlock_sound {s : State} (hc : s.Computing) (hph : s.phase = .sched) :
    (compressBlock s).Sound State.BetweenBlocks := by
  obtain ⟨h, hhash⟩ := hc.hash
  obtain ⟨w, hsched⟩ := hc.sched (.inl hph)
  rw [compressBlock_some hhash hsched]
  exact betweenBlocks_of_folded hc _

theorem processBlock_sound {s : State} (hs : s.HoldsBlock) : (processBlock s).Sound State.BetweenBlocks := by
  obtain ⟨hc, hph⟩ := hs
  obtain ⟨h, hhash⟩ := hc.hash
  obtain ⟨b, hbuf⟩ := hc.buf hph
  rw [processBlock_some hhash hbuf]
  exact betweenBlocks_of_folded hc _

/-! ## The driver -/

theorem driverStep_sound {who : Waiter} {s : State} (hc : s.Computing) (hph : s.phase = .idle) :
    (driverStep who s).Sound State.BetweenBlocks :=
  sound_bind (readBlock_sound hc hph) fun _ => processBlock_sound

theorem computing_of_betweenBlocks {s : State} (hs : s.BetweenBlocks) (hd : s.drv = .running) : s.Computing := by
  obtain ⟨hb, hi, -⟩ := hs
  have hc := computing_of_inv hi rfl hd
  have hs : ({ complete s with busy := true } : State) = s := by rw [← hb]; rfl
  exact hs ▸ hc

theorem runToEnd_sound (folded : Bool) {s : State} (hs : s.BetweenBlocks) :
    (runToEnd folded s).Sound State.BetweenBlocks := by
  refine runToEnd_induction (P := State.BetweenBlocks) (fun f s hs hd => ?_) (fun s hs _ => hs)
    (s.source.length + 1) folded s (by omega) hs
  have hstep := driverStep_sound (who := .run f) (computing_of_betweenBlocks hs hd) hs.2.2
  revert hstep
  cases driverStep (.run f) s with
  | ok t => exact fun ht => .inl ⟨t, rfl, ht⟩
  | stop t => exact fun ht => .inr ⟨by simp, ht⟩
  | unwritten e => exact False.elim

/-- A waiting command goes on from its read (10 R26, R33). -/
theorem resume_sound {who : Waiter} {s : State} (hi : s.Inv) (hw : s.waiting = some who) :
    ∃ t, (resume who s).outcome = .next t ∧ t.Inv := by
  obtain ⟨hd, hph, hpad⟩ := hi.waiting_reads (by simp [hw])
  have hb : s.busy = true := hi.busy_iff_waiting.2 (by simp [hw])
  have hc : ({ s with waiting := none } : State).Computing := by
    have hsettled : ({ s with busy := false, waiting := none } : State).Inv := { hi with
      busy_iff_waiting := by simp
      waiting_reads := by simp }
    have h := computing_of_inv hsettled rfl hd
    rwa [← hb] at h
  have hread (w : Waiter) : (receive w s).Sound State.HoldsBlock := receive_sound hc hph hpad
  have hstep (w : Waiter) : ((receive w s).bind processBlock).Sound State.BetweenBlocks :=
    sound_bind (hread w) fun _ => processBlock_sound
  cases who with
  | rdblk => exact exists_next_of_sound (hread .rdblk) fun t ht => inv_complete_of_computing ht.1
  | step => exact exists_next_of_sound (hstep .step) fun t ht => ht.2.1
  | run folded =>
    exact exists_next_of_sound (sound_bind (hstep _) fun _ => runToEnd_sound true) fun t ht => ht.2.1

/-! ## A whole command -/

theorem require_raise {b : Bool} {c : Cause} (h : require b = .raise c) : c = .sequence := by
  cases b with
  | true => cases h
  | false => cases h; rfl

theorem acceptRunning_raise_ne_none {i : Instr} {s : State} {c : Cause} (h : acceptRunning i s = .raise c) :
    c ≠ .none := by
  rintro rfl
  cases i with
  | init | digest => cases h
  | rdblk | expand | cinit | round | fold | compress | step | run => cases require_raise h

/-- A legality fault has a cause (60 R138). -/
theorem acceptance_raise_ne_none {i : Instr} {s : State} {c : Cause} (h : acceptance i s = .raise c) : c ≠ .none := by
  rintro rfl
  cases i with
  | init => rw [acceptance_init] at h; cases h
  | rdblk | expand | cinit | round | fold | compress | step | run | digest =>
    cases hd : s.drv with
    | uninit => rw [acceptance_uninit hd (by simp)] at h; cases h
    | failed => rw [acceptance_failed hd (by simp)] at h; cases h
    | done => rw [acceptance_done hd] at h; cases h
    | running => exact acceptRunning_raise_ne_none ((acceptance_running hd).symm.trans h) rfl

/-- Where a command other than INIT and DIGEST is performed, a computation is under way (60 R136). -/
theorem running_of_perform {i : Instr} {s : State} (hi : i ≠ .init) (hg : i ≠ .digest)
    (h : acceptance i s = .perform) : s.drv = .running ∧ acceptRunning i s = .perform := by
  cases hd : s.drv with
  | uninit => rw [acceptance_uninit hd hi] at h; cases h
  | failed => rw [acceptance_failed hd hi] at h; cases h
  | done => rw [acceptance_done hd] at h; cases i <;> simp_all [acceptDone]
  | running => exact ⟨rfl, (acceptance_running hd).symm.trans h⟩

theorem done_of_perform_digest {s : State} (h : acceptance .digest s = .perform) : s.drv = .done := by
  cases hd : s.drv with
  | uninit => rw [acceptance_uninit hd (by simp)] at h; cases h
  | failed => rw [acceptance_failed hd (by simp)] at h; cases h
  | done => rfl
  | running => rw [acceptance_running hd] at h; cases h

/-- A command whose operation is sound where it is performed. -/
theorem commanded_sound {i : Instr} {op : State → Flow} {s : State} {P : State → Prop} (hi : s.Inv)
    (hb : s.busy = false) (hop : acceptance i s = .perform → (op { s with busy := true }).Sound P)
    (hP : ∀ t, P t → (complete t).Inv) : ∃ t, commanded i op s = .next t ∧ t.Inv := by
  rcases commanded_cases i op s with ⟨ha, h⟩ | ⟨-, h⟩ | ⟨c, ha, h⟩ <;> rw [h]
  · exact exists_next_of_sound (hop ha) hP
  · exact ⟨s, congrArg _ (complete_of_not_busy hb), hi⟩
  · exact ⟨_, rfl, inv_raiseFault (waiting_none_of_inv hi hb) hi.rnd_in_rounds (acceptance_raise_ne_none ha)⟩

theorem inv_startComputation {s : State} (hw : s.waiting = none) : (complete (startComputation s)).Inv := by
  constructor <;> simp [hw]

/-- A command accepted under the invariant meets no `⊥` and leaves the invariant. -/
theorem exec_sound (i : Instr) {s : State} (hi : s.Inv) (hb : s.busy = false) : ∃ t, exec i s = .next t ∧ t.Inv := by
  have hcomputing {i : Instr} (h1 : i ≠ .init) (h2 : i ≠ .digest) (ha : acceptance i s = .perform) :
      ({ s with busy := true } : State).Computing ∧ acceptRunning i s = .perform :=
    have ⟨hd, hr⟩ := running_of_perform h1 h2 ha
    ⟨computing_of_inv hi hb hd, hr⟩
  cases i with
  | init => exact ⟨_, exec_init s, inv_startComputation (waiting_none_of_inv hi hb)⟩
  | rdblk =>
    refine commanded_sound (op := readBlock .rdblk) (P := State.HoldsBlock) hi hb (fun ha => ?_)
      fun t ht => inv_complete_of_computing ht.1
    obtain ⟨hc, hr⟩ := hcomputing (by simp) (by simp) ha
    exact readBlock_sound hc (by simpa [acceptRunning] using hr)
  | expand =>
    refine commanded_sound (op := expandBlock) hi hb (fun ha => ?_) fun t => inv_complete_of_computing
    obtain ⟨hc, hr⟩ := hcomputing (by simp) (by simp) ha
    exact expandBlock_sound ⟨hc, by simpa [acceptRunning] using hr⟩
  | cinit =>
    refine commanded_sound (op := loadVars) hi hb (fun ha => ?_) fun t => inv_complete_of_computing
    obtain ⟨hc, hr⟩ := hcomputing (by simp) (by simp) ha
    exact loadVars_sound hc (by simpa [acceptRunning] using hr)
  | round =>
    refine commanded_sound (op := roundStep) hi hb (fun ha => ?_) fun t => inv_complete_of_computing
    obtain ⟨hc, hr⟩ := hcomputing (by simp) (by simp) ha
    obtain ⟨hph, ht⟩ : s.phase = .rounds ∧ s.rnd.val ≤ 63 := by simpa [acceptRunning] using hr
    exact roundStep_sound hc hph (Nat.lt_succ_of_le ht)
  | fold =>
    refine commanded_sound (op := foldBlock) (P := State.BetweenBlocks) hi hb (fun ha => ?_) fun t ht => ht.2.1
    obtain ⟨hc, hr⟩ := hcomputing (by simp) (by simp) ha
    obtain ⟨hph, -⟩ : s.phase = .rounds ∧ s.rnd.val = 64 := by simpa [acceptRunning] using hr
    exact foldBlock_sound hc hph
  | compress =>
    refine commanded_sound (op := compressBlock) (P := State.BetweenBlocks) hi hb (fun ha => ?_) fun t ht => ht.2.1
    obtain ⟨hc, hr⟩ := hcomputing (by simp) (by simp) ha
    exact compressBlock_sound hc (by simpa [acceptRunning] using hr)
  | step =>
    refine commanded_sound (op := driverStep .step) (P := State.BetweenBlocks) hi hb (fun ha => ?_) fun t ht => ht.2.1
    obtain ⟨hc, hr⟩ := hcomputing (by simp) (by simp) ha
    exact driverStep_sound hc (by simpa [acceptRunning] using hr)
  | run =>
    refine commanded_sound (op := runToEnd false) (P := State.BetweenBlocks) hi hb (fun ha => ?_) fun t ht => ht.2.1
    obtain ⟨hc, hr⟩ := hcomputing (by simp) (by simp) ha
    have hinv : (complete { s with busy := true }).Inv := inv_complete_of_computing hc
    exact runToEnd_sound false ⟨rfl, hinv, by simpa [acceptRunning] using hr⟩
  | digest =>
    refine commanded_sound (op := digestWrite) (P := fun t => (complete t).Inv) hi hb (fun ha => ?_) fun t => id
    obtain ⟨h, hhash⟩ := Option.isSome_iff_exists.1 (hi.hash_holds (.inr (done_of_perform_digest ha)))
    rw [digestWrite_some (s := { s with busy := true }) hhash]
    exact { hi with busy_iff_waiting := by simp [waiting_none_of_inv hi hb] }

end Sys2Proof.Machine
end

-- ==== The invariant, step by step ====
section
/-! The invariant through the core's turn and the host's moves (10 R34), and what it says of a run's end (60 R155). -/

namespace Sys2Proof.Machine

theorem inv_illegalWord {s : State} (hi : s.Inv) (hb : s.busy = false) : (illegalWord s).Inv := by
  unfold illegalWord
  split
  · exact (complete_of_not_busy hb).symm ▸ hi
  · exact inv_raiseFault (waiting_none_of_inv hi hb) hi.rnd_in_rounds (by simp)

/-- What is on the port is an input that is no command word (60 R156). -/
def State.HoldsNonWord (s : State) : Prop := s.busy = false ∧ ∃ p, s.port = some p ∧ p.width ≠ 32

theorem word?_eq_none {p : PortInput} : p.word? = none ↔ p.width ≠ 32 := by
  unfold PortInput.word?
  split <;> simp [*]

/-- The core's turn under the invariant: a state that meets it, or the refusal of what is no command word. -/
theorem coreTurn_sound {s : State} (hi : s.Inv) :
    (∃ t, coreTurn s = .next t ∧ t.Inv) ∨ (s.HoldsNonWord ∧ coreTurn s = .refused .notACommandWord) := by
  rcases coreTurn_cases s with ⟨p, hb, hp, hc⟩ | ⟨who, hb, hw, hc⟩ | ⟨-, hc⟩ <;> rw [hc]
  · have hfree : ({ s with port := none } : State).Inv :=
      { hi with }
    cases hword : p.word? with
    | none => exact .inr ⟨⟨hb, p, hp, word?_eq_none.1 hword⟩, acceptInput_refused hword⟩
    | some w =>
      cases hd : decode w with
      | ok i =>
        rw [acceptInput_word hword hd]
        exact .inl (exec_sound i hfree hb)
      | error e => exact .inl ⟨_, acceptInput_illegal hword hd, inv_illegalWord hfree hb⟩
  · exact .inl (resume_sound hi hw)
  · exact .inl ⟨s, rfl, hi⟩

/-- The host's moves are not the core's. -/
theorem inv_withHost {s : State} (hi : s.Inv) (moves : List HostMove) : ({ s with host := moves } : State).Inv :=
  { hi with }

theorem inv_readStatus {s : State} (hi : s.Inv) : (readStatus s).Inv :=
  { hi with }

theorem inv_showWords {s : State} (hi : s.Inv) (words : List Word) : (showWords words s).Inv :=
  { hi with }

theorem inv_cutShort {t : State} (hi : t.Inv) (reset : Option Nat) (s : State) : (cutShort reset s t).Inv := by
  cases reset with
  | none => exact hi
  | some m => exact inv_hardReset _

theorem interleaved_sound {s : State} (hi : s.Inv) :
    (∃ t, interleaved s = .next t ∧ t.Inv) ∨ (s.HoldsNonWord ∧ interleaved s = .refused .notACommandWord) := by
  have hturn := coreTurn_sound (inv_withHost hi (duringAction s.host).rest)
  rcases interleaved_cases s with ⟨t, ht, h⟩ | ⟨hno, h⟩ <;> rw [h]
  · obtain ⟨u, hu, hui⟩ | ⟨-, hu⟩ := hturn <;> cases ht.symm.trans hu
    exact .inl ⟨_, rfl, inv_showWords (inv_cutShort hui _ _) _⟩
  · obtain ⟨u, hu, -⟩ | ⟨hp, hu⟩ := hturn
    · exact absurd hu (hno u)
    · exact .inr ⟨hp, hu⟩

/-- A step under the invariant: a state that meets it, or the refusal of what is no command word. -/
theorem step_sound {s : State} (hi : s.Inv) :
    (∃ t, step s = .next t ∧ t.Inv) ∨ (s.HoldsNonWord ∧ step s = .refused .notACommandWord) := by
  unfold step
  rcases cycle_cases s with ⟨rest, -, hc⟩ | ⟨rest, -, hc⟩ | ⟨p, rest, -, -, hc⟩ | ⟨rest, -, hc⟩ | ⟨-, -, hc⟩ |
    ⟨-, rest, -, hc⟩ | ⟨-, m, rest, -, hc⟩ | ⟨-, hc⟩ <;> rw [hc]
  · exact .inl ⟨_, rfl, inv_hardReset _⟩
  · exact .inl ⟨_, rfl, inv_readStatus (inv_withHost hi rest)⟩
  · exact .inl ⟨_, rfl, { hi with }⟩
  · exact coreTurn_sound (inv_withHost hi rest)
  · exact interleaved_sound hi
  · exact .inl ⟨_, rfl, inv_readStatus (inv_withHost hi rest)⟩
  · exact .inl ⟨_, rfl, inv_hardReset _⟩
  · exact coreTurn_sound hi

/-- Settles O49: each operation of a command keeps what holds within a command, and the host's moves and a reset keep
the invariant itself. -/
theorem everyStepKeepsTheInvariant : Obligations.EveryStepKeepsTheInvariant := by
  intro s t hi h
  obtain ⟨u, hu, hui⟩ | ⟨-, hu⟩ := step_sound hi <;> cases h.symm.trans hu
  exact hui

/-- The core's turn on an input that is no command word. -/
theorem coreTurn_refused {s : State} {p : PortInput} (hb : s.busy = false) (hp : s.port = some p)
    (hw : p.width ≠ 32) : coreTurn s = .refused .notACommandWord := by
  rw [coreTurn_accepts hb hp, acceptInput_refused (word?_eq_none.2 hw)]

/-- Settles O50: under the invariant each element read holds a value, and only an input of another width is refused. -/
theorem noStepReadsNoValue : Obligations.NoStepReadsNoValue := by
  refine fun s hi => ⟨fun f h => ?_, fun q h => ?_, fun p hb hp hw => ?_⟩
  · obtain ⟨u, hu, -⟩ | ⟨-, hu⟩ := step_sound hi <;> cases h.symm.trans hu
  · obtain ⟨u, hu, -⟩ | ⟨⟨hb, hp⟩, hu⟩ := step_sound hi <;> cases h.symm.trans hu
    exact ⟨rfl, hb, hp⟩
  · have turn := coreTurn_refused hb hp hw
    exact ⟨fun hwait => (cycle_waits hwait).trans turn, (step_pause s).trans turn⟩

/-! ## The end of a run -/

theorem result_eq_none {s : State} (h : s.busy = true ∨ s.drv = .uninit ∨ s.drv = .running) : s.result = none := by
  unfold State.result
  rcases h with h | h | h <;> simp [h]

theorem result_done {s : State} (hb : s.busy = false) (hd : s.drv = .done) :
    s.result = s.hash.map fun h => .digest (digestBytes h) := by
  simp [State.result, hb, hd]

theorem result_failed {s : State} (hb : s.busy = false) (hd : s.drv = .failed) :
    s.result = some (.failed s.cause) := by
  simp [State.result, hb, hd]

/-- Settles O55: in `Done` the invariant has a value in `H`, in `Failed` a cause, and elsewhere there is no result. -/
theorem runHasAResultExactlyWhenEnded : Obligations.RunHasAResultExactlyWhenEnded := by
  intro s hi
  have hdone (hb : s.busy = false) (hd : s.drv = .done) :
      ∃ h, s.hash = some h ∧ s.result = some (.digest (digestBytes h)) := by
    obtain ⟨h, hh⟩ := Option.isSome_iff_exists.1 (hi.hash_holds (.inr hd))
    exact ⟨h, hh, by rw [result_done hb hd, hh]; rfl⟩
  have hfailed (hb : s.busy = false) (hd : s.drv = .failed) : s.result = some (.failed s.cause) ∧ s.cause ≠ .none :=
    ⟨result_failed hb hd, hi.cause_iff_failed.2 hd⟩
  refine ⟨⟨?_, ?_⟩, fun he hd => hdone he.1 hd, fun he hd => hfailed he.1 hd⟩
  · rintro ⟨hb, hd | hd⟩
    · obtain ⟨h, -, hr⟩ := hdone hb hd
      simp [hr]
    · simp [(hfailed hb hd).1]
  · intro hr
    by_contra hno
    have hnot : s.busy = true ∨ s.drv = .uninit ∨ s.drv = .running := by
      unfold State.Ended at hno
      cases hb : s.busy <;> cases hd : s.drv <;> simp_all
    simp [result_eq_none hnot] at hr

end Sys2Proof.Machine
end

-- ==== The status word ====
section
/-! The status word's fields at their bits (30 R62), and what a status read shows while a command waits (70 R167). -/

namespace Sys2Proof.Machine

/-! ## The fields -/

/-- Bits above the low part of an append are the high part's. -/
theorem extractLsb'_append_add {v w : Nat} (x : BitVec v) (y : BitVec w) (k n : Nat) :
    (x ++ y).extractLsb' (k + w) n = x.extractLsb' k n := by
  rw [BitVec.extractLsb'_append_eq_of_le (Nat.le_add_left ..), Nat.add_sub_cancel]

section
variable (drv pad phase : BitVec 2) (rnd : BitVec 7) (busy : Bool) (cause : BitVec 4)

theorem packStatus_drv : (packStatus drv pad phase rnd busy cause).extractLsb' 0 2 = drv :=
  BitVec.extractLsb'_append_eq_right

theorem packStatus_pad : (packStatus drv pad phase rnd busy cause).extractLsb' 2 2 = pad :=
  (extractLsb'_append_add _ drv 0 2).trans BitVec.extractLsb'_append_eq_right

theorem packStatus_phase : (packStatus drv pad phase rnd busy cause).extractLsb' 4 2 = phase :=
  (extractLsb'_append_add _ drv 2 2).trans <| (extractLsb'_append_add _ pad 0 2).trans
    BitVec.extractLsb'_append_eq_right

/-- The word from `RND` up. -/
theorem packStatus_above_phase (k n : Nat) :
    (packStatus drv pad phase rnd busy cause).extractLsb' (k + 6) n =
      (0#12 ++ cause ++ 0#2 ++ BitVec.ofBool busy ++ rnd).extractLsb' k n :=
  (extractLsb'_append_add _ drv (k + 4) n).trans <| (extractLsb'_append_add _ pad (k + 2) n).trans
    (extractLsb'_append_add _ phase k n)

theorem packStatus_rnd : (packStatus drv pad phase rnd busy cause).extractLsb' 6 7 = rnd :=
  (packStatus_above_phase drv pad phase rnd busy cause 0 7).trans BitVec.extractLsb'_append_eq_right

/-- The word from `BUSY` up. -/
theorem packStatus_above_rnd (k n : Nat) :
    (packStatus drv pad phase rnd busy cause).extractLsb' (k + 13) n =
      (0#12 ++ cause ++ 0#2 ++ BitVec.ofBool busy).extractLsb' k n :=
  (packStatus_above_phase drv pad phase rnd busy cause (k + 7) n).trans (extractLsb'_append_add _ rnd k n)

theorem packStatus_busy : (packStatus drv pad phase rnd busy cause).getLsbD 13 = busy := by
  have h : (packStatus drv pad phase rnd busy cause).extractLsb' 13 1 = BitVec.ofBool busy :=
    (packStatus_above_rnd drv pad phase rnd busy cause 0 1).trans BitVec.extractLsb'_append_eq_right
  simpa using congrArg (·.getLsbD 0) h

/-- The word above `BUSY`. -/
theorem packStatus_above_busy (k n : Nat) :
    (packStatus drv pad phase rnd busy cause).extractLsb' (k + 14) n =
      (0#12 ++ cause ++ 0#2).extractLsb' k n :=
  (packStatus_above_rnd drv pad phase rnd busy cause (k + 1) n).trans
    (extractLsb'_append_add _ (BitVec.ofBool busy) k n)

theorem packStatus_reserved_low : (packStatus drv pad phase rnd busy cause).extractLsb' 14 2 = 0 :=
  (packStatus_above_busy drv pad phase rnd busy cause 0 2).trans BitVec.extractLsb'_append_eq_right

theorem packStatus_cause : (packStatus drv pad phase rnd busy cause).extractLsb' 16 4 = cause :=
  (packStatus_above_busy drv pad phase rnd busy cause 2 4).trans <| (extractLsb'_append_add _ 0#2 0 4).trans
    BitVec.extractLsb'_append_eq_right

theorem packStatus_reserved_high : (packStatus drv pad phase rnd busy cause).extractLsb' 20 12 = 0 :=
  (packStatus_above_busy drv pad phase rnd busy cause 6 12).trans <| (extractLsb'_append_add _ 0#2 4 12).trans
    BitVec.extractLsb'_append_eq_left

/-- Where no cause stands, the bits between `BUSY` and the reserved top are 0. -/
theorem packStatus_no_cause : (packStatus drv pad phase rnd busy 0).extractLsb' 14 6 = 0 :=
  (packStatus_above_busy drv pad phase rnd busy 0 0 6).trans (by decide)

end

/-- `RND` has room for every value of the round counter. -/
theorem rnd_toNat (r : Fin 65) : (BitVec.ofNat 7 r.val).toNat = r.val := by
  rw [BitVec.toNat_ofNat, Nat.mod_eq_of_lt]
  omega

/-- Settles O13: each field is the `packStatus` field of its code. -/
theorem statusWordFieldsStandAtTheirBits : Obligations.StatusWordFieldsStandAtTheirBits := by
  refine ⟨fun s => ⟨?_, ?_, ?_, ?_, packStatus_busy .., packStatus_reserved_low .., ?_, packStatus_reserved_high ..⟩,
    hardReset_statusWord State.reset⟩
  · exact (packStatus_drv ..).trans (by cases s.drv <;> rfl)
  · exact (packStatus_pad ..).trans (by cases s.pad <;> rfl)
  · exact (packStatus_phase ..).trans (by cases s.phase <;> rfl)
  · exact (congrArg BitVec.toNat (packStatus_rnd ..)).trans (rnd_toNat s.rnd)
  · exact (congrArg BitVec.toNat (packStatus_cause ..)).trans (by cases s.cause <;> rfl)

/-! ## Status reads -/

/-- What a status read shows is a status word of the state's own `DRV`, `PAD`, `BUSY` and `CAUSE`, and of its `PHASE`
and `RND` too unless a RUN has folded a block. -/
theorem shownStatus_eq_packStatus (s : State) :
    (∃ (phase : BitVec 2) (rnd : Fin 65),
      s.shownStatus = packStatus s.drv.code s.pad.code phase (BitVec.ofNat 7 rnd.val) s.busy s.cause.code) ∧
    (s.waiting ≠ some (.run true) → s.shownStatus = s.statusWord) := by
  unfold State.shownStatus
  split
  · exact ⟨⟨_, _, rfl⟩, by simp [*]⟩
  · exact ⟨⟨_, _, rfl⟩, fun _ => rfl⟩

theorem shownStatus_not_waiting {s : State} (h : s.waiting = none) : s.shownStatus = s.statusWord :=
  (shownStatus_eq_packStatus s).2 (by simp [h])

/-- Settles O12: `readStatus` writes the trace and the draw counter alone. -/
theorem statusReadHasNoSideEffect : Obligations.StatusReadHasNoSideEffect := by
  intro s rest hh
  have hstep : step s = .next (readStatus { s with host := rest }) := by simp [step, cycle, hh]
  exact ⟨_, hstep, ⟨rfl, rfl, rfl, rfl, rfl, rfl, rfl, rfl, rfl, rfl, rfl, rfl⟩, rfl, rfl, rfl, rfl, rfl, rfl,
    shownStatus_not_waiting⟩

/-- The status word of a command that waits for its first block. -/
theorem statusWord_waiting {s : State} (hi : s.Inv) (hw : s.waiting.isSome = true) :
    s.drv = .running ∧ s.pad = .notPadded ∧ s.busy = true ∧ s.cause = .none ∧ s.statusWord = 0x00002001 := by
  obtain ⟨hd, hph, hpad⟩ := hi.waiting_reads hw
  have hb : s.busy = true := hi.busy_iff_waiting.2 hw
  have hcause : s.cause = .none := not_not.1 fun hc => by simpa [hd] using hi.cause_iff_failed.1 hc
  have hrnd : s.rnd.val = 0 := not_not.1 fun h => by simpa [hph] using hi.rnd_in_rounds h
  refine ⟨hd, hpad, hb, hcause, ?_⟩
  rw [State.statusWord, hd, hph, hpad, hb, hcause, hrnd]
  decide

/-- Settles O14: a command that waits runs unpadded, without a cause; `PHASE` and `RND` are the word's free fields. -/
theorem statusWhileWaitingShowsHeldValues : Obligations.StatusWhileWaitingShowsHeldValues := by
  intro s hi hw
  obtain ⟨hd, hpad, hb, hcause, hword⟩ := statusWord_waiting hi hw
  obtain ⟨⟨phase, rnd, hshown⟩, hown⟩ := shownStatus_eq_packStatus s
  refine ⟨?_, ?_, ?_, ?_, ?_, ?_, fun hne => (hown hne).trans hword⟩ <;> rw [hshown, hd, hpad, hb, hcause]
  · exact packStatus_drv ..
  · exact packStatus_pad ..
  · exact packStatus_busy ..
  · exact packStatus_no_cause ..
  · exact packStatus_reserved_high ..
  · rw [packStatus_rnd, rnd_toNat]
    omega

end Sys2Proof.Machine
end

-- ==== A step of the core or of the host ====
section
/-! The step that takes a command from the port, the step that serves a reset, and the port while the core is busy (60
R136, 70 R158, R166). -/

namespace Sys2Proof.Machine

/-- Taking a command's word from the port runs the command on the state without the word (60 R136). -/
theorem coreTurn_command {s : State} {w : Word} {i : Instr} (hb : s.busy = false) (hp : s.port = some ⟨32, w⟩)
    (hi : decode w = .ok i) : coreTurn s = exec i { s with port := none } := by
  rw [coreTurn_accepts hb hp, acceptInput_word (w := w) (by simp [PortInput.word?]) hi]

/-- Settles O5: where the host waits or pauses, the step is the core's turn. -/
theorem stepRunsTheDecodedCommand : Obligations.StepRunsTheDecodedCommand := by
  intro s w i hb hp hi
  have turn := coreTurn_command hb hp hi
  exact ⟨fun hwait => (cycle_waits hwait).trans turn, (step_pause s).trans turn⟩

theorem step_reset {s : State} {rest : List HostMove} (hh : s.host = .reset :: rest) :
    step s = .next (hardReset { s with host := rest }) := by
  simp [step, cycle, hh]

/-- Settles O11: the step is `hardReset`, and then the core has nothing to do. -/
theorem hardwareResetGivesTheResetState : Obligations.HardwareResetGivesTheResetState := by
  intro s rest hh
  exact ⟨_, step_reset hh, rfl, rfl, rfl, rfl, rfl, rfl, rfl, rfl, rfl, rfl, rfl, rfl, hardReset_statusWord _,
    result_eq_none (.inr (.inl rfl)), rfl, rfl, rfl, rfl, rfl, step_hardReset_idle⟩

/-- A busy core goes on with what it does and leaves its port alone. -/
theorem coreTurn_busy_port {s t : State} (hb : s.busy = true) (h : coreTurn s = .next t) : t.port = s.port := by
  rcases coreTurn_cases s with ⟨p, hidle, -, -⟩ | ⟨who, -, -, hc⟩ | ⟨-, hc⟩
  · simp [hb] at hidle
  · rw [hc] at h
    exact congrArg (·.2.1) (outside_of_outcome (resume_keepsOutside who s) h)
  · cases hc.symm.trans h
    rfl

@[simp] theorem cutShort_port (reset : Option Nat) (s t : State) : (cutShort reset s t).port = t.port := by
  cases reset <;> rfl

theorem interleaved_busy_port {s t : State} (hb : s.busy = true) (h : interleaved s = .next t) : t.port = s.port := by
  rcases interleaved_cases s with ⟨u, hu, hi⟩ | ⟨hno, hi⟩ <;> rw [hi] at h
  · cases h
    simpa using coreTurn_busy_port (s := { s with host := (duringAction s.host).rest }) hb hu
  · exact absurd h (hno t)

/-- Settles O9: a host's word needs a free port, and a busy core takes none. -/
theorem busyPortHoldsItsWord : Obligations.BusyPortHoldsItsWord := by
  intro s t p hb hp h
  rw [← hp]
  unfold step at h
  rcases cycle_cases s with ⟨rest, -, hc⟩ | ⟨rest, -, hc⟩ | ⟨q, rest, -, hfree, hc⟩ | ⟨rest, -, hc⟩ | ⟨-, -, hc⟩ |
    ⟨-, rest, -, hc⟩ | ⟨-, m, rest, -, hc⟩ | ⟨-, hc⟩ <;> rw [hc] at h
  · cases h; rfl
  · cases h; rfl
  · simp [hp] at hfree
  · exact coreTurn_busy_port (s := { s with host := rest }) hb h
  · exact interleaved_busy_port hb h
  · cases h; rfl
  · cases h; rfl
  · exact coreTurn_busy_port hb h

end Sys2Proof.Machine
end

-- ==== Acceptance ====
section
/-! A command that is not performed: the legality fault it raises, or nothing (60 R136, R138); and INIT, CINIT and
COMPRESS where they are performed. -/

namespace Sys2Proof.Machine

/-- The operation each command performs. -/
def operation : Instr → State → Flow
  | .init => initBlock
  | .rdblk => readBlock .rdblk
  | .expand => expandBlock
  | .cinit => loadVars
  | .round => roundStep
  | .fold => foldBlock
  | .compress => compressBlock
  | .step => driverStep .step
  | .run => runToEnd false
  | .digest => digestWrite

/-- Every command is accepted in the same way, before its own operation. -/
theorem exec_eq_commanded (i : Instr) (s : State) : exec i s = commanded i (operation i) s := by
  cases i <;> rfl

/-- A legality fault sets `drv` and `cause` and nothing else (60 R137). -/
theorem exec_raise {i : Instr} {s : State} {c : Cause} (hb : s.busy = false) (ha : acceptance i s = .raise c) :
    exec i s = .next { s with drv := .failed, cause := c } := by
  rw [exec_eq_commanded, commanded_raise ha, raiseFault, ← hb]

/-- A command that is skipped changes nothing. -/
theorem exec_skip {i : Instr} {s : State} (hb : s.busy = false) (ha : acceptance i s = .skip) :
    exec i s = .next s := by
  rw [exec_eq_commanded, commanded_skip ha, complete_of_not_busy hb]

/-- Settles O16: in `Uninit` acceptance raises for all but INIT. -/
theorem uninitRaisesNotInitialized : Obligations.UninitRaisesNotInitialized :=
  fun _ _ hb hd hi => exec_raise hb (acceptance_uninit hd hi)

/-- Settles O17: the cases of `acceptDone`. -/
theorem doneCommandsSkipOrFault : Obligations.DoneCommandsSkipOrFault := by
  intro s hb hd
  have haccept (i : Instr) : acceptance i s = acceptDone i := acceptance_done hd
  refine ⟨exec_skip hb (haccept .step), exec_skip hb (haccept .run), exec_raise hb (haccept .rdblk), fun i hi => ?_⟩
  have hraise : acceptDone i = .raise .sequence := by
    revert i
    decide
  exact exec_raise hb ((haccept i).trans hraise)

/-- Settles O18: the cases of `acceptRunning`, whose requirement is not met. -/
theorem runningOutOfOrderRaisesSequence : Obligations.RunningOutOfOrderRaisesSequence := by
  intro s hb hd
  have hraise {i : Instr} {ok : Bool} (hi : acceptRunning i s = require ok) (hok : ok = false) :
      exec i s = .next { s with drv := .failed, cause := .sequence } :=
    exec_raise hb (by rw [acceptance_running hd, hi, hok, require_false])
  refine ⟨fun hph i hi => ?_, fun hph => ?_, fun hph i hi => ?_, fun h => ?_, fun h => ?_, ?_⟩
  · have hrequire : acceptRunning i s = require (s.phase == .idle) := by
      simp only [List.mem_cons, List.not_mem_nil, or_false] at hi
      rcases hi with rfl | rfl | rfl <;> rfl
    exact hraise hrequire (by simpa using hph)
  · exact hraise (i := .expand) rfl (by simpa using hph)
  · have hrequire : acceptRunning i s = require (s.phase == .sched) := by
      simp only [List.mem_cons, List.not_mem_nil, or_false] at hi
      rcases hi with rfl | rfl <;> rfl
    exact hraise hrequire (by simpa using hph)
  · refine hraise (i := .round) rfl ?_
    rcases h with hph | ht
    · simp [hph]
    · simp [ht]
  · refine hraise (i := .fold) rfl ?_
    rcases h with hph | ht
    · simp [hph]
    · simp [ht.ne]
  · exact exec_raise hb (acceptance_running hd)

/-- Settles O22: what INIT leaves is made of the elements on which the two states agree. -/
theorem initForgetsTheAbandonedComputation : Obligations.InitForgetsTheAbandonedComputation := by
  intro s t hs ht hpolicy hport hhost hsource htrace hdraws
  rw [exec_init, exec_init, complete, complete, startComputation, startComputation, hs, ht, hpolicy, hport, hhost,
    hsource, htrace, hdraws]

/-- Settles O35: `varsOf` takes the hash words in order. -/
theorem cinitLoadsTheWorkingVariables : Obligations.CinitLoadsTheWorkingVariables := by
  intro s h hb hd hph hh
  have hexec : exec .cinit s = (loadVars { s with busy := true }).outcome :=
    commanded_perform (acceptance_cinit_eq_perform.2 ⟨hd, hph⟩)
  rw [hexec, loadVars_some (s := { s with busy := true }) hh, flow_outcome_ok, complete, ← hb]
  rfl

/-- COMPRESS is performed where CINIT is. -/
theorem exec_compress_sched {s : State} (hd : s.drv = .running) (hph : s.phase = .sched) :
    exec .compress s = (compressBlock { s with busy := true }).outcome :=
  commanded_perform ((acceptance_compress s).trans (acceptance_cinit_eq_perform.2 ⟨hd, hph⟩))

/-- Settles O39: CINIT, the 64 rounds and FOLD are `hashSchedule`. -/
theorem compressHashesTheSchedule : Obligations.CompressHashesTheSchedule := by
  intro s h w hb hd hph hh hw
  rw [exec_compress_sched hd hph, compressBlock_some (s := { s with busy := true }) hh hw, flow_outcome_ok, complete,
    ← hb, ← hd]

end Sys2Proof.Machine
end

-- ==== The three commands that read ====
section
/-! RDBLK, STEP and RUN at their read: a broken or late answer, none at all, one that comes later (41 R87, 70 R159,
R168, R169), and RDBLK's frame (41 R95). -/

namespace Sys2Proof.Machine

/-- What a command does after its read has stored a chunk. -/
def continuation : Waiter → State → Flow
  | .rdblk => .ok
  | .step => processBlock
  | .run _ => fun s => (processBlock s).bind (runToEnd true)

/-- Going on with a waiting command is its read and what follows. -/
theorem resume_eq (who : Waiter) (s : State) : resume who s = (receive who s).bind (continuation who) := by
  cases who with
  | rdblk =>
    rw [resume]
    cases receive .rdblk s <;> rfl
  | step => rfl
  | run folded => exact flow_bind_assoc ..

/-- The commands that read, each with the way it waits. -/
def readers : List (Instr × Waiter) := [(.rdblk, .rdblk), (.step, .step), (.run, .run false)]

theorem exists_waiter {i : Instr} (hi : i ∈ [Instr.rdblk, .step, .run]) : ∃ who, (i, who) ∈ readers := by
  revert i
  simp [readers]

/-- Each of them reads a block and goes on. -/
theorem exec_reader_readBlock {i : Instr} {who : Waiter} (hi : (i, who) ∈ readers) {s : State}
    (hd : s.drv = .running) (hph : s.phase = .idle) :
    exec i s = ((readBlock who { s with busy := true }).bind (continuation who)).outcome := by
  have haccept {i : Instr} (h : i = .rdblk ∨ i = .step ∨ i = .run) : acceptance i s = .perform :=
    acceptance_reader h hd hph
  simp only [readers, List.mem_cons, Prod.mk.injEq, List.not_mem_nil, or_false] at hi
  rcases hi with ⟨rfl, rfl⟩ | ⟨rfl, rfl⟩ | ⟨rfl, rfl⟩
  · refine (commanded_perform (haccept (by simp))).trans (congrArg _ ?_)
    cases readBlock .rdblk { s with busy := true } <;> rfl
  · exact commanded_perform (haccept (by simp))
  · refine (commanded_perform (haccept (by simp))).trans (congrArg _ ?_)
    exact (runToEnd_running (s := { s with busy := true }) hd).trans (flow_bind_assoc ..)

/-- Before the terminator the block is read through a request (41 R86). -/
theorem exec_reader_eq {i : Instr} {who : Waiter} (hi : (i, who) ∈ readers) {s : State} (hd : s.drv = .running)
    (hph : s.phase = .idle) (hpad : s.pad = .notPadded) :
    exec i s = ((receive who (note .readRequest { s with busy := true })).bind (continuation who)).outcome := by
  rw [exec_reader_readBlock hi hd hph, readBlock_notPadded (s := { s with busy := true }) hpad]

theorem acceptedRead_broken {p : InterruptPolicy} {a : Answer} {rest : List SourceEvent} (h : a.reply = .broken) :
    acceptedRead p (.answer a :: rest) = { ending := .raise .sourceContract, rest := rest, retries := 0 } := by
  simp [acceptedRead, h]

theorem reply_broken {a : Answer} (h : a.kind = 3 ∨ (a.kind = 0 ∧ 64 < a.count.toNat)) : a.reply = .broken := by
  rcases h with hk | ⟨hk, hc⟩
  · simp [Answer.reply, hk]
  · simp [Answer.reply, hk, Nat.not_lt.2 hc]

/-- Settles O28: the answer reads as broken, which ends the read. -/
theorem brokenAnswerRaisesSourceContract : Obligations.BrokenAnswerRaisesSourceContract := by
  intro s a rest i hi hr hd hph hpad hs hk
  exact exec_reader_raise hi hr hd hph hpad (by rw [hs, acceptedRead_broken (reply_broken hk)])

/-- A late answer at the head of the script is passed over (70 R159). -/
theorem receive_late {who : Waiter} {s : State} {a : Answer} {rest : List SourceEvent}
    (hs : s.source = .late a :: rest) : receive who s = receive who { s with source := rest } := by
  simp only [receive, hs, acceptedRead]

/-- Settles O30: each command that reads does so through `receive`. -/
theorem lateAnswerIsDiscarded : Obligations.LateAnswerIsDiscarded := by
  intro s a rest i hi _ hd hph hpad hs
  obtain ⟨who, hwho⟩ := exists_waiter hi
  rw [exec_reader_eq hwho hd hph hpad, receive_late (s := note .readRequest { s with busy := true }) hs]
  exact (exec_reader_eq hwho (s := { s with source := rest }) hd hph hpad).symm

/-- A request that no answer of the script ends. -/
theorem receive_wait {who : Waiter} {s : State} {rest : List SourceEvent}
    (h : acceptedRead s.policy s.source = { ending := .wait, rest := rest, retries := 0 }) :
    receive who s = .stop { s with source := rest, waiting := some who } := by
  simp [receive, h, noteRequests]

/-- The state in which a command waits for the answer to its first request. -/
def awaiting (who : Waiter) (rest : List SourceEvent) (s : State) : State :=
  { s with busy := true, waiting := some who, source := rest, trace := .readRequest :: s.trace }

/-- Where the first request is not answered, each of them waits with `busy = 1` and one request shown. -/
theorem exec_reader_wait {i : Instr} {who : Waiter} {s : State} {rest : List SourceEvent} (hi : (i, who) ∈ readers)
    (hd : s.drv = .running) (hph : s.phase = .idle) (hpad : s.pad = .notPadded)
    (h : acceptedRead s.policy s.source = { ending := .wait, rest := rest, retries := 0 }) :
    exec i s = .next (awaiting who rest s) := by
  rw [exec_reader_eq hi hd hph hpad, receive_wait (s := note .readRequest { s with busy := true }) h]
  rfl

/-- With no move of the host a waiting command goes on from its read. -/
theorem step_awaiting {who : Waiter} {rest : List SourceEvent} {s : State} (hh : s.host = []) :
    step (awaiting who rest s) =
      ((receive who (note .readRequest { s with busy := true, source := rest })).bind (continuation who)).outcome := by
  refine (cycle_waits (s := awaiting who rest s) (.inl hh)).trans ?_
  rw [coreTurn_resumes (who := who) rfl rfl, resume_eq]
  rfl

/-- Settles O31: without an answer the read waits, and goes on waiting. -/
theorem unansweredReadHangs : Obligations.UnansweredReadHangs := by
  rintro s - hd hph hpad hs ⟨i, who⟩ hi
  have hwait : acceptedRead s.policy s.source = { ending := .wait, rest := s.source, retries := 0 } := by
    rw [hs]
    rfl
  refine ⟨_, exec_reader_wait hi hd hph hpad hwait, rfl, fun hh => ?_⟩
  rw [step_awaiting hh, receive_wait (s := note .readRequest { s with busy := true, source := s.source }) hwait]
  rfl

/-- Settles O32: the waiting command goes on from the read that the command would have made without the delay. -/
theorem delayedAnswerGivesTheSameState : Obligations.DelayedAnswerGivesTheSameState := by
  intro s rest i hi _ hh hd hph hpad hs
  obtain ⟨who, hwho⟩ := exists_waiter hi
  have hwait : acceptedRead s.policy s.source = { ending := .wait, rest := rest, retries := 0 } := by
    rw [hs]
    rfl
  refine ⟨_, exec_reader_wait hwho hd hph hpad hwait, rfl, (step_awaiting hh).trans ?_⟩
  exact (exec_reader_eq hwho (s := { s with source := rest }) hd hph hpad).symm

/-! ## RDBLK's frame -/

/-- A read that completes stores a block and leaves `H`, `W`, `a`..`h`, the driver and the host's side. -/
theorem receive_ok_frame {who : Waiter} {s t : State} (h : receive who s = .ok t) :
    ∃ (b : Block) (l : BitVec 64) (p : PadState) (r : List Byte) (e : List SourceEvent) (v : List PortEvent),
      t = { s with
        buf := some b, bitlen := some l, pad := p, received := r, source := e, trace := v, phase := .block
        waiting := none } := by
  obtain ⟨n, lane, l, -, -, rfl⟩ := receive_eq_ok h
  exact ⟨_, _, _, _, _, _, rfl⟩

/-- Settles O33: the three ways RDBLK ends; the fault and the wait are not those of a RDBLK that completes. -/
theorem rdblkFrame : Obligations.RdblkFrame := by
  rintro s t ⟨hb, hw⟩ hd hph hpad h htb htd
  rw [exec_rdblk_idle hd hph, flow_outcome_eq_next] at h
  obtain ⟨m, hm, rfl⟩ | hstop := h
  · rcases readBlock_eq_ok hm with ⟨-, hr⟩ | ⟨l, -, -, rfl⟩ | ⟨hl, -⟩
    · obtain ⟨b, l, p, r, e, v, rfl⟩ := receive_ok_frame hr
      exact ⟨rfl, rfl, rfl, rfl, rfl, rfl, rfl, rfl, rfl, rfl, rfl, rfl, rfl⟩
    · exact ⟨rfl, rfl, rfl, rfl, rfl, rfl, rfl, rfl, hw, rfl, rfl, rfl, rfl⟩
    · exact absurd hl hpad
  · obtain ⟨-, hr⟩ := readBlock_eq_stop hstop
    rcases receive_eq_stop hr with ⟨c, -, rfl⟩ | ⟨-, rfl⟩
    · exact absurd rfl htd
    · exact absurd htb (by simp)

end Sys2Proof.Machine
end

-- ==== Elements with no value ====
section
/-! The fault of a command that reads an element with no value (00 R11, 60 R156). -/

namespace Sys2Proof.Machine

/-- The reader can make a block at once: the terminator is placed, or a `Data` answer is next. -/
def State.BlockComes (s : State) : Prop :=
  s.pad = .terminatorPlaced ∨
    s.pad = .notPadded ∧ ∃ a rest n, s.source = .answer a :: rest ∧ a.reply = .data n a.lane

theorem readBlock_no_bitlen {who : Waiter} {s : State} (hs : s.BlockComes) (hl : s.bitlen = none) :
    readBlock who s = .unwritten .bitlen := by
  rcases hs with hpad | ⟨hpad, a, rest, n, hsource, ha⟩
  · simp [readBlock, hpad, hl]
  · rw [readBlock_notPadded hpad]
    simp [receive, hsource, acceptedRead_data ha, storeChunk, hl]

theorem readBlock_completes {who : Waiter} {s : State} {l : BitVec 64} (hs : s.BlockComes) (hl : s.bitlen = some l) :
    ∃ t b, readBlock who s = .ok t ∧ t.hash = s.hash ∧ t.buf = some b := by
  rcases hs with hpad | ⟨hpad, a, rest, n, hsource, ha⟩
  · exact ⟨_, _, readBlock_terminatorPlaced hpad hl, rfl, rfl⟩
  · exact ⟨_, _, readBlock_data hpad hsource ha hl, rfl, rfl⟩

theorem processBlock_no_hash {s : State} {b : Block} (hb : s.buf = some b) (hh : s.hash = none) :
    processBlock s = .unwritten .hash := by
  rw [processBlock, expandBlock_some hb, flow_bind_ok, compressBlock]
  simp [loadVars, hh]

/-- A block to process without a hash state: STEP and RUN end there. -/
theorem continuation_no_hash {i : Instr} {who : Waiter} {s : State} {b : Block} (hi : (i, who) ∈ readers)
    (hne : i ≠ .rdblk) (hb : s.buf = some b) (hh : s.hash = none) : continuation who s = .unwritten .hash := by
  have hprocess := processBlock_no_hash hb hh
  simp only [readers, List.mem_cons, Prod.mk.injEq, List.not_mem_nil, or_false] at hi
  rcases hi with ⟨rfl, -⟩ | ⟨rfl, rfl⟩ | ⟨rfl, rfl⟩
  · exact absurd rfl hne
  · exact hprocess
  · simp [continuation, hprocess]

theorem exec_reader_no_bitlen {i : Instr} {s : State} (hi : i ∈ [Instr.rdblk, .step, .run]) (hd : s.drv = .running)
    (hph : s.phase = .idle) (hs : s.BlockComes) (hl : s.bitlen = none) :
    exec i s = .fault (.unwrittenRead .bitlen) := by
  obtain ⟨who, hwho⟩ := exists_waiter hi
  rw [exec_reader_readBlock hwho hd hph, readBlock_no_bitlen (s := { s with busy := true }) hs hl]
  rfl

theorem exec_reader_no_hash {i : Instr} {s : State} (hi : i ∈ [Instr.step, .run]) (hd : s.drv = .running)
    (hph : s.phase = .idle) (hs : s.BlockComes) (hl : s.bitlen.isSome = true) (hh : s.hash = none) :
    exec i s = .fault (.unwrittenRead .hash) := by
  obtain ⟨l, hl⟩ := Option.isSome_iff_exists.1 hl
  obtain ⟨who, hwho⟩ := exists_waiter (List.mem_cons_of_mem .rdblk hi)
  obtain ⟨t, b, ht, hth, htb⟩ := readBlock_completes (who := who) (s := { s with busy := true }) hs hl
  have hne : i ≠ .rdblk := by
    rintro rfl
    simp at hi
  rw [exec_reader_readBlock hwho hd hph, ht, flow_bind_ok, continuation_no_hash hwho hne htb (hth.trans hh)]
  rfl

/-- Settles O20: each operation reads its elements in turn and stops at the first without a value. -/
theorem readOfNoValueFaults : Obligations.ReadOfNoValueFaults := by
  intro s _
  refine ⟨fun hd hph hs => ⟨?_, ?_⟩, fun hd hph hb => ?_, fun hd hph hh i hi => ?_, fun hd hph hh hw => ?_,
    fun hd hph ht => ?_, fun hd hph ht => ?_, fun hd hh => ?_⟩
  · exact fun hl i hi => exec_reader_no_bitlen hi hd hph hs hl
  · exact fun hl hh i hi => exec_reader_no_hash hi hd hph hs hl hh
  · have haccept : acceptance .expand s = .perform := by rw [acceptance_running hd, acceptRunning, hph]; rfl
    refine (commanded_perform haccept).trans ?_
    simp [expandBlock, hb]
  · simp only [List.mem_cons, List.not_mem_nil, or_false] at hi
    have hcinit := acceptance_cinit_eq_perform.2 ⟨hd, hph⟩
    rcases hi with rfl | rfl
    · refine (commanded_perform hcinit).trans ?_
      simp [loadVars, hh]
    · rw [exec_compress_sched hd hph]
      simp [compressBlock, loadVars, hh]
  · rw [exec_compress_sched hd hph]
    rcases compressBlock_cases { s with busy := true } with ⟨hnone, -⟩ | ⟨-, -, h⟩ | ⟨_, _, -, hsome, -⟩
    · exact absurd hh (by simp [show s.hash = none from hnone])
    · simp [h]
    · exact absurd (hw.symm.trans hsome) (by simp)
  · rw [exec_round_rounds hd hph ht]
    refine ⟨fun hv _ => ?_, fun hv hw => ?_, fun hv _ => ⟨.vars, by simp, ?_⟩⟩
    · simp [roundStep, ht, hv]
    · obtain ⟨v, hv⟩ := Option.isSome_iff_exists.1 hv
      simp [roundStep, ht, hv, hw]
    · simp [roundStep, ht, hv]
  · rw [exec_fold_rounds hd hph ht]
    refine ⟨fun hv hh => ?_, fun _ hh => ?_, fun _ hh => ⟨.hash, by simp, ?_⟩⟩
    · obtain ⟨h, hh⟩ := Option.isSome_iff_exists.1 hh
      simp [foldBlock, hh, hv]
    · simp [foldBlock, hh]
    · simp [foldBlock, hh]
  · have haccept : acceptance .digest s = .perform := acceptance_done hd
    refine (commanded_perform haccept).trans ?_
    simp [digestWrite, hh]

end Sys2Proof.Machine
end

-- ==== STEP and RUN ====
section
/-! STEP against its three commands and what it leaves (44 R122, R123), and RUN as the loop of STEPs (44 R124). -/

namespace Sys2Proof.Machine

/-! ## How a read ends a command -/

/-- A read ends the command with a fault, or it waits. -/
theorem readBlock_stop_cases {who : Waiter} {s t : State} (h : readBlock who s = .stop t) :
    (t.drv = .failed ∧ t.busy = false) ∨ (t.drv = s.drv ∧ t.busy = s.busy ∧ t.waiting = some who) := by
  obtain ⟨-, hr⟩ := readBlock_eq_stop h
  rcases receive_eq_stop hr with ⟨c, -, rfl⟩ | ⟨-, rfl⟩
  · exact .inl ⟨rfl, rfl⟩
  · exact .inr ⟨rfl, rfl, rfl⟩

/-- A STEP's operation ends early in its read alone. -/
theorem driverStep_eq_stop {who : Waiter} {s t : State} (h : driverStep who s = .stop t) :
    readBlock who s = .stop t := by
  rcases flow_bind_eq_stop.1 h with hr | ⟨m, -, hp⟩
  · exact hr
  · exact absurd hp (processBlock_ne_stop m t)

/-- A read that completes leaves `H`, `busy` and the driver, and a block to expand. -/
theorem readBlock_ok_frame {who : Waiter} {s t : State} (h : readBlock who s = .ok t) :
    t.hash = s.hash ∧ t.drv = s.drv ∧ t.busy = s.busy ∧ t.phase = .block := by
  rcases readBlock_eq_ok h with ⟨-, hr⟩ | ⟨l, -, -, rfl⟩ | ⟨-, rfl⟩
  · obtain ⟨b, l, p, r, e, v, rfl⟩ := receive_ok_frame hr
    exact ⟨rfl, rfl, rfl, rfl⟩
  · exact ⟨rfl, rfl, rfl, rfl⟩
  · exact ⟨rfl, rfl, rfl, rfl⟩

/-- Who waits shows only where the read waits. -/
theorem receive_waiter_irrelevant (s : State) :
    (∀ who who', receive who s = receive who' s) ∨
    ∃ t : State, t.busy = s.busy ∧ ∀ who, receive who s = .stop { t with waiting := some who } := by
  simp only [receive]
  cases (acceptedRead s.policy s.source).ending with
  | data n lane => exact .inl fun _ _ => rfl
  | raise c => exact .inl fun _ _ => rfl
  | wait => exact .inr ⟨noteRequests _ { s with source := _ }, rfl, fun _ => rfl⟩

theorem readBlock_waiter_irrelevant (s : State) :
    (∀ who who', readBlock who s = readBlock who' s) ∨
    ∃ t : State, t.busy = s.busy ∧ ∀ who, readBlock who s = .stop { t with waiting := some who } := by
  unfold readBlock
  cases s.pad with
  | notPadded => exact receive_waiter_irrelevant (note .readRequest s)
  | terminatorPlaced => exact .inl fun _ _ => rfl
  | lengthWritten => exact .inl fun _ _ => rfl

/-- A read that does not wait is the same for whichever command it is made. -/
theorem readBlock_eq_of_not_waiting {who who' : Waiter} {s t : State} (hb : s.busy = true) (htb : t.busy = false)
    (h : readBlock who s = .stop t) : readBlock who' s = .stop t := by
  rcases readBlock_waiter_irrelevant s with hsame | ⟨u, hu, hwait⟩
  · rw [← h, hsame]
  · cases (hwait who).symm.trans h
    exact absurd htb (by simp [hu, hb])

theorem readBlock_eq_of_ok {who who' : Waiter} {s t : State} (h : readBlock who s = .ok t) :
    readBlock who' s = .ok t := by
  rcases readBlock_waiter_irrelevant s with hsame | ⟨u, -, hwait⟩
  · rw [← h, hsame]
  · cases (hwait who).symm.trans h

/-! ## STEP -/

/-- STEP is performed in `Running` and `IDLE` (60 R136). -/
theorem exec_step_idle {s : State} (hd : s.drv = .running) (hph : s.phase = .idle) :
    exec .step s = (driverStep .step { s with busy := true }).outcome :=
  commanded_perform (acceptance_reader (.inr (.inl rfl)) hd hph)

theorem exec_run_idle {s : State} (hd : s.drv = .running) (hph : s.phase = .idle) :
    exec .run s = (runToEnd false { s with busy := true }).outcome :=
  commanded_perform (acceptance_reader (.inr (.inr rfl)) hd hph)

/-- Where no block can be read, each of them raises `SEQUENCE`. -/
theorem acceptance_reader_raise {i : Instr} {s : State} (hi : i = .rdblk ∨ i = .step ∨ i = .run)
    (hd : s.drv = .running) (hph : s.phase ≠ .idle) : acceptance i s = .raise .sequence := by
  rw [acceptance_running hd]
  rcases hi with rfl | rfl | rfl <;> simp [acceptRunning, hph, require]

/-- Between two commands `busy` falls, and the next acceptance sets it again. -/
theorem commanded_complete {i : Instr} {op : State → Flow} {s : State} (hb : s.busy = true)
    (ha : acceptance i s = .perform) : commanded i op (complete s) = (op s).outcome := by
  have hs : ({ complete s with busy := true } : State) = s := by rw [← hb]; rfl
  rw [commanded_perform (s := complete s) ha, hs]

/-- EXPAND and COMPRESS as commands are what follows a STEP's read. -/
theorem execAll_expand_compress {s : State} (hb : s.busy = true) (hd : s.drv = .running) (hph : s.phase = .block) :
    execAll [.expand, .compress] (complete s) = (processBlock s).outcome := by
  have haccept : acceptance .expand s = .perform := by rw [acceptance_running hd, acceptRunning, hph]; rfl
  have hexpand : exec .expand (complete s) = (expandBlock s).outcome := commanded_complete hb haccept
  rw [processBlock]
  rcases Option.eq_none_or_eq_some s.buf with hbuf | ⟨b, hbuf⟩
  · have hnone : expandBlock s = .unwritten .buf := by simp [expandBlock, hbuf]
    rw [hnone] at hexpand ⊢
    exact execAll_cons_fault _ hexpand
  · rw [expandBlock_some hbuf] at hexpand ⊢
    rw [execAll_cons hexpand, execAll_singleton]
    exact commanded_complete hb ((acceptance_compress _).trans (acceptance_cinit_eq_perform.2 ⟨hd, rfl⟩))

/-- R123 in `Running`: STEP is RDBLK, EXPAND, COMPRESS, where its read does not wait. -/
theorem exec_step_eq_execAll {s t : State} (hd : s.drv = .running) (h : exec .rdblk s = .next t)
    (htb : t.busy = false) : exec .step s = execAll [.rdblk, .expand, .compress] s := by
  rw [execAll_cons h]
  by_cases hph : s.phase = .idle
  · rw [exec_step_idle hd hph, driverStep]
    rw [exec_rdblk_idle hd hph, flow_outcome_eq_next] at h
    obtain ⟨m, hm, rfl⟩ | hstop := h
    · obtain ⟨-, hmd, hmb, hmp⟩ := readBlock_ok_frame hm
      rw [readBlock_eq_of_ok hm, flow_bind_ok, execAll_expand_compress hmb (hmd.trans hd) hmp]
    · rw [readBlock_eq_of_not_waiting rfl htb hstop]
      obtain ⟨htd, -⟩ | ⟨-, hbusy, -⟩ := readBlock_stop_cases hstop
      · exact (execAll_failed htb htd _ (by simp)).symm
      · exact absurd (hbusy.symm.trans htb) (by simp)
  · have hstep : exec .step s = .next (raiseFault .sequence s) :=
      commanded_raise (acceptance_reader_raise (by simp) hd hph)
    have hrdblk : exec .rdblk s = .next (raiseFault .sequence s) :=
      commanded_raise (acceptance_reader_raise (by simp) hd hph)
    cases h.symm.trans hrdblk
    exact hstep.trans (execAll_failed rfl rfl _ (by simp)).symm

/-- R123: one STEP that completes folded the block in `buf`, and is done where that block was the terminal one. -/
theorem exec_step_completes {s t : State} (hd : s.drv = .running) (h : exec .step s = .next t)
    (htb : t.busy = false) (htd : t.drv ≠ .failed) :
    (∃ (h : HashState) (b : Block), s.hash = some h ∧ t.buf = some b ∧ t.hash = some (hashBlock h b)) ∧
    t.phase = .idle ∧ (t.drv = .done ↔ t.pad = .lengthWritten) := by
  have hph : s.phase = .idle := by
    by_contra hph
    have hraise : exec .step s = .next (raiseFault .sequence s) :=
      commanded_raise (acceptance_reader_raise (by simp) hd hph)
    cases h.symm.trans hraise
    exact htd rfl
  rw [exec_step_idle hd hph, flow_outcome_eq_next] at h
  obtain ⟨u, hu, rfl⟩ | hstop := h
  · obtain ⟨m, hm, hp⟩ := flow_bind_eq_ok.1 hu
    obtain ⟨hmh, hmd, -, -⟩ := readBlock_ok_frame hm
    obtain ⟨hash, b, hhash, hbuf, rfl⟩ := processBlock_eq_ok hp
    refine ⟨⟨hash, b, hmh.symm.trans hhash, hbuf, rfl⟩, rfl, ?_⟩
    have hrunning : m.drv = .running := hmd.trans hd
    simp [hrunning]
  · obtain ⟨hfailed, -⟩ | ⟨-, hbusy, -⟩ := readBlock_stop_cases (driverStep_eq_stop hstop)
    · exact absurd hfailed htd
    · exact absurd (hbusy.symm.trans htb) (by simp)

/-- Settles O40: in `Running` the same operations, in `Done` STEP is skipped and the three commands' first faults. -/
theorem stepEqualsItsThreeCommands : Obligations.StepEqualsItsThreeCommands := by
  refine ⟨fun s t _ hd => exec_step_eq_execAll hd, fun s hb hd => ?_, fun s t _ hd => exec_step_completes hd⟩
  obtain ⟨hstep, -, hrdblk, -⟩ := doneCommandsSkipOrFault s hb hd
  exact ⟨hstep, (execAll_cons hrdblk).trans (execAll_failed (by exact hb) rfl [.expand, .compress] (by simp))⟩

/-- The terminal block is the one whose chunk leaves room for the length (41 R91). -/
theorem chunkPad_eq_lengthWritten {n : Fin 65} : chunkPad n = .lengthWritten ↔ n.val ≤ 55 := by
  by_cases h64 : n.val = 64
  · simp [chunkPad, h64]
  · by_cases h55 : n.val ≤ 55 <;> simp [chunkPad, h64, h55]

/-- Settles O41: the read, and then the block's one update. -/
theorem stepProcessesOneBlock : Obligations.StepProcessesOneBlock := by
  rintro s h l ⟨hb, hw⟩ hd hph hr hh hl
  rw [exec_step_idle hd hph, driverStep]
  refine ⟨fun a rest n hpad hs ha => ⟨_, rfl, ?_⟩, fun hpad => ?_⟩
  · rw [readBlock_data (s := { s with busy := true }) hpad hs ha hl, flow_bind_ok,
      processBlock_some (hash := h) (b := chunkBlock n a.lane (addBits l n.val)) (by exact hh) (by rfl),
      flow_outcome_ok]
    simp [complete, chunkPad_eq_lengthWritten, hd, ← hb, ← hw, ← hph, ← hr, addBits, rawBytes]
    rfl
  · rw [readBlock_terminatorPlaced (s := { s with busy := true }) hpad hl, flow_bind_ok,
      processBlock_some (hash := h) (b := lengthBlock l) (by exact hh) (by rfl), flow_outcome_ok]
    simp [complete, ← hb, ← hph, ← hr]

/-! ## RUN -/

/-- After a block no block is held, and the computation goes on or is done. -/
theorem processBlock_ok_frame {s t : State} (hd : s.drv = .running) (h : processBlock s = .ok t) :
    t.busy = s.busy ∧ t.phase = .idle ∧ (t.drv = .running ∨ t.drv = .done) := by
  obtain ⟨hash, b, -, -, rfl⟩ := processBlock_eq_ok h
  refine ⟨rfl, rfl, ?_⟩
  by_cases hpad : s.pad = .lengthWritten
  · exact .inr (by simp [hpad])
  · exact .inl (by simp [hpad, hd])

/-- Whether RUN has folded a block before shows only where it waits. -/
theorem runToEnd_folded_irrelevant {f f' : Bool} {s u : State} (hb : s.busy = true) (hu : u.busy = false)
    (h : (runToEnd f s).outcome = .next u) : (runToEnd f' s).outcome = .next u := by
  by_cases hd : s.drv = .running
  · rw [runToEnd_running hd, driverStep] at h ⊢
    rcases readBlock_waiter_irrelevant s with hsame | ⟨t, ht, hwait⟩
    · rwa [hsame (.run f') (.run f)]
    · rw [hwait] at h
      cases h
      exact absurd hu (by simp [ht, hb])
  · rwa [runToEnd_not_running hd] at h ⊢

/-- Settles O42: RUN's first iteration is the STEP; after a fault or in `Done`, RUN changes nothing. -/
theorem runIsTheLoopOfSteps : Obligations.RunIsTheLoopOfSteps := by
  intro s t u _ hd hph hstep htb hub
  rw [exec_step_idle hd hph, driverStep, flow_outcome_eq_next] at hstep
  rw [exec_run_idle hd hph, runToEnd_running (s := { s with busy := true }) hd, driverStep]
  obtain ⟨m, hm, rfl⟩ | hstop := hstep
  · obtain ⟨r, hr, hp⟩ := flow_bind_eq_ok.1 hm
    obtain ⟨-, hrd, hrb, -⟩ := readBlock_ok_frame hr
    rw [readBlock_eq_of_ok hr, flow_bind_ok, hp, flow_bind_ok]
    obtain ⟨hmb, hmph, hrunning | hdone⟩ := processBlock_ok_frame (hrd.trans hd) hp
    · have hmbusy : m.busy = true := hmb.trans hrb
      have hrun : exec .run (complete m) = (runToEnd false m).outcome :=
        commanded_complete hmbusy (acceptance_reader (by simp) hrunning hmph)
      rw [hrun]
      exact ⟨runToEnd_folded_irrelevant hmbusy hub, runToEnd_folded_irrelevant hmbusy hub⟩
    · rw [runToEnd_not_running (by simp [hdone]), exec_skip rfl (acceptance_done (s := complete m) hdone)]
      rfl
  · have hread := driverStep_eq_stop hstop
    obtain ⟨htd, -⟩ | ⟨-, hbusy, -⟩ := readBlock_stop_cases hread
    · rw [readBlock_eq_of_not_waiting rfl htb hread, exec_failed htb htd (by simp)]
      rfl
    · exact absurd (hbusy.symm.trans htb) (by simp)

/-- The three ways in which RUN ends or waits. -/
def State.RunStopped (t : State) : Prop :=
  (t.drv = .done ∧ t.pad = .lengthWritten ∧ t.busy = false) ∨ (t.drv = .failed ∧ t.busy = false) ∨
    (t.drv = .running ∧ t.busy = true ∧ ∃ f, t.waiting = some (.run f))

/-- Between two STEPs of RUN: the computation goes on, or its terminal block has been folded. -/
def State.InLoop (s : State) : Prop := s.BetweenBlocks ∧ (s.drv = .running ∨ s.drv = .done)

theorem runToEnd_stopped (folded : Bool) {s : State} (hs : s.InLoop) :
    ∀ t, (runToEnd folded s).outcome = .next t → t.RunStopped := by
  refine runToEnd_induction (P := State.InLoop) (Q := fun r => ∀ t, r.outcome = .next t → t.RunStopped)
    (fun f s hs hd => ?_) (fun s hs hd t ht => ?_) (s.source.length + 1) folded s (by omega) hs
  · obtain ⟨hblocks, -⟩ := hs
    have hsound := driverStep_sound (who := .run f) (computing_of_betweenBlocks hblocks hd) hblocks.2.2
    cases h : driverStep (.run f) s with
    | ok t =>
      obtain ⟨m, hm, hp⟩ := flow_bind_eq_ok.1 h
      obtain ⟨-, hmd, -, -⟩ := readBlock_ok_frame hm
      rw [h] at hsound
      exact .inl ⟨t, rfl, hsound, (processBlock_ok_frame (hmd.trans hd) hp).2.2⟩
    | stop t =>
      refine .inr ⟨by simp, fun u hu => ?_⟩
      cases hu
      obtain ⟨htd, htb⟩ | ⟨htd, htb, hw⟩ := readBlock_stop_cases (driverStep_eq_stop h)
      · exact .inr (.inl ⟨htd, htb⟩)
      · exact .inr (.inr ⟨htd.trans hd, htb.trans hblocks.1, f, hw⟩)
    | unwritten e => exact .inr ⟨by simp, fun u hu => by cases hu⟩
  · obtain ⟨⟨-, hinv, -⟩, hdrv⟩ := hs
    have hdone : s.drv = .done := hdrv.resolve_left hd
    cases ht
    exact .inl ⟨hdone, (hinv.done_terminal hdone).1, rfl⟩

/-- Settles O43: the loop goes on from every STEP that leaves `Running`, and stops otherwise. -/
theorem runEndsDoneFailedOrWaiting : Obligations.RunEndsDoneFailedOrWaiting := by
  intro s t hi hb hd hph h
  rw [exec_run_idle hd hph] at h
  have hinv : (complete { s with busy := true }).Inv := inv_complete_of_computing (computing_of_inv hi hb hd)
  exact runToEnd_stopped false ⟨⟨rfl, hinv, hph⟩, .inl hd⟩ t h

end Sys2Proof.Machine
end

-- ==== How a command moves the core on ====
section
/-! What every command but INIT can do to the ports, to `pad`, `drv` and `cause` (10 R21, R23, R34 item 7): its
operation is followed once, and the statements about commands and steps are read off it. -/

namespace Sys2Proof.Machine

/-! ## The ports and the padding -/

/-- What the operations do at the ports: requests are shown, and entries are taken from the front of the script. -/
structure State.Reads (s t : State) : Prop where
  trace : ∃ k, t.trace = List.replicate k .readRequest ++ s.trace
  source : t.source <:+ s.source
  draws : t.draws = s.draws

/-- The operations of a command also keep to R21 and to R34 item 7. -/
structure State.Advances (s t : State) : Prop extends State.Reads s t where
  pad : s.pad.code.toNat ≤ t.pad.code.toNat
  no_request : s.pad ≠ .notPadded → t.trace = s.trace

theorem reads_trans {s t u : State} (h : s.Reads t) (h' : t.Reads u) : s.Reads u := by
  obtain ⟨k, hk⟩ := h.trace
  obtain ⟨k', hk'⟩ := h'.trace
  refine ⟨⟨k' + k, ?_⟩, h'.source.trans h.source, h'.draws.trans h.draws⟩
  rw [hk', hk, ← List.append_assoc, List.replicate_append_replicate]

theorem notPadded_of_le {p q : PadState} (h : p.code.toNat ≤ q.code.toNat) (hq : q = .notPadded) :
    p = .notPadded := by
  subst hq
  cases p with
  | notPadded => rfl
  | terminatorPlaced | lengthWritten => exact absurd h (by decide)

theorem lengthWritten_of_le {p q : PadState} (h : p.code.toNat ≤ q.code.toNat) (hp : p = .lengthWritten) :
    q = .lengthWritten := by
  subst hp
  cases q with
  | lengthWritten => rfl
  | terminatorPlaced | notPadded => exact absurd h (by decide)

theorem advances_trans {s t u : State} (h : s.Advances t) (h' : t.Advances u) : s.Advances u where
  toReads := reads_trans h.toReads h'.toReads
  pad := h.pad.trans h'.pad
  no_request := fun hp => (h'.no_request fun ht => hp (notPadded_of_le h.pad ht)).trans (h.no_request hp)

/-- An operation that leaves the ports and `pad`. -/
theorem advances_of_eq {s t : State} (htrace : t.trace = s.trace) (hsource : t.source = s.source)
    (hdraws : t.draws = s.draws) (hpad : t.pad = s.pad) : s.Advances t where
  trace := ⟨0, htrace⟩
  source := hsource ▸ List.suffix_rfl
  draws := hdraws
  pad := hpad ▸ le_rfl
  no_request := fun _ => htrace

/-! ## The driver -/

def State.SameDriver (s t : State) : Prop := t.drv = s.drv ∧ t.cause = s.cause

/-- The terminal block has been folded (10 R23). -/
def State.Finishes (s t : State) : Prop := t.drv = .done ∧ t.pad = .lengthWritten ∧ t.cause = s.cause

def State.Fails (t : State) : Prop := t.drv = .failed ∧ t.cause ≠ .none

/-- From `s` the flow moves the core on, and the driver with it. `folds`: the flow may fold a block. -/
def Flow.Advances (folds : Prop) (s : State) : Flow → Prop
  | .ok t => s.Advances t ∧ (s.SameDriver t ∨ folds ∧ s.Finishes t)
  | .stop t => s.Advances t ∧ (s.SameDriver t ∨ (folds ∧ s.Finishes t) ∨ t.Fails)
  | .unwritten _ => True

/-- What follows an operation that completed. -/
theorem flow_advances_after {folds : Prop} {s t : State} {r : Flow} (ht : (Flow.ok t).Advances folds s)
    (hr : r.Advances folds t) : r.Advances folds s := by
  obtain ⟨hst, hdrv⟩ := ht
  have hsame {u : State} (htu : t.Advances u) (h : t.SameDriver u) :
      s.SameDriver u ∨ folds ∧ s.Finishes u := by
    obtain ⟨hd, hc⟩ := h
    rcases hdrv with ⟨hd', hc'⟩ | ⟨hf, hd', hp, hc'⟩
    · exact .inl ⟨hd.trans hd', hc.trans hc'⟩
    · exact .inr ⟨hf, hd.trans hd', lengthWritten_of_le htu.pad hp, hc.trans hc'⟩
  have hcause : t.cause = s.cause := hdrv.elim (·.2) (·.2.2.2)
  cases r with
  | ok u =>
    obtain ⟨htu, h | ⟨hf, hd, hp, hc⟩⟩ := hr
    · exact ⟨advances_trans hst htu, hsame htu h⟩
    · exact ⟨advances_trans hst htu, .inr ⟨hf, hd, hp, hc.trans hcause⟩⟩
  | stop u =>
    obtain ⟨htu, h | ⟨hf, hd, hp, hc⟩ | h⟩ := hr
    · exact ⟨advances_trans hst htu, (hsame htu h).imp_right .inl⟩
    · exact ⟨advances_trans hst htu, .inr (.inl ⟨hf, hd, hp, hc.trans hcause⟩)⟩
    · exact ⟨advances_trans hst htu, .inr (.inr h)⟩
  | unwritten e => trivial

theorem flow_advances_bind {folds : Prop} {s : State} {r : Flow} {k : State → Flow} (hr : r.Advances folds s)
    (hk : ∀ t, (k t).Advances folds t) : (r.bind k).Advances folds s := by
  cases r with
  | ok t => exact flow_advances_after hr (hk t)
  | stop t => exact hr
  | unwritten e => trivial

theorem flow_advances_imp {folds folds' : Prop} {s : State} {r : Flow} (h : folds → folds')
    (hr : r.Advances folds s) : r.Advances folds' s := by
  cases r with
  | ok t => exact ⟨hr.1, hr.2.imp_right (And.imp_left h)⟩
  | stop t => exact ⟨hr.1, hr.2.imp_right (Or.imp_left (And.imp_left h))⟩
  | unwritten e => trivial

/-! ## The operations -/

/-- A request shows its retries and takes its answers, and changes nothing else at the ports. -/
theorem receive_reads (who : Waiter) (s : State) : (receive who s).Leaves s.Reads := by
  have hsuffix := acceptedRead_rest_suffix s.policy s.source
  rcases receive_cases who s with ⟨n, lane, -, hr⟩ | ⟨c, -, hr⟩ | ⟨-, hr⟩ <;> rw [hr]
  · unfold storeChunk
    split
    · exact leaves_unwritten
    · exact ⟨⟨_, rfl⟩, hsuffix, rfl⟩
  · exact ⟨⟨_, rfl⟩, hsuffix, rfl⟩
  · exact ⟨⟨_, rfl⟩, hsuffix, rfl⟩

/-- Before the terminator a request is the reader's own (41 R86). -/
theorem receive_advances (who : Waiter) {s : State} (hpad : s.pad = .notPadded) :
    (receive who s).Advances False s := by
  have hadvances {t : State} (ht : s.Reads t) : s.Advances t :=
    { ht with pad := by simp [hpad, PadState.code], no_request := fun h => absurd hpad h }
  have hreads := receive_reads who s
  cases h : receive who s with
  | ok t =>
    rw [h] at hreads
    obtain ⟨n, lane, l, -, -, rfl⟩ := receive_eq_ok h
    exact ⟨hadvances hreads, .inl ⟨rfl, rfl⟩⟩
  | stop t =>
    rw [h] at hreads
    refine ⟨hadvances hreads, ?_⟩
    rcases receive_eq_stop h with ⟨c, hc, rfl⟩ | ⟨-, rfl⟩
    · exact .inr (.inr ⟨rfl, acceptedRead_raise_ne_none hc⟩)
    · exact .inl ⟨rfl, rfl⟩
  | unwritten e => trivial

theorem readBlock_advances (who : Waiter) (s : State) : (readBlock who s).Advances False s := by
  unfold readBlock
  split
  next hpad =>
    have hnote : s.Advances (note .readRequest s) := ⟨⟨⟨1, rfl⟩, List.suffix_rfl, rfl⟩, le_rfl, fun h => absurd hpad h⟩
    exact flow_advances_after (t := note .readRequest s) ⟨hnote, .inl ⟨rfl, rfl⟩⟩ (receive_advances who hpad)
  next hpad =>
    split
    · trivial
    · exact ⟨⟨⟨⟨0, rfl⟩, List.suffix_rfl, rfl⟩, by simp [hpad, PadState.code], fun _ => rfl⟩, .inl ⟨rfl, rfl⟩⟩
  next => exact ⟨advances_of_eq rfl rfl rfl rfl, .inl ⟨rfl, rfl⟩⟩

theorem expandBlock_advances (s : State) : (expandBlock s).Advances False s := by
  unfold expandBlock
  split
  · trivial
  · exact ⟨advances_of_eq rfl rfl rfl rfl, .inl ⟨rfl, rfl⟩⟩

theorem loadVars_advances (s : State) : (loadVars s).Advances False s := by
  rcases loadVars_cases s with ⟨e, h⟩ | ⟨v, h⟩ <;> rw [h]
  · trivial
  · exact ⟨advances_of_eq rfl rfl rfl rfl, .inl ⟨rfl, rfl⟩⟩

theorem roundStep_advances (s : State) : (roundStep s).Advances False s := by
  by_cases ht : s.rnd.val < 64
  · rcases roundStep_cases ht with ⟨e, h⟩ | ⟨v, h⟩ <;> rw [h]
    · trivial
    · exact ⟨advances_of_eq rfl rfl rfl rfl, .inl ⟨rfl, rfl⟩⟩
  · rw [roundStep, dif_neg ht]
    exact ⟨advances_of_eq rfl rfl rfl rfl, .inr (.inr ⟨rfl, by simp⟩)⟩

/-- The driver after a block: done where the block was the terminal one (43 R112). -/
theorem driver_of_folded {s t : State} (hd : t.drv = if s.pad = .lengthWritten then .done else s.drv)
    (hp : t.pad = s.pad) (hc : t.cause = s.cause) : s.SameDriver t ∨ True ∧ s.Finishes t := by
  by_cases hpad : s.pad = .lengthWritten
  · exact .inr ⟨trivial, hd.trans (if_pos hpad), hp.trans hpad, hc⟩
  · exact .inl ⟨hd.trans (if_neg hpad), hc⟩

theorem foldBlock_advances (s : State) : (foldBlock s).Advances True s := by
  unfold foldBlock
  split
  · trivial
  · trivial
  · exact ⟨advances_of_eq rfl rfl rfl rfl, driver_of_folded rfl rfl rfl⟩

theorem compressBlock_advances (s : State) : (compressBlock s).Advances True s := by
  rcases compressBlock_cases s with ⟨-, h⟩ | ⟨-, -, h⟩ | ⟨hash, w, -, -, h⟩ <;> rw [h]
  · trivial
  · trivial
  · exact ⟨advances_of_eq rfl rfl rfl rfl, driver_of_folded rfl rfl rfl⟩

theorem processBlock_advances (s : State) : (processBlock s).Advances True s :=
  flow_advances_bind (flow_advances_imp False.elim (expandBlock_advances s)) compressBlock_advances

theorem driverStep_advances (who : Waiter) (s : State) : (driverStep who s).Advances True s :=
  flow_advances_bind (flow_advances_imp False.elim (readBlock_advances who s)) processBlock_advances

theorem runLoop_advances (n : Nat) : ∀ (folded : Bool) (s : State), (runLoop n folded s).Advances True s := by
  induction n with
  | zero => exact fun _ _ => ⟨advances_of_eq rfl rfl rfl rfl, .inl ⟨rfl, rfl⟩⟩
  | succ n ih =>
    intro folded s
    by_cases hd : s.drv = .running
    · rw [runLoop_running hd]
      exact flow_advances_bind (driverStep_advances _ s) (ih true)
    · rw [runLoop_not_running hd]
      exact ⟨advances_of_eq rfl rfl rfl rfl, .inl ⟨rfl, rfl⟩⟩

/-- The commands that fold blocks (10 R23). -/
def folding : List Instr := [.fold, .compress, .step, .run]

/-- Every operation but INIT's and DIGEST's moves the core on. -/
theorem operation_advances {i : Instr} (hi : i ≠ .init) (hg : i ≠ .digest) (s : State) :
    (operation i s).Advances (i ∈ folding) s := by
  have hfolds {r : Flow} (hf : i ∈ folding) (hr : r.Advances True s) : r.Advances (i ∈ folding) s :=
    flow_advances_imp (fun _ => hf) hr
  cases i with
  | init => exact absurd rfl hi
  | digest => exact absurd rfl hg
  | rdblk => exact flow_advances_imp False.elim (readBlock_advances _ s)
  | expand => exact flow_advances_imp False.elim (expandBlock_advances s)
  | cinit => exact flow_advances_imp False.elim (loadVars_advances s)
  | round => exact flow_advances_imp False.elim (roundStep_advances s)
  | fold => exact hfolds (by decide) (foldBlock_advances s)
  | compress => exact hfolds (by decide) (compressBlock_advances s)
  | step => exact hfolds (by decide) (driverStep_advances _ s)
  | run => exact hfolds (by decide) (runLoop_advances _ _ s)

/-! ## A whole command -/

/-- What a command or a step but INIT and reset may do to `drv` and `cause` (10 R23, R27). -/
def State.DriverMoves (folds : Prop) (s t : State) : Prop :=
  s.SameDriver t ∨ (folds ∧ s.drv = .running ∧ s.Finishes t) ∨ (s.drv ≠ .failed ∧ t.Fails)

/-- A flow of the running computation, as the outcome of a command. -/
theorem outcome_advances {folds : Prop} {s t : State} {r : Flow} (hd : s.drv = .running) (hr : r.Advances folds s)
    (h : r.outcome = .next t) : s.Advances t ∧ s.DriverMoves folds t := by
  have hnot : s.drv ≠ .failed := by simp [hd]
  obtain ⟨u, rfl, rfl⟩ | rfl := flow_outcome_eq_next.1 h
  · obtain ⟨hsu, hdrv⟩ := hr
    exact ⟨{ hsu with }, hdrv.imp id fun ⟨hf, hfin⟩ => .inl ⟨hf, hd, hfin⟩⟩
  · obtain ⟨hsu, hdrv⟩ := hr
    exact ⟨hsu, hdrv.imp id (Or.imp (fun ⟨hf, hfin⟩ => ⟨hf, hd, hfin⟩) fun hfail => ⟨hnot, hfail⟩)⟩

theorem not_failed_of_raise {i : Instr} {s : State} {c : Cause} (ha : acceptance i s = .raise c) :
    s.drv ≠ .failed := by
  intro hd
  by_cases hi : i = .init
  · subst hi
    simp at ha
  · simp [acceptance_failed hd hi] at ha

theorem driverMoves_of_raise {folds : Prop} {i : Instr} {s : State} {c : Cause} (ha : acceptance i s = .raise c) :
    s.DriverMoves folds (raiseFault c s) :=
  .inr (.inr ⟨not_failed_of_raise ha, rfl, acceptance_raise_ne_none ha⟩)

/-- Every command but INIT and DIGEST moves the core on, whether it is performed or not. -/
theorem exec_advances {i : Instr} {s t : State} (hi : i ≠ .init) (hg : i ≠ .digest) (h : exec i s = .next t) :
    s.Advances t ∧ s.DriverMoves (i ∈ folding) t := by
  rw [exec_eq_commanded] at h
  rcases commanded_cases i (operation i) s with ⟨ha, hc⟩ | ⟨-, hc⟩ | ⟨c, ha, hc⟩ <;> rw [hc] at h
  · obtain ⟨hd, -⟩ := running_of_perform hi hg ha
    obtain ⟨hadvances, hmoves⟩ :=
      outcome_advances (s := { s with busy := true }) hd (operation_advances hi hg _) h
    exact ⟨{ hadvances with }, hmoves⟩
  · cases h
    exact ⟨advances_of_eq rfl rfl rfl rfl, .inl ⟨rfl, rfl⟩⟩
  · cases h
    exact ⟨advances_of_eq rfl rfl rfl rfl, driverMoves_of_raise ha⟩

/-- DIGEST shows a digest, raises a fault, or does nothing. -/
theorem exec_digest_cases {s t : State} (h : exec .digest s = .next t) :
    (∃ d, t = complete (note (.digest d) s)) ∨ t = complete s ∨
      ∃ c, acceptance .digest s = .raise c ∧ t = raiseFault c s := by
  rw [exec_eq_commanded] at h
  rcases commanded_cases .digest (operation .digest) s with ⟨-, hc⟩ | ⟨-, hc⟩ | ⟨c, ha, hc⟩ <;> rw [hc] at h
  · rcases Option.eq_none_or_eq_some s.hash with hh | ⟨hash, hh⟩
    · simp [operation, digestWrite, hh] at h
    · rw [operation, digestWrite_some (s := { s with busy := true }) hh] at h
      cases h
      exact .inl ⟨digestBytes hash, rfl⟩
  · cases h
    exact .inr (.inl rfl)
  · cases h
    exact .inr (.inr ⟨c, ha, rfl⟩)

/-- What every command but INIT, and every turn of the core that takes none, does to `pad`, to the ports and to the
driver. -/
structure State.Moves (folds : Prop) (s t : State) : Prop where
  shown : s.trace <:+ t.trace
  source : t.source <:+ s.source
  draws : t.draws = s.draws
  pad : s.pad.code.toNat ≤ t.pad.code.toNat
  requests : s.pad ≠ .notPadded → t.requests = s.requests
  driver : s.DriverMoves folds t

theorem moves_of_advances {folds : Prop} {s t : State} (h : s.Advances t ∧ s.DriverMoves folds t) :
    s.Moves folds t where
  shown := by
    obtain ⟨k, hk⟩ := h.1.trace
    exact ⟨_, hk.symm⟩
  source := h.1.source
  draws := h.1.draws
  pad := h.1.pad
  requests := fun hp => by rw [State.requests, State.requests, h.1.no_request hp]
  driver := h.2

theorem exec_moves {i : Instr} {s t : State} (hi : i ≠ .init) (h : exec i s = .next t) :
    s.Moves (i ∈ folding) t := by
  by_cases hg : i = .digest
  · subst hg
    obtain ⟨d, rfl⟩ | rfl | ⟨c, ha, rfl⟩ := exec_digest_cases h
    · exact ⟨List.suffix_cons .., List.suffix_rfl, rfl, le_rfl, fun _ => by simp [State.requests], .inl ⟨rfl, rfl⟩⟩
    · exact ⟨List.suffix_rfl, List.suffix_rfl, rfl, le_rfl, fun _ => rfl, .inl ⟨rfl, rfl⟩⟩
    · exact ⟨List.suffix_rfl, List.suffix_rfl, rfl, le_rfl, fun _ => rfl, driverMoves_of_raise ha⟩
  · exact moves_of_advances (exec_advances hi hg h)

end Sys2Proof.Machine
end

-- ==== The writers of each element ====
section
/-! Which operations leave which elements (10 R16, R17, R19, R29, R30), and what a fault leaves (60 R147). -/

namespace Sys2Proof.Machine

/-- The operation leaves what `f` reads of the state. -/
def Keeps {α : Type} (f : State → α) (op : State → Flow) : Prop := ∀ s, (op s).Leaves fun t => f t = f s

theorem leaves_imp {P Q : State → Prop} {r : Flow} (h : ∀ t, P t → Q t) (hr : r.Leaves P) : r.Leaves Q := by
  cases r with
  | ok t => exact h t hr
  | stop t => exact h t hr
  | unwritten e => trivial

theorem Keeps.of_comp {α β : Type} {f : State → α} {op : State → Flow} (h : Keeps f op) (g : α → β) :
    Keeps (fun s => g (f s)) op := fun s =>
  leaves_imp (fun _ ht => congrArg g ht) (h s)

/-- The acceptance and the end of a command write `drv`, `cause` and `busy` alone (60 R136, R137). -/
theorem exec_keeps {α : Type} {f : State → α} {i : Instr} {s t : State} (hop : Keeps f (operation i))
    (hf : ∀ s d c b, f { s with drv := d, cause := c, busy := b } = f s) (h : exec i s = .next t) : f t = f s := by
  rw [exec_eq_commanded] at h
  rcases commanded_cases i (operation i) s with ⟨-, hc⟩ | ⟨-, hc⟩ | ⟨c, -, hc⟩ <;> rw [hc] at h
  · have hleaves := hop { s with busy := true }
    have hstart : f { s with busy := true } = f s := hf s s.drv s.cause true
    obtain ⟨u, hu, rfl⟩ | hu := flow_outcome_eq_next.1 h <;> rw [hu] at hleaves
    · exact (hf u u.drv u.cause false).trans (hleaves.trans hstart)
    · exact hleaves.trans hstart
  · cases h
    exact hf s s.drv s.cause false
  · cases h
    exact hf s .failed c false

/-- What RDBLK's side writes: `buf`, `bitlen`, `pad`, and the byte source's script and requests. -/
def State.readerSide (s : State) : Option Block × Option (BitVec 64) × PadState × List SourceEvent × Nat :=
  (s.buf, s.bitlen, s.pad, s.source, s.requests)

/-- What the operations of the hash engine write but `W`: `H`, and `a`..`h` with `rnd`. -/
def State.engine (s : State) : Option HashState × Option Vars × Fin 65 := (s.hash, s.vars, s.rnd)

theorem readBlock_keeps (who : Waiter) : Keeps (fun s => (s.engine, s.sched)) (readBlock who) := by
  intro s
  unfold readBlock
  split
  · rcases receive_cases who (note .readRequest s) with ⟨n, lane, -, hr⟩ | ⟨c, -, hr⟩ | ⟨-, hr⟩ <;> rw [hr]
    · unfold storeChunk
      split
      · exact leaves_unwritten
      · rfl
    · rfl
    · rfl
  · split
    · exact leaves_unwritten
    · rfl
  · rfl

theorem expandBlock_keeps : Keeps (fun s => (s.engine, s.readerSide)) expandBlock := by
  intro s
  unfold expandBlock
  split
  · exact leaves_unwritten
  · rfl

theorem loadVars_keeps : Keeps (fun s => (s.hash, s.sched, s.readerSide)) loadVars := by
  intro s
  rcases loadVars_cases s with ⟨e, h⟩ | ⟨v, h⟩ <;> rw [h]
  · exact leaves_unwritten
  · rfl

theorem roundStep_keeps : Keeps (fun s => (s.hash, s.sched, s.readerSide)) roundStep := by
  intro s
  by_cases ht : s.rnd.val < 64
  · rcases roundStep_cases ht with ⟨e, h⟩ | ⟨v, h⟩ <;> rw [h]
    · exact leaves_unwritten
    · rfl
  · rw [roundStep, dif_neg ht]
    rfl

theorem foldBlock_keeps : Keeps State.readerSide foldBlock := by
  intro s
  unfold foldBlock
  split
  · exact leaves_unwritten
  · exact leaves_unwritten
  · rfl

theorem compressBlock_keeps : Keeps State.readerSide compressBlock := by
  intro s
  rcases compressBlock_cases s with ⟨-, h⟩ | ⟨-, -, h⟩ | ⟨hash, w, -, -, h⟩ <;> rw [h]
  · exact leaves_unwritten
  · exact leaves_unwritten
  · rfl

theorem digestWrite_keeps : Keeps (fun s => (s.engine, s.sched, s.readerSide)) digestWrite := by
  intro s
  rcases Option.eq_none_or_eq_some s.hash with hh | ⟨hash, hh⟩
  · simp only [digestWrite, hh]
    exact leaves_unwritten
  · rw [digestWrite_some hh]
    simp [Flow.Leaves, State.engine, State.readerSide, State.requests]

/-! ## The commands -/

theorem exec_keeps_hash {i : Instr} {s t : State} (hi : i ∉ [Instr.init, .fold, .compress, .step, .run])
    (h : exec i s = .next t) : t.hash = s.hash := by
  have hop : Keeps State.hash (operation i) := by
    cases i with
    | init | fold | compress | step | run => exact absurd (by decide) hi
    | rdblk => exact (readBlock_keeps .rdblk).of_comp (·.1.1)
    | expand => exact expandBlock_keeps.of_comp (·.1.1)
    | cinit => exact loadVars_keeps.of_comp (·.1)
    | round => exact roundStep_keeps.of_comp (·.1)
    | digest => exact digestWrite_keeps.of_comp (·.1.1)
  exact exec_keeps hop (fun _ _ _ _ => rfl) h

theorem exec_keeps_engine {i : Instr} {s t : State}
    (hi : i ∉ [Instr.init, .cinit, .round, .fold, .compress, .step, .run]) (h : exec i s = .next t) :
    t.engine = s.engine := by
  have hop : Keeps State.engine (operation i) := by
    cases i with
    | init | cinit | round | fold | compress | step | run => exact absurd (by decide) hi
    | rdblk => exact (readBlock_keeps .rdblk).of_comp (·.1)
    | expand => exact expandBlock_keeps.of_comp (·.1)
    | digest => exact digestWrite_keeps.of_comp (·.1)
  exact exec_keeps hop (fun _ _ _ _ => rfl) h

theorem exec_keeps_sched {i : Instr} {s t : State} (hi : i ∉ [Instr.init, .expand, .fold, .compress, .step, .run])
    (h : exec i s = .next t) : t.sched = s.sched := by
  have hop : Keeps State.sched (operation i) := by
    cases i with
    | init | expand | fold | compress | step | run => exact absurd (by decide) hi
    | rdblk => exact (readBlock_keeps .rdblk).of_comp (·.2)
    | cinit => exact loadVars_keeps.of_comp (·.2.1)
    | round => exact roundStep_keeps.of_comp (·.2.1)
    | digest => exact digestWrite_keeps.of_comp (·.2.1)
  exact exec_keeps hop (fun _ _ _ _ => rfl) h

theorem exec_keeps_readerSide {i : Instr} {s t : State} (hi : i ∉ [Instr.init, .rdblk, .step, .run])
    (h : exec i s = .next t) : t.readerSide = s.readerSide := by
  have hop : Keeps State.readerSide (operation i) := by
    cases i with
    | init | rdblk | step | run => exact absurd (by decide) hi
    | expand => exact expandBlock_keeps.of_comp (·.2)
    | cinit => exact loadVars_keeps.of_comp (·.2.2)
    | round => exact roundStep_keeps.of_comp (·.2.2)
    | fold => exact foldBlock_keeps
    | compress => exact compressBlock_keeps
    | digest => exact digestWrite_keeps.of_comp (·.2.2)
  exact exec_keeps hop (fun _ _ _ _ => rfl) h

/-- Read requests leave the digest port (30 R66). -/
theorem digestPort_requests (k : Nat) (s : State) :
    ({ s with trace := List.replicate k .readRequest ++ s.trace } : State).digestPort = s.digestPort := by
  unfold State.digestPort
  rw [List.findSome?_append, List.findSome?_replicate]
  by_cases hk : k = 0 <;> simp [hk]

theorem exec_digestPort {i : Instr} {s t : State} (hi : i ≠ .digest) (h : exec i s = .next t) :
    t.digestPort = s.digestPort := by
  by_cases hinit : i = .init
  · subst hinit
    rw [exec_init] at h
    cases h
    rfl
  · obtain ⟨k, hk⟩ := (exec_advances hinit hi h).1.trace
    calc t.digestPort
      _ = ({ s with trace := List.replicate k .readRequest ++ s.trace } : State).digestPort := by
        rw [State.digestPort, State.digestPort, hk]
      _ = s.digestPort := digestPort_requests k s

theorem exec_draws {i : Instr} {s t : State} (h : exec i s = .next t) : t.draws = s.draws := by
  by_cases hinit : i = .init
  · subst hinit
    rw [exec_init] at h
    cases h
    rfl
  · exact (exec_moves hinit h).draws

/-- Settles O54: each element by the operations that keep it. -/
theorem eachElementHasOnlyItsWriters : Obligations.EachElementHasOnlyItsWriters := by
  intro s t i h
  have houtside := exec_outside h
  simp only [State.outside, Prod.mk.injEq] at houtside
  obtain ⟨hpolicy, hport, hhost⟩ := houtside
  refine ⟨fun hi => exec_keeps_hash hi h, fun hi => ?_, fun hi => exec_keeps_sched hi h, fun hi => ?_,
    fun hi => exec_digestPort hi h, hpolicy, hport, hhost, exec_draws h⟩
  · have hengine := exec_keeps_engine hi h
    simp only [State.engine, Prod.mk.injEq] at hengine
    exact hengine.2
  · have hside := exec_keeps_readerSide hi h
    simp only [State.readerSide, Prod.mk.injEq] at hside
    obtain ⟨hbuf, hbitlen, -, hsource, hrequests⟩ := hside
    exact ⟨hbuf, hbitlen, hsource, hrequests⟩

/-- Only the commands that read blocks, and INIT, write `pad` (10 R21). -/
theorem exec_keeps_pad {i : Instr} {s t : State}
    (hi : i ∈ [Instr.expand, .cinit, .round, .fold, .compress, .digest]) (h : exec i s = .next t) :
    t.pad = s.pad := by
  have hreader : ∀ j ∈ [Instr.expand, .cinit, .round, .fold, .compress, .digest],
      j ∉ [Instr.init, .rdblk, .step, .run] := by decide
  exact congrArg (·.2.2.1) (exec_keeps_readerSide (hreader i hi) h)

/-! ## What a fault leaves -/

/-- The core's data state and the model's record of delivered bytes (60 R137, R147). -/
structure State.SameData (s t : State) : Prop where
  hash : t.hash = s.hash
  vars : t.vars = s.vars
  sched : t.sched = s.sched
  buf : t.buf = s.buf
  bitlen : t.bitlen = s.bitlen
  pad : t.pad = s.pad
  phase : t.phase = s.phase
  rnd : t.rnd = s.rnd
  received : t.received = s.received

theorem sameData_of_readBlock_stop {who : Waiter} {s t : State} (h : readBlock who s = .stop t) : s.SameData t := by
  obtain ⟨-, hr⟩ := readBlock_eq_stop h
  rcases receive_eq_stop hr with ⟨c, -, rfl⟩ | ⟨-, rfl⟩
  · exact ⟨rfl, rfl, rfl, rfl, rfl, rfl, rfl, rfl, rfl⟩
  · exact ⟨rfl, rfl, rfl, rfl, rfl, rfl, rfl, rfl, rfl⟩

/-- An operation that ends early, but for RUN's, has written no data: RDBLK's and STEP's end in their read, and ROUND's
at a round that is not left. -/
theorem operation_eq_stop {i : Instr} {s t : State} (hi : i ≠ .run) (h : operation i s = .stop t) :
    s.SameData t ∧ (t.busy = false ∨ t.drv = s.drv) := by
  have hread {who : Waiter} (h : readBlock who s = .stop t) : s.SameData t ∧ (t.busy = false ∨ t.drv = s.drv) :=
    ⟨sameData_of_readBlock_stop h, (readBlock_stop_cases h).imp (·.2) (·.1)⟩
  cases i with
  | run => exact absurd rfl hi
  | rdblk => exact hread h
  | step => exact hread (driverStep_eq_stop h)
  | round =>
    by_cases ht : s.rnd.val < 64
    · obtain ⟨e, hr⟩ | ⟨v, hr⟩ := roundStep_cases ht <;> cases hr.symm.trans h
    · rw [operation, roundStep, dif_neg ht] at h
      cases h
      exact ⟨⟨rfl, rfl, rfl, rfl, rfl, rfl, rfl, rfl, rfl⟩, .inl rfl⟩
  | init => cases h
  | expand =>
    simp only [operation, expandBlock] at h
    split at h <;> cases h
  | cinit => obtain ⟨e, hr⟩ | ⟨v, hr⟩ := loadVars_cases s <;> cases hr.symm.trans h
  | fold =>
    simp only [operation, foldBlock] at h
    split at h <;> cases h
  | compress =>
    obtain ⟨-, hr⟩ | ⟨-, -, hr⟩ | ⟨_, _, -, -, hr⟩ := compressBlock_cases s <;> cases hr.symm.trans h
  | digest =>
    simp only [operation, digestWrite] at h
    split at h <;> cases h

/-- A command that was performed and failed stopped in its operation. -/
theorem operation_eq_stop_of_failed {i : Instr} {s t : State} (hi : i ≠ .init) (hg : i ≠ .digest)
    (hd : s.drv = .running) (h : (operation i s).outcome = .next t) (htd : t.drv = .failed) :
    operation i s = .stop t := by
  obtain ⟨u, hu, rfl⟩ | hu := flow_outcome_eq_next.1 h
  · have hadvances := operation_advances hi hg s
    rw [hu] at hadvances
    obtain ⟨-, ⟨hsame, -⟩ | ⟨-, hdone, -⟩⟩ := hadvances
    · exact absurd (hsame.symm.trans htd) (by simp [hd])
    · exact absurd (hdone.symm.trans htd) (by simp)
  · exact hu

/-- Settles O19: a fault comes from the acceptance or from where the operation stops; to fail takes a cause. -/
theorem faultLeavesNoPartialEffect : Obligations.FaultLeavesNoPartialEffect := by
  intro s t i hi hb hd h htd
  have hinit : i ≠ .init := by
    rintro rfl
    rw [exec_init] at h
    cases h
    cases htd
  have hcause : t.cause ≠ .none := by
    obtain ⟨hsame, -⟩ | ⟨-, -, hdone, -⟩ | ⟨-, -, hc⟩ := (exec_moves hinit h).driver
    · exact absurd (hsame.symm.trans htd) hd
    · exact absurd (hdone.symm.trans htd) (by simp)
    · exact hc
  have hdata : t.busy = false ∧ s.SameData t := by
    by_cases hg : i = .digest
    · subst hg
      obtain ⟨d, rfl⟩ | rfl | ⟨c, -, rfl⟩ := exec_digest_cases h
      · exact absurd htd hd
      · exact absurd htd hd
      · exact ⟨rfl, rfl, rfl, rfl, rfl, rfl, rfl, rfl, rfl, rfl⟩
    rw [exec_eq_commanded] at h
    rcases commanded_cases i (operation i) s with ⟨ha, hc⟩ | ⟨-, hc⟩ | ⟨c, -, hc⟩ <;> rw [hc] at h
    · obtain ⟨hrun, -⟩ := running_of_perform hinit hg ha
      have hstop := operation_eq_stop_of_failed (s := { s with busy := true }) hinit hg hrun h htd
      obtain ⟨hsame, hbusy | hdrv⟩ := operation_eq_stop hi hstop
      · exact ⟨hbusy, { hsame with }⟩
      · exact absurd (hdrv.symm.trans htd) hd
    · cases h
      exact absurd htd hd
    · cases h
      exact ⟨rfl, rfl, rfl, rfl, rfl, rfl, rfl, rfl, rfl, rfl⟩
  obtain ⟨hbusy, ⟨h1, h2, h3, h4, h5, h6, h7, h8, h9⟩⟩ := hdata
  exact ⟨hcause, hbusy, h1, h2, h3, h4, h5, h6, h7, h8, h9⟩

end Sys2Proof.Machine
end

-- ==== How a step moves the core on ====
section
/-! The core's turn and the step (10 R21, R23, R34 item 7; 70 R159), read off the commands. -/

namespace Sys2Proof.Machine

/-- A 32-bit input is its word. -/
theorem word?_eq_some {p : PortInput} {w : Word} (h : p.word? = some w) : p = ⟨32, w⟩ := by
  obtain ⟨width, bits⟩ := p
  unfold PortInput.word? at h
  split at h
  next hw =>
    cases hw
    simpa using h
  next => cases h

/-- The core takes INIT from its port. -/
def State.TakesInit (s : State) : Prop := s.busy = false ∧ s.port = some ⟨32, 0x00000001⟩

/-- What a waiting command's operations do at the ports. -/
theorem resume_reads (who : Waiter) (s : State) : (resume who s).Leaves s.Reads := by
  have hafter {folds : Prop} {t : State} {r : Flow} (ht : s.Reads t) (hr : r.Advances folds t) : r.Leaves s.Reads := by
    cases r with
    | ok u => exact reads_trans ht hr.1.toReads
    | stop u => exact reads_trans ht hr.1.toReads
    | unwritten e => trivial
  rw [resume_eq]
  refine leaves_bind (receive_reads who s) fun t ht => ?_
  cases who with
  | rdblk => exact ht
  | step => exact hafter ht (processBlock_advances t)
  | run folded => exact hafter ht (flow_advances_bind (processBlock_advances t) fun u => runLoop_advances _ true u)

/-- A waiting command reads before the terminator, under the invariant. -/
theorem resume_advances (who : Waiter) {s : State} (hpad : s.pad = .notPadded) :
    (resume who s).Advances True s := by
  rw [resume_eq]
  refine flow_advances_bind (flow_advances_imp False.elim (receive_advances who hpad)) fun t => ?_
  cases who with
  | rdblk => exact ⟨advances_of_eq rfl rfl rfl rfl, .inl ⟨rfl, rfl⟩⟩
  | step => exact processBlock_advances t
  | run folded => exact flow_advances_bind (processBlock_advances t) fun u => runLoop_advances _ true u

theorem moves_illegalWord {s : State} : s.Moves True (illegalWord s) := by
  unfold illegalWord
  split
  · exact ⟨List.suffix_rfl, List.suffix_rfl, rfl, le_rfl, fun _ => rfl, .inl ⟨rfl, rfl⟩⟩
  · exact ⟨List.suffix_rfl, List.suffix_rfl, rfl, le_rfl, fun _ => rfl, .inr (.inr ⟨‹_›, rfl, by simp⟩)⟩

/-- An input the core takes: a word that is not INIT's moves the core on. -/
theorem acceptInput_cases {p : PortInput} {s t : State} (h : acceptInput p s = .next t) :
    (p = ⟨32, 0x00000001⟩ ∧ t = complete (startComputation s)) ∨ s.Moves True t := by
  cases hw : p.word? with
  | none => rw [acceptInput_refused hw] at h; cases h
  | some w =>
    cases hd : decode w with
    | error e =>
      rw [acceptInput_illegal hw hd] at h
      cases h
      exact .inr moves_illegalWord
    | ok i =>
      rw [acceptInput_word hw hd] at h
      by_cases hi : i = .init
      · subst hi
        rw [exec_init] at h
        cases h
        have hword : w = 0x00000001 := (encode_of_decode hd).symm
        exact .inl ⟨hword ▸ word?_eq_some hw, rfl⟩
      · have hmoves := exec_moves hi h
        exact .inr { hmoves with driver := hmoves.driver.imp id (Or.imp_left fun ⟨_, hr⟩ => ⟨trivial, hr⟩) }

/-- In its turn the core takes INIT, or moves on. -/
theorem coreTurn_moves {s t : State} (hi : s.Inv) (h : coreTurn s = .next t) :
    (s.TakesInit ∧ t = complete (startComputation { s with port := none })) ∨ s.Moves True t := by
  rcases coreTurn_cases s with ⟨p, hb, hp, hc⟩ | ⟨who, hb, hw, hc⟩ | ⟨-, hc⟩ <;> rw [hc] at h
  · obtain ⟨rfl, ht⟩ | hmoves := acceptInput_cases h
    · exact .inl ⟨⟨hb, hp⟩, ht⟩
    · exact .inr { hmoves with }
  · obtain ⟨hd, -, hpad⟩ := hi.waiting_reads (by simp [hw])
    exact .inr (moves_of_advances (outcome_advances hd (resume_advances who hpad) h))
  · cases h
    exact .inr ⟨List.suffix_rfl, List.suffix_rfl, rfl, le_rfl, fun _ => rfl, .inl ⟨rfl, rfl⟩⟩

/-- In any state, the core's turn adds to what the ports have shown and takes from the front of the script. -/
theorem coreTurn_ports {s t : State} (h : coreTurn s = .next t) : s.trace <:+ t.trace ∧ t.source <:+ s.source := by
  rcases coreTurn_cases s with ⟨p, -, -, hc⟩ | ⟨who, -, -, hc⟩ | ⟨-, hc⟩ <;> rw [hc] at h
  · obtain ⟨-, rfl⟩ | hmoves := acceptInput_cases h
    · exact ⟨List.suffix_rfl, List.suffix_rfl⟩
    · exact ⟨hmoves.shown, hmoves.source⟩
  · have hreads := resume_reads who s
    have hports {u : State} (hu : s.Reads u) : s.trace <:+ u.trace ∧ u.source <:+ s.source := by
      obtain ⟨k, hk⟩ := hu.trace
      exact ⟨⟨_, hk.symm⟩, hu.source⟩
    obtain ⟨u, hr, rfl⟩ | hr := flow_outcome_eq_next.1 h <;> rw [hr] at hreads
    · exact hports (u := u) hreads
    · exact hports hreads
  · cases h
    exact ⟨List.suffix_rfl, List.suffix_rfl⟩

/-! ## A reset in the middle of an action -/

/-- At the end of a list, what is between two ends of it. -/
theorem suffix_drop {α : Type} {l m : List α} (h : l <:+ m) (n : Nat) : l <:+ m.drop (m.length - l.length - n) := by
  obtain ⟨pre, rfl⟩ := h
  have hle : (pre ++ l).length - l.length - n ≤ pre.length := by simp
  rw [List.drop_append_of_le_length hle]
  exact List.suffix_append ..

/-- The trace of an abandoned action lies between that before it and that of the whole action. -/
theorem abandonAt_trace {m : Nat} {s t : State} (h : s.trace <:+ t.trace) :
    s.trace <:+ (abandonAt m s t).trace ∧ (abandonAt m s t).trace <:+ t.trace :=
  ⟨suffix_drop h _, List.drop_suffix ..⟩

theorem answerCount_append (l m : List SourceEvent) : answerCount (l ++ m) = answerCount l + answerCount m :=
  List.countP_append

theorem answerCount_answer (a : Answer) (l : List SourceEvent) : answerCount (.answer a :: l) = answerCount l + 1 :=
  List.countP_cons_of_pos rfl

theorem answerCount_delay (l : List SourceEvent) : answerCount (.delay :: l) = answerCount l :=
  List.countP_cons_of_neg (by simp)

theorem answerCount_late (a : Answer) (l : List SourceEvent) : answerCount (.late a :: l) = answerCount l :=
  List.countP_cons_of_neg (by simp)

/-- As long as the answers dropped are some of the script's front, its end stays. -/
theorem suffix_dropAnswers (m : List SourceEvent) :
    ∀ (l : List SourceEvent) (n : Nat), n ≤ answerCount l → m <:+ dropAnswers (l ++ m) n
  | [], n, h => by
    obtain rfl : n = 0 := Nat.le_zero.1 h
    cases m <;> exact List.suffix_rfl
  | e :: l, 0, _ => List.suffix_append (e :: l) m
  | .answer a :: l, n + 1, h => by
    exact suffix_dropAnswers m l n (by rw [answerCount_answer] at h; omega)
  | .delay :: l, n + 1, h => by
    exact suffix_dropAnswers m l (n + 1) (by rwa [answerCount_delay] at h)
  | .late a :: l, n + 1, h => by
    exact suffix_dropAnswers m l (n + 1) (by rwa [answerCount_late] at h)

/-- The script of an abandoned action lies between that before it and that of the whole action. -/
theorem abandonAt_source {m : Nat} {s t : State} (h : t.source <:+ s.source) :
    (abandonAt m s t).source <:+ s.source ∧ t.source <:+ (abandonAt m s t).source := by
  refine ⟨dropAnswers_suffix .., ?_⟩
  obtain ⟨taken, htaken⟩ := h
  have hcount : answersTaken m s t ≤ answerCount taken := by
    rw [answersTaken, ← htaken, answerCount_append, Nat.add_sub_cancel]
    exact Nat.min_le_right ..
  have hsuffix := suffix_dropAnswers t.source taken _ hcount
  rwa [htaken] at hsuffix

@[simp] theorem dropAnswers_zero (l : List SourceEvent) : dropAnswers l 0 = l := by
  cases l <;> rfl

/-- At moment 0 of a command just taken, nothing has been shown or taken. -/
theorem abandonAt_zero {s t : State} (hw : s.waiting = none) (h : s.trace <:+ t.trace) :
    (abandonAt 0 s t).trace = s.trace ∧ (abandonAt 0 s t).source = s.source := by
  obtain ⟨pre, hpre⟩ := h
  refine ⟨?_, ?_⟩
  · rw [abandonAt, hardReset_trace, ← hpre]
    simp [eventsShown, outstanding, hw]
  · rw [abandonAt, hardReset_source]
    simp [answersTaken, outstanding, hw]

theorem showWords_nil (s : State) : showWords [] s = s := rfl

/-- An action that a reset cuts short, with no read before it. -/
theorem step_resetDuring {s t : State} {m : Nat} {rest : List HostMove} (ha : s.active = true)
    (hh : s.host = .resetDuring m :: rest) (h : coreTurn { s with host := rest } = .next t) :
    step s = .next (abandonAt m s t) := by
  have hcycle : step s = interleaved s := by simp [step, cycle, hh, ha]
  rw [hcycle, interleaved]
  simp [hh, duringAction, h, wordsDuring, showWords_nil]

/-- Settles O8: the step is `abandonAt`, a reset whose ports lie between those before and after the whole action. -/
theorem resetInTheMiddleAbandonsTheCommand : Obligations.ResetInTheMiddleAbandonsTheCommand := by
  intro s t m rest ha hh h
  have turn : coreTurn { s with host := rest } = .next t := h
  obtain ⟨htrace, hsource⟩ := coreTurn_ports turn
  obtain ⟨htrace₁, htrace₂⟩ := abandonAt_trace (m := m) (s := s) htrace
  obtain ⟨hsource₁, hsource₂⟩ := abandonAt_source (m := m) (s := s) hsource
  have hhost : t.host = rest := by
    rcases coreTurn_cases { s with host := rest } with ⟨p, -, -, hc⟩ | ⟨who, -, -, hc⟩ | ⟨-, hc⟩ <;> rw [hc] at turn
    · exact congrArg (·.2.2) (acceptInput_outside turn)
    · exact congrArg (·.2.2) (outside_of_outcome (resume_keepsOutside who _) turn)
    · cases turn; rfl
  have hpolicy : t.policy = s.policy := coreTurn_policy (s := { s with host := rest }) turn
  refine ⟨_, step_resetDuring ha hh turn, rfl, rfl, rfl, rfl, rfl, rfl, rfl, rfl, rfl, rfl, rfl, rfl,
    hardReset_statusWord _, result_eq_none (.inr (.inl rfl)), hpolicy, rfl, hhost, htrace₁, htrace₂,
    hsource₁, hsource₂, ?_⟩
  rintro rfl hw
  exact abandonAt_zero hw htrace

/-! ## The step -/

/-- The host asserts reset, before or in the middle of the core's next action. -/
def State.ResetComes (s : State) : Prop :=
  (∃ rest, s.host = .reset :: rest) ∨ (duringAction s.host).reset ≠ none

/-- The core takes INIT, or moves `pad` and the driver on. -/
def State.GoesOn (s t : State) : Prop :=
  (s.TakesInit ∧ t.drv = .running ∧ t.cause = .none) ∨
    (s.pad.code.toNat ≤ t.pad.code.toNat ∧ s.DriverMoves True t)

theorem goesOn_refl (s : State) : s.GoesOn s := .inr ⟨le_rfl, .inl ⟨rfl, rfl⟩⟩

theorem coreTurn_goesOn {s t : State} (hi : s.Inv) (h : coreTurn s = .next t) :
    s.GoesOn t ∧ (s.pad ≠ .notPadded → t.requests = s.requests) := by
  obtain ⟨hinit, rfl⟩ | hmoves := coreTurn_moves hi h
  · exact ⟨.inl ⟨hinit, rfl, rfl⟩, fun _ => rfl⟩
  · exact ⟨.inr ⟨hmoves.pad, hmoves.driver⟩, hmoves.requests⟩

/-- What a step does: it serves a reset, or goes on, and after the terminator it issues no request. -/
def State.Follows (s t : State) : Prop :=
  ((s.ResetComes ∧ t.drv = .uninit ∧ t.cause = .none) ∨ s.GoesOn t) ∧
    (s.pad ≠ .notPadded → t.requests = s.requests)

theorem showWords_requests (words : List Word) (s : State) : (showWords words s).requests = s.requests := by
  have hnone : (words.map PortEvent.status).count .readRequest = 0 := by simp [List.count_eq_zero]
  rw [State.requests, showWords_trace, List.count_append, hnone, Nat.zero_add, State.requests]

theorem readStatus_requests (s : State) : (readStatus s).requests = s.requests := by
  simp [State.requests]

/-- What an abandoned action has shown counts no more requests than the whole action. -/
theorem abandonAt_requests {m : Nat} {s t : State} (h : s.trace <:+ t.trace) (hr : t.requests = s.requests) :
    (abandonAt m s t).requests = s.requests := by
  obtain ⟨hlow, hhigh⟩ := abandonAt_trace (m := m) h
  exact le_antisymm ((hhigh.sublist.count_le _).trans_eq hr) (hlow.sublist.count_le _)

theorem interleaved_follows {s t : State} (hi : s.Inv) (h : interleaved s = .next t) : s.Follows t := by
  rcases interleaved_cases s with ⟨u, hu, hc⟩ | ⟨hno, hc⟩ <;> rw [hc] at h
  · obtain ⟨hgoes, hreq⟩ := coreTurn_goesOn (inv_withHost hi _) hu
    obtain ⟨htrace, -⟩ := coreTurn_ports hu
    cases h
    refine ⟨?_, fun hp => (showWords_requests ..).trans ?_⟩
    · cases hreset : (duringAction s.host).reset with
      | some m => exact .inl ⟨.inr (by simp [hreset]), rfl, rfl⟩
      | none => exact .inr hgoes
    · cases (duringAction s.host).reset with
      | none => exact hreq hp
      | some m => exact abandonAt_requests htrace (hreq hp)
  · exact absurd h (hno t)

/-- Every step from a state that meets the invariant. -/
theorem step_follows {s t : State} (hi : s.Inv) (h : step s = .next t) : s.Follows t := by
  unfold step at h
  rcases cycle_cases s with ⟨rest, hh, hc⟩ | ⟨rest, -, hc⟩ | ⟨p, rest, -, -, hc⟩ | ⟨rest, -, hc⟩ | ⟨-, -, hc⟩ |
    ⟨-, rest, -, hc⟩ | ⟨-, m, rest, hh, hc⟩ | ⟨-, hc⟩ <;> rw [hc] at h
  · cases h
    exact ⟨.inl ⟨.inl ⟨rest, hh⟩, rfl, rfl⟩, fun _ => rfl⟩
  · cases h
    exact ⟨.inr (goesOn_refl s), fun _ => readStatus_requests { s with host := rest }⟩
  · cases h
    exact ⟨.inr (goesOn_refl s), fun _ => rfl⟩
  · obtain ⟨hgoes, hreq⟩ := coreTurn_goesOn (inv_withHost hi rest) h
    exact ⟨.inr hgoes, hreq⟩
  · exact interleaved_follows hi h
  · cases h
    exact ⟨.inr (goesOn_refl s), fun _ => readStatus_requests { s with host := rest }⟩
  · cases h
    exact ⟨.inl ⟨.inr (by simp [hh, duringAction]), rfl, rfl⟩, fun _ => rfl⟩
  · obtain ⟨hgoes, hreq⟩ := coreTurn_goesOn hi h
    exact ⟨.inr hgoes, hreq⟩

/-! ## The obligations -/

/-- Settles O51: INIT shows nothing, the other commands keep to R34 item 7, and so does a step. -/
theorem noReadRequestAfterTheTerminator : Obligations.NoReadRequestAfterTheTerminator := by
  refine fun s t hp => ⟨fun i h => ?_, fun hi h => (step_follows hi h).2 hp⟩
  by_cases hinit : i = .init
  · subst hinit
    rw [exec_init] at h
    cases h
    rfl
  · exact (exec_moves hinit h).requests hp

/-- Settles O52: every command but INIT moves `pad` on, and so does a step that neither resets nor takes INIT. -/
theorem padOnlyAdvances : Obligations.PadOnlyAdvances := by
  refine fun s t => ⟨fun i hi h => (exec_moves hi h).pad, fun i => exec_keeps_pad, fun hi hreset hduring hinit h => ?_⟩
  obtain ⟨⟨hcomes, -⟩ | ⟨⟨hb, hp⟩, -⟩ | ⟨hpad, -⟩, -⟩ := step_follows hi h
  · obtain ⟨rest, hh⟩ | hsome := hcomes
    · exact absurd hh (hreset rest)
    · exact absurd hduring hsome
  · obtain hbusy | hport := hinit
    · exact absurd hb (by simp [hbusy])
    · exact absurd hp hport
  · exact hpad

/-- Settles O53: the moves of the driver, of a command and of a step. -/
theorem driverStateChangesOnlyAsListed : Obligations.DriverStateChangesOnlyAsListed := by
  refine ⟨fun s t i h => ?_, fun s t hi h => ?_⟩
  · by_cases hinit : i = .init
    · subst hinit
      rw [exec_init] at h
      cases h
      exact .inl ⟨rfl, rfl, rfl⟩
    · obtain ⟨hd, hc⟩ | ⟨hf, hrun, hd, hp, hc⟩ | ⟨hnot, hd, hc⟩ := (exec_moves hinit h).driver
      · exact .inr (.inl ⟨hinit, hd, hc⟩)
      · exact .inr (.inr (.inl ⟨hf, hrun, hd, hp, hc⟩))
      · exact .inr (.inr (.inr ⟨hinit, hnot, hd, hc⟩))
  · obtain ⟨hreset | ⟨⟨hb, hp⟩, hd, hc⟩ | ⟨-, hmoves⟩, -⟩ := step_follows hi h
    · exact .inr (.inr (.inr (.inr hreset)))
    · exact .inr (.inl ⟨hb, hp, hd, hc⟩)
    · obtain hsame | ⟨-, hfin⟩ | hfail := hmoves
      · exact .inl hsame
      · exact .inr (.inr (.inl hfin))
      · exact .inr (.inr (.inr (.inl hfail)))

end Sys2Proof.Machine
end

-- ==== Status reads in the middle of an action ====
section
/-! What a status read shows within an action of the core, and that it changes nothing else (20 R51, 70 R167), also
where a reset then cuts the action short (70 R159). -/

namespace Sys2Proof.Machine

/-! ## The word such a read shows -/

theorem pickHeld_mem {α : Type} (n field : Nat) (first : α) (others : List α) :
    pickHeld n field first others ∈ first :: others := by
  have hlt : Config.heldPick n field % (others.length + 1) < (first :: others).length := by
    simpa using Nat.mod_lt _ (Nat.succ_pos _)
  rw [pickHeld, List.getD_eq_getElem _ _ hlt]
  exact List.getElem_mem hlt

/-- A field that held one value shows it. -/
theorem pickHeld_self {α : Type} (n field : Nat) (x : α) : pickHeld n field x [x] = x := by
  simpa using pickHeld_mem n field x [x]

/-- The word has `BUSY` 1 and zero in its reserved bits, and each other field is one of those held from `s` to `t`; in
between, where a block was `compressed`, those of a block. -/
def ShownBetween (compressed : Bool) (s t : State) (w : Word) : Prop :=
  w.getLsbD 13 = true ∧ w.extractLsb' 14 2 = 0 ∧ w.extractLsb' 20 12 = 0 ∧
    w.extractLsb' 0 2 ∈ [s.drv.code, t.drv.code] ∧ w.extractLsb' 16 4 ∈ [s.cause.code, t.cause.code] ∧
    w.extractLsb' 2 2 ∈ (s.pad :: padsBetween s.pad t.pad).map PadState.code ∧
    w.extractLsb' 4 2 ∈ (s.phase :: phasesBetween compressed s.phase t.phase).map Phase.code ∧
    (if compressed then (w.extractLsb' 6 7).toNat ≤ 64 else (w.extractLsb' 6 7).toNat ∈ [s.rnd.val, t.rnd.val])

theorem statusDuring_shownBetween (n : Nat) (compressed : Bool) (s t : State) :
    ShownBetween compressed s t (statusDuring n compressed s t) := by
  refine ⟨packStatus_busy .., packStatus_reserved_low .., packStatus_reserved_high .., ?_, ?_, ?_, ?_, ?_⟩
  · exact (packStatus_drv ..).symm ▸ List.mem_map_of_mem (f := Driver.code) (pickHeld_mem n 0 s.drv [t.drv])
  · exact (packStatus_cause ..).symm ▸ List.mem_map_of_mem (f := Cause.code) (pickHeld_mem n 4 s.cause [t.cause])
  · exact (packStatus_pad ..).symm ▸ List.mem_map_of_mem (pickHeld_mem ..)
  · exact (packStatus_phase ..).symm ▸ List.mem_map_of_mem (pickHeld_mem ..)
  · rw [statusDuring, packStatus_rnd, rnd_toNat]
    cases compressed with
    | true => exact Nat.le_of_lt_succ (Fin.isLt _)
    | false => exact List.mem_map_of_mem (f := Fin.val) (pickHeld_mem n 3 s.rnd [t.rnd])

theorem shownBetween_of_mem {k : Nat} {s t : State} {w : Word} (h : w ∈ wordsDuring k s t) :
    ShownBetween (actionCompressed s t) s t w := by
  obtain ⟨n, rfl⟩ := mem_wordsDuring h
  exact statusDuring_shownBetween ..

theorem padsBetween_self (p : PadState) : padsBetween p p = [p] := by
  cases p <;> rfl

/-- In an action that changes no field, the word is the status word with `BUSY` 1. -/
theorem statusDuring_unchanged {s t : State} (n : Nat) (hd : t.drv = s.drv) (hp : t.pad = s.pad)
    (hph : t.phase = s.phase) (hr : t.rnd = s.rnd) (hc : t.cause = s.cause) :
    statusDuring n false s t = ({ s with busy := true } : State).statusWord := by
  simp [statusDuring, hd, hp, hph, hr, hc, padsBetween_self, phasesBetween, pickHeld_self, State.statusWord]

/-! ## The step with the reads in it -/

/-- Reads in the middle of an action: the action, cut short or whole, with their words shown after it. -/
theorem step_reads {s t : State} {k : Nat} {moves : List HostMove} {reset : Option Nat} {rest : List HostMove}
    (ha : s.active = true) (hk : 1 ≤ k) (hh : s.host = List.replicate k .readDuring ++ moves)
    (hmoves : duringAction moves = ⟨0, reset, rest⟩) (h : coreTurn { s with host := rest } = .next t) :
    step s = .next (showWords (wordsDuring k s (lastHeld reset s t)) (cutShort reset s t)) := by
  obtain ⟨k, rfl⟩ := Nat.exists_eq_add_of_le' hk
  have hcycle : step s = interleaved s := by
    simp [step, cycle, hh, List.replicate_succ, ha]
  have hduring : duringAction s.host = ⟨k + 1, reset, rest⟩ := by
    rw [hh, duringAction_reads, hmoves, Nat.zero_add]
  rw [hcycle, interleaved]
  simp only [hduring, h]

/-- The moves after the reads that fall outside the action. -/
theorem duringAction_of_not_during {moves : List HostMove} (hread : ∀ r, moves ≠ .readDuring :: r)
    (hreset : ∀ m r, moves ≠ .resetDuring m :: r) : duringAction moves = ⟨0, none, moves⟩ := by
  match moves with
  | [] => rfl
  | .readDuring :: r => exact absurd rfl (hread r)
  | .resetDuring m :: r => exact absurd rfl (hreset m r)
  | .issue p :: r => rfl
  | .readStatus :: r => rfl
  | .reset :: r => rfl
  | .pause :: r => rfl

/-- The action that takes a command's word is the command's. -/
theorem actionCompressed_of_command {s t : State} {w : Word} {i : Instr} (hb : s.busy = false)
    (hp : s.port = some ⟨32, w⟩) (hi : decode w = .ok i) : actionCompressed s t = compressedBlock i s t := by
  simp [actionCompressed, hb, hp, PortInput.word?, hi]

/-- A command that is not COMPRESS, STEP or RUN compresses no block. -/
theorem compressedBlock_eq_false {i : Instr} (s t : State) (hi : i ∉ [Instr.compress, .step, .run]) :
    compressedBlock i s t = false := by
  cases i with
  | compress | step | run => exact absurd (by decide) hi
  | init | rdblk | expand | cinit | round | fold | digest => rfl

/-- Settles O6: the step is the action with the words shown after it, and each word is of values held. -/
theorem readsDuringAnActionHaveNoSideEffect : Obligations.ReadsDuringAnActionHaveNoSideEffect := by
  intro s t k rest ha hk hh hread hreset h
  refine ⟨⟨wordsDuring k s t, wordsDuring_length .., ?_, fun w hw => shownBetween_of_mem hw⟩, ?_⟩
  · rw [step_reads ha hk hh (duringAction_of_not_during hread hreset) h]
    simp [showWords]
  · intro w i hb hp hi hnot
    rw [actionCompressed_of_command hb hp hi, compressedBlock_eq_false s t hnot]

/-! ## Reads before a reset -/

/-- The core's turn with the answers that the action from `s` to `t` has taken at moment `m`. -/
def actionUntil (m : Nat) (s t : State) : Host.Outcome State Fault Refusal :=
  coreTurn { s with host := [], source := takeAnswers s.source (answersTaken m s t) }

theorem lastHeld_cases (m : Nat) (s t : State) :
    (∃ u, lastHeld (some m) s t = beforeFault s u) ∨ lastHeld (some m) s t = s := by
  simp only [lastHeld]
  cases coreTurn { s with host := [], source := takeAnswers s.source (answersTaken m s t) } with
  | next u => exact .inl ⟨u, rfl⟩
  | fault f => exact .inr rfl
  | refused q => exact .inr rfl

/-- No fault of an abandoned command is held. -/
theorem lastHeld_not_failed {m : Nat} {s t : State} (hd : s.drv ≠ .failed) : (lastHeld (some m) s t).drv ≠ .failed := by
  obtain ⟨u, hu⟩ | hs := lastHeld_cases m s t
  · rw [hu]
    obtain ⟨-, hu⟩ | ⟨hnot, hu⟩ := beforeFault_cases s u <;> rw [hu]
    · exact hd
    · exact hnot
  · rwa [hs]

/-- What is held last is where the action with the answers taken by then has come, but for a fault. -/
theorem lastHeld_of_actionUntil {m : Nat} {s t c : State} (h : actionUntil m s t = .next c) :
    let e := lastHeld (some m) s t
    e.pad = c.pad ∧ e.phase = c.phase ∧ e.rnd = c.rnd ∧ (c.drv ≠ .failed → e.drv = c.drv ∧ e.cause = c.cause) := by
  intro e
  have he : e = beforeFault s c := lastHeld_some h
  obtain ⟨hd, hc⟩ | ⟨-, hc⟩ := beforeFault_cases s c <;> rw [he, hc]
  · exact ⟨rfl, rfl, rfl, fun hnot => absurd hd hnot⟩
  · exact ⟨rfl, rfl, rfl, fun _ => ⟨rfl, rfl⟩⟩

theorem takeAnswers_zero (l : List SourceEvent) : takeAnswers l 0 = [] := by
  simp [takeAnswers]

/-- Before its first answer a command that reads is held where it waits. -/
theorem lastHeld_before_answer {s t : State} {m : Nat} {w : Word} {i : Instr} {who : Waiter} (hb : s.busy = false)
    (hw : s.waiting = none) (hp : s.port = some ⟨32, w⟩) (hi : decode w = .ok i) (hwho : (i, who) ∈ readers)
    (hd : s.drv = .running) (hph : s.phase = .idle) (hpad : s.pad = .notPadded) (hm : m ≤ 1) :
    lastHeld (some m) s t = awaiting who [] { s with host := [], port := none } := by
  have htaken : answersTaken m s t = 0 := by
    simp [answersTaken, outstanding, hw, hm]
  have hturn : coreTurn { s with host := [], source := takeAnswers s.source (answersTaken m s t) } =
      .next (awaiting who [] { s with host := [], port := none }) := by
    rw [htaken, takeAnswers_zero, coreTurn_command (s := { s with host := [], source := [] }) hb hp hi,
      exec_reader_wait (s := { s with host := [], port := none, source := [] }) hwho hd hph hpad rfl]
    rfl
  rw [lastHeld_some hturn, beforeFault, if_neg (by simp [awaiting, hd])]

/-- A command that waits for its first answer has compressed no block. -/
theorem compressedBlock_awaiting {i : Instr} {who : Waiter} {s t : State} (hwho : (i, who) ∈ readers)
    (hd : s.drv = .running) (ht : t.drv = s.drv) (hb : t.busy = true) (hr : t.received = s.received) :
    compressedBlock i s t = false := by
  simp only [readers, List.mem_cons, Prod.mk.injEq, List.not_mem_nil, or_false] at hwho
  rcases hwho with ⟨rfl, -⟩ | ⟨rfl, -⟩ | ⟨rfl, -⟩
  · rfl
  · simp [compressedBlock, hb]
  · simp [compressedBlock, ht, hd, hr]

/-- Settles O7: the words are of values held up to `lastHeld`; before the first answer that is the wait. -/
theorem readsBeforeAResetShowTheAbandonedCommand : Obligations.ReadsBeforeAResetShowTheAbandonedCommand := by
  intro s t k m rest ha hk hh h e
  have turn : coreTurn { s with host := rest } = .next t := h
  refine ⟨⟨abandonAt m s t, wordsDuring k s e, ?_, wordsDuring_length .., ?_, fun w hw => shownBetween_of_mem hw, ?_⟩,
    lastHeld_not_failed, fun c hc => lastHeld_of_actionUntil hc⟩
  · exact step_resetDuring (s := { s with host := .resetDuring m :: rest }) ha rfl turn
  · rw [step_reads ha hk hh rfl turn]
    simp [showWords, e]
  · intro w i hb hw hp hi hreader hd hph hpad hm v hv
    obtain ⟨who, hwho⟩ := exists_waiter hreader
    have he : e = awaiting who [] { s with host := [], port := none } :=
      lastHeld_before_answer hb hw hp hi hwho hd hph hpad hm
    obtain ⟨n, rfl⟩ := mem_wordsDuring hv
    have hnone : actionCompressed s e = false := by
      rw [actionCompressed_of_command hb hp hi, he]
      exact compressedBlock_awaiting hwho hd rfl rfl rfl
    rw [hnone, he]
    exact statusDuring_unchanged n rfl rfl rfl rfl rfl

end Sys2Proof.Machine
end

-- ==== The assembler and the listing ====
section
/-! The lines of a command program, their commands, and the listing form of a word (30 R67, R68, R69). -/

namespace Sys2Proof.Machine

/-! ## A line -/

/-- A line is read up to its comment. -/
theorem parseLine_comment (line comment : List Char) (h : ∀ c ∈ line, c ≠ ';') :
    parseLine (line ++ ';' :: comment) = parseLine line := by
  have hline : (line ++ ';' :: comment).takeWhile (· != ';') = line.takeWhile (· != ';') := by
    rw [List.takeWhile_append_of_pos (by simpa using h), List.takeWhile_cons_of_neg (by simp), List.append_nil,
      List.takeWhile_eq_self_iff.2 (by simpa using h)]
  simp only [parseLine, lineWords, hline]

theorem parseLine_mnemonic (i : Instr) : parseLine (instrMnemonic i) = .ok (.instr i) := by
  cases i <;> decide

theorem parseLine_mnemonic_lower (i : Instr) :
    parseLine ((instrMnemonic i).map Char.toLower) = .ok (.instr i) := by
  cases i <;> decide

theorem mnemonic_no_comment (i : Instr) : ∀ c ∈ instrMnemonic i, c ≠ ';' := by
  cases i <;> simp [instrMnemonic]

/-- The names of the ten commands as texts (30 R59). -/
theorem mnemonic_of_mem {m : String × Instr}
    (hm : m ∈ [("INIT", Instr.init), ("RDBLK", .rdblk), ("EXPAND", .expand), ("CINIT", .cinit), ("ROUND", .round),
      ("FOLD", .fold), ("COMPRESS", .compress), ("STEP", .step), ("RUN", .run), ("DIGEST", .digest)]) :
    m.1.toList = instrMnemonic m.2 := by
  revert m
  decide

/-- A decimal number is made of digits, at least one. -/
theorem digits_of_decimal {ds : List Char} {n : Nat} (h : decimal ds = some n) :
    ds ≠ [] ∧ ∀ c ∈ ds, 48 ≤ c.toNat ∧ c.toNat ≤ 57 := by
  unfold decimal at h
  split at h
  next hds => simpa using hds
  next => cases h

/-- A text without blanks is one word. -/
theorem foldr_wordsStep_of_no_blank (ds : List Char) (h : ∀ c ∈ ds, isBlank c = false) :
    ds.foldr wordsStep ([], []) = (ds, []) := by
  induction ds with
  | nil => rfl
  | cons c ds ih =>
    obtain ⟨hc, hds⟩ := List.forall_mem_cons.1 h
    simp [ih hds, wordsStep, hc]

/-- A digit is no blank and begins no comment. -/
theorem digit_ne {c : Char} (h : 48 ≤ c.toNat ∧ c.toNat ≤ 57) : isBlank c = false ∧ c ≠ ';' := by
  have hne {d : Char} (hd : d.toNat < 48 ∨ 57 < d.toNat) : c ≠ d := by
    rintro rfl
    omega
  refine ⟨?_, hne (by decide)⟩
  simp [isBlank, hne (d := ' ') (by decide), hne (d := '\t') (by decide), hne (d := '\r') (by decide)]

/-- The words of a `ROUNDS` line. -/
theorem lineWords_rounds {ds : List Char} {n : Nat} (h : decimal ds = some n) :
    lineWords ("ROUNDS ".toList ++ ds) = [roundsMnemonic, ds] := by
  obtain ⟨hne, hdigits⟩ := digits_of_decimal h
  have hline : ("ROUNDS ".toList ++ ds).takeWhile (· != ';') = "ROUNDS ".toList ++ ds := by
    rw [List.takeWhile_eq_self_iff]
    intro c hc
    have hmnemonic : ∀ c ∈ "ROUNDS ".toList, (c != ';') = true := by simp
    obtain hc | hc := List.mem_append.1 hc
    · exact hmnemonic c hc
    · simpa using (digit_ne (hdigits c hc)).2
  have hword : ds.foldr wordsStep ([], []) = (ds, []) :=
    foldr_wordsStep_of_no_blank ds fun c hc => (digit_ne (hdigits c hc)).1
  simp only [lineWords, hline, List.foldr_append, hword]
  simp [wordsStep, isBlank, roundsMnemonic, hne]

theorem parseLine_rounds {ds : List Char} {n : Nat} (h : decimal ds = some n) :
    parseLine ("ROUNDS ".toList ++ ds) =
      if 1 ≤ n ∧ n ≤ 64 then .ok (.rounds n) else .error .roundsRange := by
  have hupper : roundsMnemonic.map upper = roundsMnemonic := by decide
  simp only [parseLine, lineWords_rounds h, hupper, if_true, h, AsmLine.wellFormed, decide_eq_true_eq]

/-! ## A program -/

/-- A line that parses is well formed: only `ROUNDS` has a condition, and its number was checked (30 R68). -/
theorem wellFormed_of_parseLine {line : List Char} {l : AsmLine} (h : parseLine line = .ok l) :
    l.wellFormed = true := by
  unfold parseLine at h
  split at h
  · cases h; rfl
  · simp only at h
    split at h
    · split at h
      · split at h
        · split at h
          · cases h; assumption
          · cases h
        · cases h
      · cases h
    · split at h
      · split at h
        · cases h; rfl
        · cases h
      · split at h
        · split at h
          · cases h; rfl
          · cases h
        · cases h

/-- A program that assembles is the commands of its lines, one after the other. -/
theorem assembleLines_eq_ok {lines : List (List Char)} :
    ∀ {program : List Instr}, assembleLines lines = .ok program →
      ∃ parsed : List AsmLine, lines.map parseLine = parsed.map .ok ∧ (∀ l ∈ parsed, l.wellFormed = true) ∧
        program = parsed.flatMap lineCommands := by
  induction lines with
  | nil =>
    intro program h
    cases h
    exact ⟨[], rfl, by simp, rfl⟩
  | cons line lines ih =>
    intro program h
    unfold assembleLines at h
    split at h
    next => cases h
    next l hl =>
      split at h
      next => cases h
      next is his =>
        cases h
        obtain ⟨parsed, hparsed, hwf, rfl⟩ := ih his
        refine ⟨l :: parsed, by simp [hl, hparsed], ?_, by simp⟩
        exact List.forall_mem_cons.2 ⟨wellFormed_of_parseLine hl, hwf⟩

/-! ## The listing -/

/-- A digit of the listing is the digit of its value. -/
theorem hexDigit_upper {n : Nat} (h : n < 16) : some (hexDigit 65 n) = "0123456789ABCDEF".toList[n]? := by
  revert n
  decide

theorem listingWord_digit (w : Word) {k : Nat} (hk : k < 8) :
    (listingWord w)[2 + k]? = "0123456789ABCDEF".toList[(w.extractLsb' (28 - 4 * k) 4).toNat]? := by
  rw [← hexDigit_upper (BitVec.isLt _), Nat.add_comm]
  simp [listingWord, hk]

/-- Settles O4: each mnemonic is read as its command; a program is taken apart by lines, a listing by digits. -/
theorem assembledWordsAreTheLinesCommands : Obligations.AssembledWordsAreTheLinesCommands := by
  refine ⟨fun m hm => ?_, fun _ => rfl, by decide, rfl, fun ds n => parseLine_rounds, fun _ => rfl, by decide, rfl,
    fun w => ⟨by simp [listingWord], rfl, fun k => listingWord_digit w⟩, fun lines program h => ?_⟩
  · rw [mnemonic_of_mem hm]
    exact ⟨parseLine_mnemonic m.2, parseLine_mnemonic_lower m.2,
      fun comment => (parseLine_comment _ comment (mnemonic_no_comment m.2)).trans (parseLine_mnemonic m.2)⟩
  · refine ⟨assembleLines_eq_ok h, ?_⟩
    rw [List.map_map]
    exact List.map_congr_left fun i _ => decode_encode i

end Sys2Proof.Machine
end

-- ==== The padded message ====
section
/-! The blocks of a message padded by its closed form (00 R13, 41 R96) are those the reader stores (41 R89..R93). -/

namespace Sys2Proof.Machine

/-- The message with its padding. -/
def padded (msg : List Byte) : List Byte := msg ++ padding msg.length

/-- The zero bytes between the terminator and the length. -/
def zeroCount (len : Nat) : Nat := (119 - len % 64) % 64

theorem zeroCount_short {len : Nat} (h : len % 64 ≤ 55) : zeroCount len = 55 - len % 64 := by
  rw [zeroCount]
  omega

theorem zeroCount_long {len : Nat} (h : 56 ≤ len % 64) : zeroCount len = 119 - len % 64 := by
  rw [zeroCount]
  omega

theorem padded_length (msg : List Byte) : (padded msg).length = msg.length + zeroCount msg.length + 9 := by
  simp [padded, padding, zeroCount]
  omega

theorem padding_eq (len : Nat) : padding len =
    0x80 :: (List.replicate (zeroCount len) 0x00 ++ (List.range 8).map (be64Byte (BitVec.ofNat 64 (8 * len)))) := rfl

/-- R13: the terminator, the zeros after it, and the length in the last 8 bytes. -/
theorem padding_getD {len k : Nat} (hk : k < zeroCount len + 9) : (padding len).getD k 0 =
    if k = 0 then 0x80
    else if k ≤ zeroCount len then 0x00
    else be64Byte (BitVec.ofNat 64 (8 * len)) (k - (zeroCount len + 1)) := by
  rw [padding_eq]
  cases k with
  | zero => rfl
  | succ k =>
    rw [List.getD_cons_succ, if_neg (Nat.succ_ne_zero k)]
    by_cases hzero : k < zeroCount len
    · rw [List.getD_append _ _ _ _ (by simpa using hzero), if_pos (by omega)]
      simp [List.getD_eq_getElem?_getD, hzero]
    · have hlength : k - zeroCount len < 8 := by omega
      rw [List.getD_append_right _ _ _ _ (by simpa using hzero), if_neg (by omega)]
      simp [List.getD_eq_getElem?_getD, hlength]

theorem padded_getD (msg : List Byte) (i : Nat) : (padded msg).getD i 0 =
    if i < msg.length then msg.getD i 0 else (padding msg.length).getD (i - msg.length) 0 := by
  rw [padded]
  split
  · exact List.getD_append _ _ _ _ ‹_›
  · exact List.getD_append_right _ _ _ _ (by omega)

theorem blockAt_getElem (p : List Byte) (q : Nat) (i : Fin 64) : (blockAt p q)[i] = p.getD (64 * q + i.val) 0 := by
  simp [blockAt]

/-- The bytes an answer delivers are those of its chunk. -/
theorem lane_getElem {n : Fin 65} {lane : Block} {l tail : List Byte} (h : l = rawBytes n lane ++ tail) {i : Fin 64}
    (hi : i.val < n.val) : lane[i] = l.getD i.val 0 := by
  rw [h, List.getD_append _ _ _ _ (by rw [rawBytes_length]; exact hi)]
  simp [rawBytes, List.getD_eq_getElem?_getD, hi]

/-- A chunk's bytes in the message. -/
theorem lane_eq_message {msg tail : List Byte} {q : Nat} {n : Fin 65} {lane : Block}
    (h : msg.drop (64 * q) = rawBytes n lane ++ tail) {i : Fin 64} (hi : i.val < n.val) :
    lane[i] = msg.getD (64 * q + i.val) 0 := by
  rw [lane_getElem h hi, List.getD_eq_getElem?_getD, List.getElem?_drop, List.getD_eq_getElem?_getD]

/-- R97: a chunk lies within the message, and the short one ends it. -/
theorem length_of_drop_eq {msg tail : List Byte} {q : Nat} {n : Fin 65} {lane : Block} (hq : 64 * q ≤ msg.length)
    (h : msg.drop (64 * q) = rawBytes n lane ++ tail) : msg.length = 64 * q + n.val + tail.length := by
  have hlen := congrArg List.length h
  rw [List.length_drop, List.length_append, rawBytes_length] at hlen
  omega

/-- A full chunk is a block of the padded message (41 R89). -/
theorem lane_eq_blockAt {msg tail : List Byte} {q : Nat} {lane : Block} (hq : 64 * q ≤ msg.length)
    (h : msg.drop (64 * q) = rawBytes 64 lane ++ tail) : lane = blockAt (padded msg) q := by
  have hlen := length_of_drop_eq hq h
  refine Vector.ext fun i hi => ?_
  have hplace : 64 * q + i < msg.length := by simp at hlen; omega
  have hblock := blockAt_getElem (padded msg) q ⟨i, hi⟩
  have hlane := lane_eq_message (i := ⟨i, hi⟩) h hi
  rw [padded_getD, if_pos hplace] at hblock
  exact hlane.trans hblock.symm

/-- The bytes of the padded message after its end. -/
theorem padded_getD_after (msg : List Byte) (k : Nat) :
    (padded msg).getD (msg.length + k) 0 = (padding msg.length).getD k 0 := by
  rw [padded_getD, if_neg (by omega), Nat.add_sub_cancel_left]

/-- The terminated chunk of the message's last bytes, up to where its length may stand (41 R90). -/
theorem terminated_getElem_eq {msg : List Byte} {q : Nat} {n : Fin 65} {lane : Block} (hq : 64 * q ≤ msg.length)
    (h : msg.drop (64 * q) = rawBytes n lane) {i : Fin 64} (hi : i.val ≤ n.val + zeroCount msg.length) :
    (terminated n.val lane)[i] = (padded msg).getD (64 * q + i.val) 0 := by
  have hraw : msg.drop (64 * q) = rawBytes n lane ++ [] := by simpa using h
  have hlen : msg.length = 64 * q + n.val := length_of_drop_eq hq hraw
  rw [terminated_getElem]
  by_cases hdata : i.val < n.val
  · rw [if_pos hdata, padded_getD, if_pos (by omega)]
    exact lane_eq_message hraw hdata
  · obtain ⟨k, hk⟩ := Nat.exists_eq_add_of_le (Nat.not_lt.1 hdata)
    have hplace : 64 * q + i.val = msg.length + k := by omega
    have hterminator : i.val = n.val ↔ k = 0 := by omega
    rw [if_neg hdata, hplace, padded_getD_after, padding_getD (by omega)]
    simp only [hterminator, if_pos (show k ≤ zeroCount msg.length by omega)]

/-- The length's bytes at the end of the padded message. -/
theorem padded_getD_length {msg : List Byte} {j k : Nat} (hj : j < 8)
    (hk : k = msg.length + zeroCount msg.length + 1 + j) :
    (padded msg).getD k 0 = be64Byte (BitVec.ofNat 64 (8 * msg.length)) j := by
  have hplace : k = msg.length + (zeroCount msg.length + 1 + j) := by omega
  rw [hplace, padded_getD_after, padding_getD (by omega), if_neg (by omega), if_neg (by omega),
    Nat.add_sub_cancel_left]

/-- A final chunk of at most 55 bytes, with its padding, is the last block of the padded message (41 R91). -/
theorem chunkBlock_short_eq_blockAt {msg : List Byte} {q : Nat} {n : Fin 65} {lane : Block}
    (hq : 64 * q ≤ msg.length) (hn : n.val ≤ 55) (h : msg.drop (64 * q) = rawBytes n lane) :
    chunkBlock n lane (BitVec.ofNat 64 (8 * msg.length)) = blockAt (padded msg) q := by
  have hlen : msg.length = 64 * q + n.val := length_of_drop_eq (tail := []) hq (by simpa using h)
  have hzeros : zeroCount msg.length = 55 - n.val := by rw [zeroCount_short (by omega)]; omega
  rw [chunkBlock, if_neg (by omega), if_pos hn]
  refine Vector.ext fun i hi => ?_
  refine (putLength_getElem _ _ ⟨i, hi⟩).trans (Eq.trans ?_ (blockAt_getElem _ q ⟨i, hi⟩).symm)
  by_cases hlow : i < 56
  · rw [if_pos hlow]
    exact terminated_getElem_eq (i := ⟨i, hi⟩) hq h (by simp; omega)
  · have hbyte : 56 - 8 * (i - 56) = 8 * (63 - i) := by omega
    rw [if_neg hlow, padded_getD_length (j := i - 56) (by omega) (by simp; omega), be64Byte, hbyte]

/-- A final chunk of 56 to 63 bytes leaves no room for the length: its block is the last but one (41 R92). -/
theorem chunkBlock_long_eq_blockAt {msg : List Byte} {q : Nat} {n : Fin 65} {lane : Block}
    (hq : 64 * q ≤ msg.length) (h56 : 56 ≤ n.val) (h63 : n.val ≤ 63) (h : msg.drop (64 * q) = rawBytes n lane) :
    chunkBlock n lane (BitVec.ofNat 64 (8 * msg.length)) = blockAt (padded msg) q := by
  have hlen : msg.length = 64 * q + n.val := length_of_drop_eq (tail := []) hq (by simpa using h)
  have hzeros : zeroCount msg.length = 119 - n.val := by rw [zeroCount_long (by omega)]; omega
  rw [chunkBlock_long h56 h63]
  refine Vector.ext fun i hi => ?_
  exact (terminated_getElem_eq (i := ⟨i, hi⟩) hq h (by simp; omega)).trans (blockAt_getElem _ q ⟨i, hi⟩).symm

/-- The length-only block is then the last (41 R93). -/
theorem lengthBlock_eq_blockAt {msg : List Byte} {q : Nat} (hlow : 64 * q + 56 ≤ msg.length)
    (hhigh : msg.length ≤ 64 * q + 63) :
    lengthBlock (BitVec.ofNat 64 (8 * msg.length)) = blockAt (padded msg) (q + 1) := by
  have hzeros : zeroCount msg.length = 119 - (msg.length - 64 * q) := by rw [zeroCount_long (by omega)]; omega
  refine Vector.ext fun i hi => ?_
  refine (lengthBlock_getElem _ ⟨i, hi⟩).trans (Eq.trans ?_ (blockAt_getElem _ (q + 1) ⟨i, hi⟩).symm)
  by_cases hzero : i < 56
  · obtain ⟨k, hk⟩ := Nat.exists_eq_add_of_le (show msg.length ≤ 64 * (q + 1) + i by omega)
    rw [if_pos hzero, hk, padded_getD_after, padding_getD (by omega), if_neg (by omega), if_pos (by omega)]
  · have hbyte : 56 - 8 * (i - 56) = 8 * (63 - i) := by omega
    rw [if_neg hzero, padded_getD_length (j := i - 56) (by omega) (by simp; omega), be64Byte, hbyte]

/-! ## The hash of the blocks -/

/-- The hash state after the first `q` blocks of the padded message. -/
def hashPrefix (msg : List Byte) (q : Nat) : HashState := ((List.range q).map (blockAt (padded msg))).foldl hashBlock IV

theorem hashPrefix_succ (msg : List Byte) (q : Nat) :
    hashPrefix msg (q + 1) = hashBlock (hashPrefix msg q) (blockAt (padded msg) q) := by
  simp [hashPrefix, List.range_succ]

/-- SHA-256 is the hash state after the last block: one or two follow the full chunks. -/
theorem sha256_eq_hashPrefix {msg : List Byte} {q : Nat} (hlow : 64 * q ≤ msg.length)
    (hhigh : msg.length ≤ 64 * q + 63) :
    sha256 msg = hashPrefix msg (if msg.length ≤ 64 * q + 55 then q + 1 else q + 2) := by
  have hcount : (padded msg).length / 64 = if msg.length ≤ 64 * q + 55 then q + 1 else q + 2 := by
    rw [padded_length]
    split
    · rw [zeroCount_short (by omega)]; omega
    · rw [zeroCount_long (by omega)]; omega
  rw [← hcount]
  rfl

end Sys2Proof.Machine
end

-- ==== RUN and the message ====
section
/-! RUN on a script that delivers a message (44 R124, R125, R129): what its reads take, what holds between its blocks,
and how it ends, in one action or over the waits. -/

namespace Sys2Proof.Machine

/-! ## The stream of a script, read by read -/

/-- The stream after one read (41 R87). -/
def streamAfter (waits : Bool) (policy : InterruptPolicy) (r : ReadResult) : Option (List Byte × List SourceEvent) :=
  match r.ending with
  | .data n lane =>
    if n.val = 64 then (streamOf waits policy r.rest).map fun p => (rawBytes n lane ++ p.1, p.2)
    else some (rawBytes n lane, r.rest)
  | .raise _ => none
  | .wait => if waits then streamOf waits policy r.rest else none

theorem streamOf_eq_streamAfter (waits : Bool) (policy : InterruptPolicy) (l : List SourceEvent) :
    streamOf waits policy l = streamAfter waits policy (acceptedRead policy l) := by
  induction l with
  | nil => cases waits <;> rfl
  | cons e l ih =>
    cases e with
    | delay => rfl
    | late a => exact ih
    | answer a =>
      simp only [streamOf, acceptedRead]
      cases a.reply with
      | data n lane => rfl
      | error => rfl
      | broken => rfl
      | interrupted =>
        cases policy with
        | retry => exact ih
        | abort => rfl

/-- A read that leaves something of the script has taken something of it. -/
theorem acceptedRead_rest_lt_of_ne_nil {p : InterruptPolicy} {l : List SourceEvent} (h : (acceptedRead p l).rest ≠ []) :
    (acceptedRead p l).rest.length < l.length := by
  induction l with
  | nil => exact absurd rfl h
  | cons e l ih =>
    cases e with
    | delay => exact Nat.lt_succ_self _
    | late a => exact (ih h).trans (Nat.lt_succ_self _)
    | answer a =>
      by_cases hwait : (acceptedRead p (.answer a :: l)).ending = .wait
      · have hretry : acceptedRead p (.answer a :: l) = (acceptedRead p l).retried := by
          simp only [acceptedRead] at hwait ⊢
          cases hreply : a.reply with
          | interrupted => cases p <;> simp_all
          | data n lane | error | broken => simp [hreply] at hwait
        rw [hretry] at h ⊢
        exact (ih h).trans (Nat.lt_succ_self _)
      · exact acceptedRead_rest_lt hwait

/-- What a read of a script that delivers `msg` comes to: a full chunk and the rest of the message, the short chunk, or,
where the script may wait, a wait. -/
theorem streamOf_cases {waits : Bool} {policy : InterruptPolicy} {l rest : List SourceEvent} {msg : List Byte}
    (h : streamOf waits policy l = some (msg, rest)) :
    let r := acceptedRead policy l
    (∃ lane tail, r.ending = .data 64 lane ∧ msg = rawBytes 64 lane ++ tail ∧
      streamOf waits policy r.rest = some (tail, rest)) ∨
    (∃ n lane, r.ending = .data n lane ∧ n.val ≤ 63 ∧ msg = rawBytes n lane ∧ r.rest = rest) ∨
    (waits = true ∧ r.ending = .wait ∧ streamOf waits policy r.rest = some (msg, rest) ∧
      r.rest.length < l.length) := by
  intro r
  rw [streamOf_eq_streamAfter, streamAfter] at h
  split at h
  next n lane he =>
    split at h
    next hn =>
      obtain rfl : n = 64 := Fin.ext hn
      obtain ⟨⟨tail, rest'⟩, htail, heq⟩ := Option.map_eq_some_iff.1 h
      obtain ⟨rfl, rfl⟩ := Prod.mk.inj heq
      exact .inl ⟨lane, tail, he, rfl, htail⟩
    next hn =>
      obtain ⟨rfl, hrest⟩ := Prod.mk.inj (Option.some.inj h)
      exact .inr (.inl ⟨n, lane, he, by omega, rfl, hrest⟩)
  next => cases h
  next he =>
    split at h
    next hw =>
      refine .inr (.inr ⟨hw, he, h, acceptedRead_rest_lt_of_ne_nil fun hnil => ?_⟩)
      rw [hnil] at h
      cases h
    next => cases h

/-! ## Between two blocks -/

/-- RUN is about to read block `q` of a message that its script delivers; `start` is the state it began in. -/
structure State.Underway (s : State) (start : State) (msg : List Byte) (waits : Bool) (rest : List SourceEvent)
    (q : Nat) : Prop where
  running : s.drv = .running
  pad : s.pad = .notPadded
  cause : s.cause = start.cause
  hash : s.hash = some (hashPrefix msg q)
  within : 64 * q ≤ msg.length
  bits : s.bitlen = some (BitVec.ofNat 64 (8 * (64 * q)))
  received : s.received = start.received ++ msg.take (64 * q)
  stream : streamOf waits s.policy s.source = some (msg.drop (64 * q), rest)

/-- The short chunk has been taken: the message is in. -/
structure State.MessageIn (s : State) (start : State) (msg : List Byte) (rest : List SourceEvent) : Prop where
  phase : s.phase = .idle
  rnd : s.rnd = 0
  cause : s.cause = start.cause
  bits : s.bitlen = some (BitVec.ofNat 64 (8 * msg.length))
  received : s.received = start.received ++ msg
  source : s.source = rest

/-- RUN has ended with the digest (44 R125). -/
structure State.Hashed (s : State) (start : State) (msg : List Byte) (rest : List SourceEvent) : Prop
    extends State.MessageIn s start msg rest where
  done : s.drv = .done
  pad : s.pad = .lengthWritten
  hash : s.hash = some (sha256 msg)

/-- The message is in, and its length-only block is still to be hashed (41 R92). -/
structure State.LengthLeft (s : State) (start : State) (msg : List Byte) (rest : List SourceEvent) : Prop
    extends State.MessageIn s start msg rest where
  running : s.drv = .running
  pad : s.pad = .terminatorPlaced
  hash : ∃ h, s.hash = some h ∧ sha256 msg = hashBlock h (lengthBlock (BitVec.ofNat 64 (8 * msg.length)))

theorem receive_data {who : Waiter} {s : State} {n : Fin 65} {lane : Block} {l : BitVec 64}
    (he : (acceptedRead s.policy s.source).ending = .data n lane) (hl : s.bitlen = some l) :
    receive who s = .ok { s with
      source := (acceptedRead s.policy s.source).rest
      trace := List.replicate (acceptedRead s.policy s.source).retries .readRequest ++ s.trace
      waiting := none, buf := some (chunkBlock n lane (addBits l n.val)), bitlen := some (addBits l n.val)
      pad := chunkPad n, phase := .block, received := s.received ++ rawBytes n lane } := by
  simp only [receive, he]
  exact storeChunk_some hl

/-- A read that takes a chunk, and the block processed. -/
theorem receive_process_data {who : Waiter} {s : State} {n : Fin 65} {lane : Block} {l : BitVec 64} {h : HashState}
    (he : (acceptedRead s.policy s.source).ending = .data n lane) (hl : s.bitlen = some l) (hh : s.hash = some h) :
    (receive who s).bind processBlock = .ok { s with
      source := (acceptedRead s.policy s.source).rest
      trace := List.replicate (acceptedRead s.policy s.source).retries .readRequest ++ s.trace
      waiting := none, buf := some (chunkBlock n lane (addBits l n.val)), bitlen := some (addBits l n.val)
      pad := chunkPad n, received := s.received ++ rawBytes n lane
      hash := some (hashBlock h (chunkBlock n lane (addBits l n.val))), phase := .idle, rnd := 0, sched := none
      vars := none, drv := if chunkPad n = .lengthWritten then .done else s.drv } := by
  rw [receive_data he hl, flow_bind_ok, processBlock_some (by exact hh) (by rfl)]

section
variable {start s : State} {msg : List Byte} {waits : Bool} {rest : List SourceEvent} {q : Nat}

/-- The counter after a chunk of the message counts up to the chunk's end (41 R72). -/
theorem addBits_underway {tail : List Byte} {n : Fin 65} {lane : Block} (hq : 64 * q ≤ msg.length)
    (h : msg.drop (64 * q) = rawBytes n lane ++ tail) :
    addBits (BitVec.ofNat 64 (8 * (64 * q))) n.val = BitVec.ofNat 64 (8 * (msg.length - tail.length)) := by
  rw [addBits_ofNat]
  congr 2
  have := length_of_drop_eq hq h
  omega

/-- A full chunk leads to the next block. -/
theorem underway_full_chunk (hs : s.Underway start msg waits rest q) (who : Waiter) {lane : Block} {tail : List Byte}
    (he : (acceptedRead s.policy s.source).ending = .data 64 lane)
    (hmsg : msg.drop (64 * q) = rawBytes 64 lane ++ tail)
    (htail : streamOf waits s.policy (acceptedRead s.policy s.source).rest = some (tail, rest)) :
    ∃ t, (receive who s).bind processBlock = .ok t ∧ t.Underway start msg waits rest (q + 1) ∧ t.phase = .idle ∧
      t.busy = s.busy ∧ t.source.length < s.source.length := by
  have hlen : msg.length = 64 * q + 64 + tail.length := length_of_drop_eq hs.within hmsg
  have hnext : msg.drop (64 * (q + 1)) = tail := by
    rw [Nat.mul_succ, ← List.drop_drop, hmsg]
    exact List.drop_left' (rawBytes_length 64 lane)
  have htake : msg.take (64 * (q + 1)) = msg.take (64 * q) ++ rawBytes 64 lane := by
    rw [Nat.mul_succ, List.take_add, hmsg]
    exact congrArg _ (List.take_left' (rawBytes_length 64 lane))
  have hcount : msg.length - tail.length = 64 * (q + 1) := by omega
  refine ⟨_, receive_process_data he hs.bits hs.hash, ?_, rfl, rfl, acceptedRead_rest_lt (by simp [he])⟩
  exact {
    running := hs.running
    pad := rfl
    cause := hs.cause
    hash := by
      rw [hashPrefix_succ, ← lane_eq_blockAt hs.within hmsg]
      rfl
    within := by omega
    bits := by
      rw [← hcount]
      exact congrArg some (addBits_underway hs.within hmsg)
    received := by
      rw [hs.received, htake, List.append_assoc]
    stream := by
      rw [hnext]
      exact htail }

/-- The short chunk ends the message; where it leaves room for the length, RUN is done. -/
theorem underway_short_chunk (hs : s.Underway start msg waits rest q) (who : Waiter) {n : Fin 65} {lane : Block}
    (he : (acceptedRead s.policy s.source).ending = .data n lane) (hn : n.val ≤ 63)
    (hmsg : msg.drop (64 * q) = rawBytes n lane) (hrest : (acceptedRead s.policy s.source).rest = rest) :
    ∃ t, (receive who s).bind processBlock = .ok t ∧ (t.Hashed start msg rest ∨ t.LengthLeft start msg rest) := by
  have hraw : msg.drop (64 * q) = rawBytes n lane ++ [] := by simpa using hmsg
  have hlen : msg.length = 64 * q + n.val := length_of_drop_eq hs.within hraw
  have hbits : addBits (BitVec.ofNat 64 (8 * (64 * q))) n.val = BitVec.ofNat 64 (8 * msg.length) :=
    addBits_underway hs.within hraw
  have hreceived : s.received ++ rawBytes n lane = start.received ++ msg := by
    rw [hs.received, ← hmsg, List.append_assoc, List.take_append_drop]
  have hprocess := receive_process_data (who := who) he hs.bits hs.hash
  rw [hbits, hreceived, hrest] at hprocess
  refine ⟨_, hprocess, ?_⟩
  have hsha := sha256_eq_hashPrefix (msg := msg) (q := q) (by omega) (by omega)
  by_cases h55 : n.val ≤ 55
  · rw [if_pos (by omega), hashPrefix_succ, ← chunkBlock_short_eq_blockAt hs.within h55 hmsg] at hsha
    refine .inl ⟨⟨rfl, rfl, hs.cause, rfl, rfl, rfl⟩, ?_, chunkPad_short h55, ?_⟩
    · simp [chunkPad_short h55]
    · exact congrArg some hsha.symm
  · rw [if_neg (by omega), hashPrefix_succ, hashPrefix_succ, ← lengthBlock_eq_blockAt (by omega) (by omega),
      ← chunkBlock_long_eq_blockAt hs.within (by omega) hn hmsg] at hsha
    refine .inr ⟨⟨rfl, rfl, hs.cause, rfl, rfl, rfl⟩, ?_, chunkPad_long (by omega) hn, ?_⟩
    · simp [chunkPad_long (n := n) (by omega) hn, hs.running]
    · exact ⟨_, rfl, hsha⟩

/-- The length-only block ends RUN (41 R93). -/
theorem hashed_of_lengthLeft (hs : s.LengthLeft start msg rest) (folded : Bool) :
    ∃ t, runToEnd folded s = .ok t ∧ t.Hashed start msg rest := by
  obtain ⟨hin, hd, hpad, h, hh, hsha⟩ := hs
  have hstep := readBlock_terminatorPlaced (who := .run folded) hpad hin.bits
  rw [runToEnd_running hd, driverStep, hstep, flow_bind_ok, processBlock_some (by exact hh) (by rfl), flow_bind_ok,
    runToEnd_not_running (by simp)]
  refine ⟨_, rfl, { hin with phase := rfl, rnd := rfl, done := rfl, pad := rfl, hash := hsha ▸ rfl }⟩

theorem hashed_runToEnd (hs : s.Hashed start msg rest) (folded : Bool) :
    ∃ t, runToEnd folded s = .ok t ∧ t.Hashed start msg rest :=
  ⟨s, runToEnd_not_running (by simp [hs.done]), hs⟩

/-- RUN's loop from where its read stands: it ends with the digest or, where the script may wait, it waits again. -/
theorem resume_run_underway (n : Nat) :
    ∀ (folded : Bool) (s : State) (q : Nat), s.source.length < n → s.Underway start msg waits rest q →
      (∃ t, resume (.run folded) s = .ok t ∧ t.Hashed start msg rest) ∨
      (waits = true ∧ ∃ f t q, resume (.run folded) s = .stop t ∧ t.waiting = some (.run f) ∧ t.busy = s.busy ∧
        t.Underway start msg waits rest q ∧ t.source.length < s.source.length) := by
  induction n with
  | zero => intro folded s q h; omega
  | succ n ih =>
    intro folded s q hn hs
    rw [resume]
    rcases streamOf_cases hs.stream with ⟨lane, tail, he, hmsg, htail⟩ | ⟨m, lane, he, hm, hmsg, hrest⟩ |
      ⟨hw, he, hstream, hlt⟩
    · obtain ⟨t, ht, hunder, hph, htb, hlt⟩ := underway_full_chunk hs (.run folded) he hmsg htail
      have hnote : (note .readRequest t).Underway start msg waits rest (q + 1) := { hunder with }
      have hloop : runToEnd true t = resume (.run true) (note .readRequest t) := by
        rw [runToEnd_running hunder.running, driverStep, readBlock_notPadded hunder.pad]
        rfl
      rw [ht, flow_bind_ok, hloop]
      obtain hdone | ⟨hw, f, u, q', hu, hwait, hub, hunder', hlt'⟩ := ih true (note .readRequest t) (q + 1)
        (by simp; omega) hnote
      · exact .inl hdone
      · exact .inr ⟨hw, f, u, q', hu, hwait, hub.trans htb, hunder', hlt'.trans hlt⟩
    · obtain ⟨t, ht, hhashed | hleft⟩ := underway_short_chunk hs (.run folded) he hm hmsg hrest
      · rw [ht, flow_bind_ok]
        exact .inl (hashed_runToEnd hhashed true)
      · rw [ht, flow_bind_ok]
        exact .inl (hashed_of_lengthLeft hleft true)
    · refine .inr ⟨hw, folded, noteRequests (acceptedRead s.policy s.source).retries { s with
        source := (acceptedRead s.policy s.source).rest, waiting := some (.run folded) }, q, ?_, rfl, rfl, ?_, hlt⟩
      · simp only [receive, he]
        rfl
      · exact { hs with stream := hstream }

end

end Sys2Proof.Machine
end

-- ==== The digest of the delivered bytes ====
section
/-! RUN from the start of a computation (44 R125, R129), and the byte source that does its duty (41 R97, 60 R141). -/

namespace Sys2Proof.Machine

/-! ## From the start of a computation -/

/-- RUN is its first request, and RUN from there. -/
theorem exec_run_eq_resume {s : State} (hd : s.drv = .running) (hph : s.phase = .idle) (hpad : s.pad = .notPadded) :
    exec .run s = (resume (.run false) (note .readRequest { s with busy := true })).outcome := by
  rw [exec_reader_eq (who := .run false) (by decide) hd hph hpad, resume_eq]

/-- At the start of a computation no block of the message has been read. -/
theorem underway_start {start s : State} {msg : List Byte} {waits : Bool} {rest : List SourceEvent}
    (hd : s.drv = .running) (hpad : s.pad = .notPadded) (hc : s.cause = start.cause) (hh : s.hash = some IV)
    (hl : s.bitlen = some 0) (hr : s.received = start.received)
    (hstream : streamOf waits s.policy s.source = some (msg, rest)) : s.Underway start msg waits rest 0 where
  running := hd
  pad := hpad
  cause := hc
  hash := hh
  within := Nat.zero_le _
  bits := hl
  received := by simp [hr]
  stream := by simpa using hstream

/-- A script without delays takes RUN to the digest in one action. -/
theorem resume_run_hashes {s : State} {msg : List Byte} {rest : List SourceEvent} (hd : s.drv = .running)
    (hpad : s.pad = .notPadded) (hh : s.hash = some IV) (hl : s.bitlen = some 0)
    (hstream : streamOf false s.policy s.source = some (msg, rest)) :
    ∃ t, resume (.run false) (note .readRequest { s with busy := true }) = .ok t ∧ t.Hashed s msg rest := by
  have hunder : (note .readRequest { s with busy := true }).Underway s msg false rest 0 :=
    underway_start hd hpad rfl hh hl rfl hstream
  obtain hdone | ⟨hwaits, -⟩ := resume_run_underway _ false _ 0 (Nat.lt_succ_self _) hunder
  · exact hdone
  · cases hwaits

/-- Settles O44: on a script without delays the one action ends with the digest. -/
theorem runHashesTheDeliveredBytes : Obligations.RunHashesTheDeliveredBytes := by
  intro s msg rest _ hd hph hpad _ hh hl hr hstream
  obtain ⟨t, ht, hhashed⟩ := resume_run_hashes hd hpad hh hl hstream
  refine ⟨complete t, ?_, hhashed.done, hhashed.pad, hhashed.phase, hhashed.rnd, rfl, hhashed.cause, hhashed.hash,
    hhashed.bits, ?_, hhashed.source⟩
  · rw [exec_run_eq_resume hd hph hpad, ht]
    rfl
  · simpa [hr] using hhashed.received

/-! ## Over the waits -/

theorem core_run_succ {s t : State} (k : Nat) (h : step s = .next t) :
    Host.Core.run core (k + 1) s = Host.Core.run core k t := by
  have hstep : core.step s = .next t := h
  simp [Host.Core.run, hstep]

/-- With no move of the host, a step of a state that waits in RUN goes on with it. -/
theorem step_waiting {who : Waiter} {s : State} (hh : s.host = []) (hb : s.busy = true) (hw : s.waiting = some who) :
    step s = (resume who s).outcome :=
  (cycle_waits (.inl hh)).trans (coreTurn_resumes hb hw)

/-- Where a step takes up RUN at a read, the steps after it end with the digest: each wait takes from the script. -/
theorem core_run_hashes {start : State} {msg : List Byte} {rest : List SourceEvent} (n : Nat) :
    ∀ (f : Bool) (s s' : State) (q : Nat), s'.source.length < n → step s = (resume (.run f) s').outcome →
      s'.Underway start msg true rest q → s'.busy = true → s'.host = [] →
      ∃ k t, Host.Core.run core k s = .next (complete t) ∧ t.Hashed start msg rest := by
  induction n with
  | zero => intro f s s' q h; omega
  | succ n ih =>
    intro f s s' q hn hstep hs hb hh
    obtain ⟨t, ht, hhashed⟩ | ⟨-, f', t, q', ht, hw, htb, hunder, hlt⟩ := resume_run_underway _ f s' q hn hs
    · rw [ht] at hstep
      exact ⟨1, t, core_run_succ 0 hstep, hhashed⟩
    · have houtside := resume_keepsOutside (.run f) s'
      rw [ht] at hstep houtside
      have hth : t.host = [] := (congrArg (·.2.2) houtside).trans hh
      have htb : t.busy = true := htb.trans hb
      obtain ⟨k, u, hu, hhashed⟩ := ih f' t t q' (by omega) (step_waiting hth htb hw) hunder htb hth
      exact ⟨k + 1, u, (core_run_succ k hstep).trans hu, hhashed⟩

/-- Settles O46: the step that takes RUN's word, and then one step for each wait. -/
theorem runEndsWhateverTimeTheAnswersTake : Obligations.RunEndsWhateverTimeTheAnswersTake := by
  rintro s msg rest ⟨hb, -⟩ hd hph hpad _ hh hl hhost hport hstream
  have hstep : step s = (resume (.run false) (note .readRequest { s with port := none, busy := true })).outcome :=
    calc step s
      _ = coreTurn s := cycle_waits (.inl hhost)
      _ = exec .run { s with port := none } := coreTurn_command hb hport Laws.RoundTrip.run.2
      _ = _ := exec_run_eq_resume (s := { s with port := none }) hd hph hpad
  have hunder : (note .readRequest { s with port := none, busy := true }).Underway s msg true rest 0 :=
    underway_start hd hpad rfl hh hl rfl hstream
  obtain ⟨k, t, hk, hhashed⟩ := core_run_hashes _ false s _ 0 (Nat.lt_succ_self _) hstep hunder rfl hhost
  exact ⟨k, complete t, hk, hhashed.done, rfl, hhashed.hash, hhashed.source⟩

/-! ## One request for each answer -/

/-- What a read that is answered takes: the answers it retried and the last. -/
theorem answerCount_acceptedRead {p : InterruptPolicy} {l : List SourceEvent} {n : Fin 65} {lane : Block}
    (h : (acceptedRead p l).ending = .data n lane) :
    answerCount l = answerCount (acceptedRead p l).rest + (acceptedRead p l).retries + 1 := by
  induction l with
  | nil => cases h
  | cons e l ih =>
    cases e with
    | delay => cases h
    | late a => exact (answerCount_late a l).trans (ih h)
    | answer a =>
      rw [answerCount_answer]
      cases hreply : a.reply with
      | data m lane' => simp [acceptedRead, hreply]
      | error | broken => simp [acceptedRead, hreply] at h
      | interrupted =>
        cases p with
        | abort => simp [acceptedRead, hreply] at h
        | retry =>
          rw [acceptedRead_retry hreply] at h ⊢
          have := ih h
          simp only [retried_rest, retried_retries]
          omega

/-- The requests shown and the answers to come, together. -/
def State.ledger (s : State) : Nat := s.requests + answerCount s.source

/-- A STEP that completes has one answer to each of its requests, and none where it makes no request. -/
theorem driverStep_ledger {who : Waiter} {s t : State} (h : driverStep who s = .ok t) : t.ledger = s.ledger := by
  obtain ⟨m, hread, hprocess⟩ := flow_bind_eq_ok.1 h
  obtain ⟨hash, b, -, -, rfl⟩ := processBlock_eq_ok hprocess
  rcases readBlock_eq_ok hread with ⟨-, hr⟩ | ⟨l, -, -, rfl⟩ | ⟨-, rfl⟩
  · obtain ⟨n, lane, l, he, -, rfl⟩ := receive_eq_ok hr
    have hcount := answerCount_acceptedRead he
    simp only [note_source, note_policy] at hcount
    simp only [State.ledger, State.requests, note_source, note_policy, note_trace, List.count_append,
      List.count_replicate_self, List.count_cons_self]
    omega
  · rfl
  · rfl

theorem runToEnd_ledger (folded : Bool) (s : State) :
    ∀ t, runToEnd folded s = .ok t → t.ledger = s.ledger := by
  refine runToEnd_induction (P := fun u => u.ledger = s.ledger)
    (Q := fun r => ∀ t, r = .ok t → t.ledger = s.ledger) (fun f u hu _ => ?_) (fun u hu _ t ht => ?_)
    (s.source.length + 1) folded s (by omega) rfl
  · cases h : driverStep (.run f) u with
    | ok t => exact .inl ⟨t, rfl, (driverStep_ledger h).trans hu⟩
    | stop t => exact .inr ⟨by simp, by simp⟩
    | unwritten e => exact .inr ⟨by simp, by simp⟩
  · cases ht
    exact hu

/-! ## The dutiful source -/

/-- An answer made for some bytes delivers them. -/
theorem dataAnswer_reply {bytes : List Byte} {n : Fin 65} (h : bytes.length = n.val) :
    (dataAnswer bytes).reply = .data n (dataAnswer bytes).lane ∧ rawBytes n (dataAnswer bytes).lane = bytes := by
  have hcount : (dataAnswer bytes).count.toNat = n.val := by
    have hn := n.isLt
    rw [dataAnswer, BitVec.toNat_ofNat, h, Nat.mod_eq_of_lt (by omega)]
  refine ⟨reply_data rfl hcount, List.ext_getElem ((rawBytes_length ..).trans h.symm) fun i hi hi' => ?_⟩
  simp [rawBytes, dataAnswer, hi']

/-- The answers for a message of less than a chunk, and for a longer one (60 R141). -/
theorem answersOf_short {msg : List Byte} (h : msg.length < 64) : answersOf msg = [.answer (dataAnswer msg)] := by
  have hq : msg.length / 64 = 0 := Nat.div_eq_of_lt h
  simp [answersOf, hq, List.take_of_length_le (by omega : msg.length ≤ 64)]

theorem answersOf_long {msg : List Byte} (h : 64 ≤ msg.length) :
    answersOf msg = .answer (dataAnswer (msg.take 64)) :: answersOf (msg.drop 64) := by
  obtain ⟨k, hk⟩ : ∃ k, msg.length / 64 = k + 1 := ⟨msg.length / 64 - 1, by omega⟩
  have hk' : (msg.drop 64).length / 64 = k := by rw [List.length_drop]; omega
  rw [answersOf, answersOf, hk, hk', List.range_succ_eq_map]
  simp [Function.comp_def, Nat.mul_succ, Nat.add_comm]

theorem streamOf_data {waits : Bool} {policy : InterruptPolicy} {a : Answer} {l : List SourceEvent} {n : Fin 65}
    {lane : Block} (h : a.reply = .data n lane) : streamOf waits policy (.answer a :: l) =
      if n.val = 64 then (streamOf waits policy l).map fun r => (rawBytes n lane ++ r.1, r.2)
      else some (rawBytes n lane, l) := by
  simp only [streamOf, h]

/-- The dutiful source delivers its message, chunk by chunk. -/
theorem streamOf_answersOf (policy : InterruptPolicy) (msg : List Byte) (rest : List SourceEvent) :
    streamOf false policy (answersOf msg ++ rest) = some (msg, rest) := by
  induction hlen : msg.length using Nat.strongRecOn generalizing msg with
  | ind len ih =>
    by_cases hshort : msg.length < 64
    · obtain ⟨hreply, hraw⟩ := dataAnswer_reply (bytes := msg) (n := ⟨msg.length, by omega⟩) rfl
      rw [answersOf_short hshort, List.singleton_append, streamOf_data hreply, hraw, if_neg hshort.ne]
    · obtain ⟨hreply, hraw⟩ := dataAnswer_reply (bytes := msg.take 64) (n := 64) (by simp; omega)
      have htail := ih (msg.drop 64).length (by simp; omega) (msg.drop 64) rfl
      rw [answersOf_long (by omega), List.cons_append, streamOf_data hreply, hraw, htail]
      simp

theorem answerCount_answersOf (msg : List Byte) : answerCount (answersOf msg) = msg.length / 64 + 1 := by
  have hall : answerCount (answersOf msg) = (answersOf msg).length := by
    rw [answerCount, List.countP_eq_length]
    simp [answersOf]
  rw [hall]
  simp [answersOf]

/-- Settles O45: the script delivers the message, and requests and answers come in pairs. -/
theorem dutifulSourceIsReadOncePerChunk : Obligations.DutifulSourceIsReadOncePerChunk := by
  intro s msg rest _ hd hph hpad hh hl hs
  have hstream : streamOf false s.policy s.source = some (msg, rest) := hs ▸ streamOf_answersOf s.policy msg rest
  refine ⟨hstream, ?_⟩
  obtain ⟨t, ht, hhashed⟩ := resume_run_hashes hd hpad hh hl hstream
  have hrun : runToEnd false { s with busy := true } = .ok t := by
    rw [← ht, runToEnd_running (s := { s with busy := true }) hd, driverStep,
      readBlock_notPadded (s := { s with busy := true }) hpad]
    rfl
  have hledger : t.ledger = s.ledger := runToEnd_ledger false { s with busy := true } t hrun
  refine ⟨complete t, ?_, hhashed.source, ?_⟩
  · rw [exec_run_idle hd hph, hrun]
    rfl
  · rw [State.ledger, State.ledger, hhashed.source, hs, answerCount_append, answerCount_answersOf] at hledger
    have hcomplete : (complete t).requests = t.requests := rfl
    omega

end Sys2Proof.Machine
end
